-- ==== Sys2Proof/Word.lean ====
section
/-! DEFINITION. The widths the spec fixes (00_scope R7, 20_memory R50): the types of its words, addresses and indexes. -/

namespace Sys2Proof

/-- A byte: a device register's value, a device register index, a field of a command word (R7, R80). -/
abbrev Byte := BitVec 8

/-- A 32-bit host register or command word (R30 to R33, R80). -/
abbrev Word := BitVec 32

/-- A 7-bit I2C target address (R7). -/
abbrev Addr := BitVec 7

/-- The index of a bus port: 4 bits, as a device record holds it (R27); NBUS is at most 16 (R6). -/
abbrev BusIx := BitVec 4

/-- A segment bitmap: 14 segments and 2 auxiliary bits (R7, R170). -/
abbrev Bitmap := BitVec 16

/-- A PWM tick count (R7, R141). -/
abbrev Ticks := BitVec 12

/-- A byte offset in the 4 KiB host register window (R50). -/
abbrev Offset := BitVec 12

end Sys2Proof
end

