-- ==== Sys2Proof/Config.lean ====
section
/-! DEFINITION. What an implementation fixes (00_scope R6): the constants, the OPEN parameters as one record, and the free
values of the environment (60_exceptions R232), opaque constants with no body. -/

namespace Sys2Proof.Config

/-- DATA_SIZE (R6): bytes in the DATA buffer. -/
abbrev dataSize : Nat := 128

/-- MAX_BLOCK (R6): the largest block read or write, in bytes. -/
abbrev maxBlock : Nat := 32

/-- SCAN_LO (R6): the lowest valid target address. -/
abbrev scanLo : Nat := 0x03

/-- SCAN_HI (R6): the highest valid target address. -/
abbrev scanHi : Nat := 0x77

/-- NDIGITS (R6): display slots. -/
abbrev nDigits : Nat := 4

/-- NCHAN (R6): PWM channels. -/
abbrev nChan : Nat := 16

/-- TICKS (R6): the PWM period in ticks. -/
abbrev ticksPerPeriod : Nat := 4096

/-- Whether the environment acknowledges draw number `n`, where neither a scripted answer nor the reference environment
says so: any Bool (R232, log entry 2). -/
opaque freeAck : Nat → Bool

/-- Byte `k` of the reply to draw number `n`, where nothing else gives it: any byte (R57, R232, I8, log entries 2 and 6). -/
opaque freeByte : Nat → Nat → BitVec 8

/-- The answer to draw number `n` when it asks whether another owner holds a bus, where nothing else gives it: any Bool
(R25, R232, I14, log entry 2). -/
opaque freeHeld : Nat → Bool

end Sys2Proof.Config

namespace Sys2Proof

/-- The parameters of R6 that no source and no decision fixes. They are fixed for the life of a model instance: no
command changes one. `Params.wf` (WellFormed) states the table's constraints. -/
structure Params where
  /-- NBUS: bus ports; the type allows at most 16. -/
  nbus : Fin 17
  /-- BUS_PRESENT(b): whether the platform has bus b. -/
  busPresent : Vector Bool 16
  /-- PWM_CANDIDATES, in the order they are tried. -/
  pwmCandidates : List Addr
  /-- PWM_MODE1: the MODE1 register index. -/
  pwmMode1 : Byte
  /-- PWM_LED0: the ON_L register index of channel 0. -/
  pwmLed0 : Byte
  /-- PWM_ALL: the ON_L register index of the broadcast block. -/
  pwmAll : Byte
  /-- PWM_INIT_SEQ: the MODE1 values PWM_INIT writes, in order. -/
  pwmInitSeq : List Byte
  /-- FAN_CHANNEL. -/
  fanChannel : Fin 16
  /-- LED_R. -/
  ledR : Fin 16
  /-- LED_G. -/
  ledG : Fin 16
  /-- LED_B. -/
  ledB : Fin 16
  /-- DISP_CANDIDATES, in the order they are tried. -/
  dispCandidates : List Addr
  /-- DISP_PROBE_REG: the register DISP_DETECT reads. -/
  dispProbeReg : Byte
  /-- DISP_STANDBY_OFF: the command byte "disable standby". -/
  dispStandbyOff : Byte
  /-- DISP_STANDBY_ON: the command byte "enable standby"; no command issues it (R183). -/
  dispStandbyOn : Byte
  /-- DISP_DISPLAY_ON: the command byte "enable display". -/
  dispDisplayOn : Byte
  /-- DISP_DISPLAY_OFF: the command byte "disable display"; no command issues it (R183). -/
  dispDisplayOff : Byte
  /-- DISP_ROW_OUTPUT: the command byte "row-output mode"; no command issues it (R183). -/
  dispRowOutput : Byte
  /-- DIGIT_REG(i): the register index of the low byte of digit slot i. -/
  digitReg : Vector Byte 4
  /-- KEY_BASE: the first keypad row-scan register. -/
  keyBase : Byte
  /-- KEY_ROWS: keypad rows. -/
  keyRows : Nat
  /-- KEY_COLS: keypad columns per row word. -/
  keyCols : Nat
  /-- CHARMAP: the characters that have a bitmap; every other byte is blank (R171). -/
  charmap : List (Byte × Bitmap)
deriving DecidableEq, Repr

end Sys2Proof
end

