-- ==== Sys2Proof/Syntax.lean ====
section
/-! DEFINITION. The command set (30_encoding R82): one constructor per row of spec/opcode_table.json. -/

namespace Sys2Proof

/-- The 22 commands of command-set version 1 (R2, R82). A field is the 8-bit number the command word holds, in or out of
the range its command accepts (R90); the only narrower field is `align`, which is bit 0 of A (R81, format FA1). -/
inductive Instr where
  /-- BUS_OPEN, OPC 0x01, format FA (R102). -/
  | busOpen (bus : Byte)
  /-- BUS_CLOSE, OPC 0x02, format FA (R103). -/
  | busClose (bus : Byte)
  /-- SET_ADDR, OPC 0x03, format FAB (R104). -/
  | setAddr (bus addr : Byte)
  /-- WRITE_BYTE, OPC 0x04, format FABC (R105). -/
  | writeByte (bus reg val : Byte)
  /-- READ_BYTE, OPC 0x05, format FAB (R106). -/
  | readByte (bus reg : Byte)
  /-- WRITE_BLOCK, OPC 0x06, format FABC (R107). -/
  | writeBlock (bus reg len : Byte)
  /-- READ_BLOCK, OPC 0x07, format FABC (R108). -/
  | readBlock (bus reg len : Byte)
  /-- SCAN, OPC 0x08, format FABC (R109); the spec's fields `start` and `end`. -/
  | scan (bus first last : Byte)
  /-- MGR_CLOSE, OPC 0x09, format F0 (R210). -/
  | mgrClose
  /-- PWM_DETECT, OPC 0x10, format FA (R145). -/
  | pwmDetect (bus : Byte)
  /-- PWM_INIT, OPC 0x11, format F0 (R146). -/
  | pwmInit
  /-- PWM_SET, OPC 0x12, format FA (R147). -/
  | pwmSet (ch : Byte)
  /-- PWM_SET_ALL, OPC 0x13, format F0 (R148). -/
  | pwmSetAll
  /-- FAN_SPEED, OPC 0x14, format F0 (R149). -/
  | fanSpeed
  /-- LED_COLOR, OPC 0x15, format F0 (R150). -/
  | ledColor
  /-- DISP_DETECT, OPC 0x20, format FA (R173). -/
  | dispDetect (bus : Byte)
  /-- DISP_INIT, OPC 0x21, format F0 (R174). -/
  | dispInit
  /-- DISP_CLEAR, OPC 0x22, format F0 (R175). -/
  | dispClear
  /-- DISP_CHAR_L, OPC 0x23, format FAB (R176). -/
  | dispCharL (idx chr : Byte)
  /-- DISP_CHAR_R, OPC 0x24, format FAB (R177). -/
  | dispCharR (idx chr : Byte)
  /-- DISP_STRING, OPC 0x25, format FA1 (R179). -/
  | dispString (align : Bool)
  /-- READ_KEY, OPC 0x26, format F0 (R182). -/
  | readKey
deriving DecidableEq, Repr

/-- The five formats, named by the fields they use (R81). -/
inductive Format where
  /-- No field: bits 23:0 are reserved. -/
  | f0
  /-- A: bits 15:0 are reserved. -/
  | fa
  /-- A[0] only: bits 23:17 and 15:0 are reserved. -/
  | fa1
  /-- A and B: bits 7:0 are reserved. -/
  | fab
  /-- A, B and C: nothing is reserved. -/
  | fabc
deriving DecidableEq, Repr

/-- Why a word is illegal (R83, R84). -/
inductive DecodeError where
  /-- Its OPC is not in the table (R84). -/
  | unassignedOpcode (opc : Byte)
  /-- Its OPC is in the table and a reserved bit of its format is set (R83). -/
  | reservedField (opc : Byte)
deriving DecidableEq, Repr

end Sys2Proof
end

