-- ==== Sys2Proof/WellFormed.lean ====
section
/-! DEFINITION. Well-formed parameters (00_scope R6, the constraint column, with the bounds 20_memory R61 needs) and well-formed
commands (30_encoding R80, R90). -/

namespace Sys2Proof

/-- An address a candidate list may hold: 0x03 to 0x77 (R6, R56). -/
def Addr.inScanRange (a : Addr) : Bool :=
  decide (Config.scanLo ≤ a.toNat) && decide (a.toNat ≤ Config.scanHi)

/-- 1 ≤ NBUS ≤ 16; the type gives the upper bound (R6). -/
def Params.nbusOk (p : Params) : Bool := decide (1 ≤ p.nbus.val)

/-- PWM_CANDIDATES is a non-empty list of addresses in 0x03..0x77 (R6). -/
def Params.pwmCandidatesOk (p : Params) : Bool :=
  !p.pwmCandidates.isEmpty && p.pwmCandidates.all Addr.inScanRange

/-- DISP_CANDIDATES is a non-empty list of addresses in 0x03..0x77 (R6). -/
def Params.dispCandidatesOk (p : Params) : Bool :=
  !p.dispCandidates.isEmpty && p.dispCandidates.all Addr.inScanRange

/-- PWM_LED0 + 4*15 + 3 ≤ 0xFF (R6). -/
def Params.pwmLed0Ok (p : Params) : Bool := decide (p.pwmLed0.toNat + 4 * 15 + 3 ≤ 0xFF)

/-- PWM_ALL + 3 ≤ 0xFF (R6). -/
def Params.pwmAllOk (p : Params) : Bool := decide (p.pwmAll.toNat + 3 ≤ 0xFF)

/-- PWM_INIT_SEQ is not empty (R6). -/
def Params.pwmInitSeqOk (p : Params) : Bool := !p.pwmInitSeq.isEmpty

/-- KEY_ROWS is 1..16 and 2*KEY_ROWS ≤ MAX_BLOCK (R6). -/
def Params.keyRowsOk (p : Params) : Bool :=
  decide (1 ≤ p.keyRows) && decide (p.keyRows ≤ 16) && decide (2 * p.keyRows ≤ Config.maxBlock)

/-- KEY_COLS is 1..16 (R6). -/
def Params.keyColsOk (p : Params) : Bool := decide (1 ≤ p.keyCols) && decide (p.keyCols ≤ 16)

/-- DIGIT_REG(i) + 1 ≤ 0xFF for each digit. DEDUCED (safe, log entry 18): R6's column gives DIGIT_REG no bound but its 8 bits,
and R61 says that R6's constraints keep every unit transfer within register 0xFF. -/
def Params.digitRegOk (p : Params) : Bool := decide (∀ i : Fin 4, p.digitReg[i].toNat + 1 ≤ 0xFF)

/-- KEY_BASE + 2*KEY_ROWS - 1 ≤ 0xFF. DEDUCED (safe, log entry 18): R6's column gives KEY_BASE no bound but its 8 bits, and R61
says that R6's constraints keep every unit transfer within register 0xFF. -/
def Params.keyBaseOk (p : Params) : Bool := decide (p.keyBase.toNat + 2 * p.keyRows ≤ 0xFF + 1)

/-- Every constraint of R6's table, and the two bounds that R61 needs beside them (log entry 18). -/
def Params.wf (p : Params) : Bool :=
  p.nbusOk && p.pwmCandidatesOk && p.dispCandidatesOk && p.pwmLed0Ok && p.pwmAllOk && p.pwmInitSeqOk && p.keyRowsOk &&
    p.keyColsOk && p.digitRegOk && p.keyBaseOk

/-- A well-formed command. Each operand is typed as the very field of the command word that holds it (R80, R81), and a
field admits every value (R90: the command's own rule says what an out-of-range value does), so no term is ill-formed
and every constructor answers true. -/
def Instr.wf : Instr → Bool
  | .busOpen _ => true
  | .busClose _ => true
  | .setAddr _ _ => true
  | .writeByte _ _ _ => true
  | .readByte _ _ => true
  | .writeBlock _ _ _ => true
  | .readBlock _ _ _ => true
  | .scan _ _ _ => true
  | .mgrClose => true
  | .pwmDetect _ => true
  | .pwmInit => true
  | .pwmSet _ => true
  | .pwmSetAll => true
  | .fanSpeed => true
  | .ledColor => true
  | .dispDetect _ => true
  | .dispInit => true
  | .dispClear => true
  | .dispCharL _ _ => true
  | .dispCharR _ _ => true
  | .dispString _ => true
  | .readKey => true

end Sys2Proof
end

