-- ==== Sys2Proof/Decode.lean ====
section
/-! DEFINITION. The decoder and the encoder of command words, from the opcode map of 30_encoding R82. -/

namespace Sys2Proof

/-- OPC: bits 31:24 of a command word (R80). -/
def fieldOpc (w : Word) : Byte := w.extractLsb' 24 8

/-- A: bits 23:16 of a command word (R80). -/
def fieldA (w : Word) : Byte := w.extractLsb' 16 8

/-- B: bits 15:8 of a command word (R80). -/
def fieldB (w : Word) : Byte := w.extractLsb' 8 8

/-- C: bits 7:0 of a command word (R80). -/
def fieldC (w : Word) : Byte := w.extractLsb' 0 8

/-- The bits of a command word that are fixed under a format: the opcode and the reserved bits (R81, R82's column
`mask`). -/
def formatMask : Format → Word
  | .f0 => 0xFFFFFFFF#32
  | .fa => 0xFF00FFFF#32
  | .fa1 => 0xFFFEFFFF#32
  | .fab => 0xFF0000FF#32
  | .fabc => 0xFF000000#32

/-- R82's columns OPC and format, row by row: the format of an assigned opcode. -/
def opcodeFormat (opc : Byte) : Option Format :=
  match opc.toNat with
  | 0x01 => some .fa
  | 0x02 => some .fa
  | 0x03 => some .fab
  | 0x04 => some .fabc
  | 0x05 => some .fab
  | 0x06 => some .fabc
  | 0x07 => some .fabc
  | 0x08 => some .fabc
  | 0x09 => some .f0
  | 0x10 => some .fa
  | 0x11 => some .f0
  | 0x12 => some .fa
  | 0x13 => some .f0
  | 0x14 => some .f0
  | 0x15 => some .f0
  | 0x20 => some .fa
  | 0x21 => some .f0
  | 0x22 => some .f0
  | 0x23 => some .fab
  | 0x24 => some .fab
  | 0x25 => some .fa1
  | 0x26 => some .f0
  | _ => none

/-- R82's columns OPC, mnemonic and fields, row by row: the command an assigned opcode names, its fields filled in. -/
def opcodeInstr (opc a b c : Byte) : Option Instr :=
  match opc.toNat with
  | 0x01 => some (.busOpen a)
  | 0x02 => some (.busClose a)
  | 0x03 => some (.setAddr a b)
  | 0x04 => some (.writeByte a b c)
  | 0x05 => some (.readByte a b)
  | 0x06 => some (.writeBlock a b c)
  | 0x07 => some (.readBlock a b c)
  | 0x08 => some (.scan a b c)
  | 0x09 => some .mgrClose
  | 0x10 => some (.pwmDetect a)
  | 0x11 => some .pwmInit
  | 0x12 => some (.pwmSet a)
  | 0x13 => some .pwmSetAll
  | 0x14 => some .fanSpeed
  | 0x15 => some .ledColor
  | 0x20 => some (.dispDetect a)
  | 0x21 => some .dispInit
  | 0x22 => some .dispClear
  | 0x23 => some (.dispCharL a b)
  | 0x24 => some (.dispCharR a b)
  | 0x25 => some (.dispString (a.getLsbD 0))
  | 0x26 => some .readKey
  | _ => none

/-- The column `match` of a row: its opcode in bits 31:24, zeros below (R82). -/
def opcodeMatch (opc : Byte) : Word := opc ++ (0#24)

/-- A word is this row's command iff `(w & mask) = match` (R82, R86). -/
def rowMatches (opc : Byte) (f : Format) (w : Word) : Bool :=
  decide (w &&& formatMask f = opcodeMatch opc)

/-- Decoding, total on every 32-bit word (R85), in the order of R86: the opcode first, then the reserved bits. -/
def decode (w : Word) : Except DecodeError Instr :=
  match opcodeFormat (fieldOpc w), opcodeInstr (fieldOpc w) (fieldA w) (fieldB w) (fieldC w) with
  | some f, some i => if rowMatches (fieldOpc w) f w then .ok i else .error (.reservedField (fieldOpc w))
  | _, _ => .error (.unassignedOpcode (fieldOpc w))

/-- Four bytes laid into a command word: OPC, A, B, C from the top (R80). -/
def wordOf (opc a b c : Byte) : Word := opc ++ a ++ b ++ c

/-- DISP_STRING's A field: bit 0 is the alignment, the other bits are 0 (R81, format FA1). -/
def alignField (align : Bool) : Byte := if align then 1#8 else 0#8

/-- The word of a command, from R82's column `encoding`: every field in its place and every reserved bit 0. -/
def encode : Instr → Word
  | .busOpen bus => wordOf 0x01#8 bus 0#8 0#8
  | .busClose bus => wordOf 0x02#8 bus 0#8 0#8
  | .setAddr bus addr => wordOf 0x03#8 bus addr 0#8
  | .writeByte bus reg val => wordOf 0x04#8 bus reg val
  | .readByte bus reg => wordOf 0x05#8 bus reg 0#8
  | .writeBlock bus reg len => wordOf 0x06#8 bus reg len
  | .readBlock bus reg len => wordOf 0x07#8 bus reg len
  | .scan bus first last => wordOf 0x08#8 bus first last
  | .mgrClose => wordOf 0x09#8 0#8 0#8 0#8
  | .pwmDetect bus => wordOf 0x10#8 bus 0#8 0#8
  | .pwmInit => wordOf 0x11#8 0#8 0#8 0#8
  | .pwmSet ch => wordOf 0x12#8 ch 0#8 0#8
  | .pwmSetAll => wordOf 0x13#8 0#8 0#8 0#8
  | .fanSpeed => wordOf 0x14#8 0#8 0#8 0#8
  | .ledColor => wordOf 0x15#8 0#8 0#8 0#8
  | .dispDetect bus => wordOf 0x20#8 bus 0#8 0#8
  | .dispInit => wordOf 0x21#8 0#8 0#8 0#8
  | .dispClear => wordOf 0x22#8 0#8 0#8 0#8
  | .dispCharL idx chr => wordOf 0x23#8 idx chr 0#8
  | .dispCharR idx chr => wordOf 0x24#8 idx chr 0#8
  | .dispString align => wordOf 0x25#8 (alignField align) 0#8 0#8
  | .readKey => wordOf 0x26#8 0#8 0#8 0#8

/-- The opcode of a command's row (R82). -/
def instrOpcode (i : Instr) : Byte := fieldOpc (encode i)

/-- The command the decoder reads from the word `w`, numbered as the opcode table numbers it. Every row of the table is
one 32-bit word (R80), so `nbits` is 32 and nothing lies above it; the word reaches the block whole, as the value of one
host write, so there is no byte order to lay it out in (R53, R86). -/
def decodeTableWord (nbits w : Nat) : Option Instr :=
  if nbits ≤ 32 ∧ w < 2 ^ nbits then
    match decode (BitVec.ofNat 32 w) with
    | .ok i => some i
    | .error _ => none
  else none

end Sys2Proof
end

