-- ==== Sys2Proof/Machine/Defaults.lean ====
section
/-! DEFINITION. The default parameter values of 00_scope R6 and the default character map of 42_display_keypad R171. -/

namespace Sys2Proof.Machine

/-- R171's table: every character that has a bitmap of its own. A byte that is not listed maps to 0x0000. -/
def defaultCharmap : List (Byte × Bitmap) :=
  [(0x20#8, 0x0000#16), (0x2D#8, 0x00C0#16)] ++
  [(0x30#8, 0x0C3F#16), (0x31#8, 0x0006#16), (0x32#8, 0x00DB#16), (0x33#8, 0x00CF#16), (0x34#8, 0x00E6#16),
   (0x35#8, 0x00ED#16), (0x36#8, 0x00FD#16), (0x37#8, 0x0007#16), (0x38#8, 0x00FF#16), (0x39#8, 0x00EF#16)] ++
  [(0x41#8, 0x00F7#16), (0x42#8, 0x128F#16), (0x43#8, 0x0039#16), (0x44#8, 0x120F#16), (0x45#8, 0x00F9#16),
   (0x46#8, 0x00F1#16), (0x47#8, 0x00BD#16), (0x48#8, 0x00F6#16), (0x49#8, 0x1209#16), (0x4A#8, 0x001E#16),
   (0x4B#8, 0x2470#16), (0x4C#8, 0x0038#16), (0x4D#8, 0x0536#16)] ++
  [(0x4E#8, 0x2136#16), (0x4F#8, 0x003F#16), (0x50#8, 0x00F3#16), (0x51#8, 0x203F#16), (0x52#8, 0x20F3#16),
   (0x53#8, 0x00ED#16), (0x54#8, 0x1201#16), (0x55#8, 0x003E#16), (0x56#8, 0x0C30#16), (0x57#8, 0x2836#16),
   (0x58#8, 0x2D00#16), (0x59#8, 0x1500#16), (0x5A#8, 0x0C09#16)]

/-- R6's column `default`. The chip indices, command bytes and candidate addresses in it are the spec's own defaults from
general knowledge (93_implementation_defined I20, I22). -/
def defaultParams : Params where
  nbus := 2
  busPresent := Vector.replicate 16 true
  pwmCandidates := [0x40#7]
  pwmMode1 := 0x00#8
  pwmLed0 := 0x06#8
  pwmAll := 0xFA#8
  pwmInitSeq := [0x00#8, 0x20#8]
  fanChannel := 0
  ledR := 1
  ledG := 2
  ledB := 3
  dispCandidates := [0x70#7, 0x71#7, 0x72#7, 0x73#7, 0x74#7, 0x75#7, 0x76#7, 0x77#7]
  dispProbeReg := 0x00#8
  dispStandbyOff := 0x21#8
  dispStandbyOn := 0x20#8
  dispDisplayOn := 0x81#8
  dispDisplayOff := 0x80#8
  dispRowOutput := 0xA0#8
  digitReg := #v[0#8, 2#8, 4#8, 6#8]
  keyBase := 0x40#8
  keyRows := 3
  keyCols := 13
  charmap := defaultCharmap

end Sys2Proof.Machine
end

