-- ==== Sys2Proof/Machine/State.lean ====
section
/-! DEFINITION. The state of the block (10_state R20), as plain data, with what the model adds to it: the parameters, the
environment's coming answers, the host's coming accesses and the values its reads returned. -/

namespace Sys2Proof.Machine

/-- One bus port: `open[b]` (R23) and `sel[b]` (R24). -/
structure Port where
  /-- `open[b]`: whether the block holds the bus. -/
  opened : Bool
  /-- `sel[b]`: the currently selected target, none when no target has been selected. -/
  sel : Option Addr
deriving DecidableEq, Repr

/-- The two units that have a device record (R27). -/
inductive Chip where
  /-- The PWM unit. -/
  | pwm
  /-- The display and keypad unit. -/
  | disp
deriving DecidableEq, Repr

/-- A device record `rec[u]` (R27). -/
structure DevRec where
  /-- Detection succeeded. -/
  det : Bool
  /-- The initialized flag. -/
  init : Bool
  /-- The bus port the chip was found on. -/
  bus : BusIx
  /-- The resolved address. -/
  addr : Addr
deriving DecidableEq, Repr

/-- A transaction (R57). -/
inductive Tx where
  /-- `Write(a, bytes)`: the first byte is the register index or command byte. -/
  | write (a : Addr) (bytes : List Byte)
  /-- `WriteRead(a, reg, n)`: n bytes from register `reg` on. -/
  | writeRead (a : Addr) (reg : Byte) (n : Nat)
  /-- `Probe(a)`: the harmless read of a scan. -/
  | probe (a : Addr)
deriving DecidableEq, Repr

/-- The environment's response to a transaction (R57). -/
inductive Response where
  /-- `Ok(d)`; d is empty for Write and Probe. -/
  | ok (d : List Byte)
  /-- `Fail`: a missing acknowledge, a bus error or a timeout, not told apart. -/
  | fail
deriving DecidableEq, Repr

/-- An event of the trace (R38). -/
inductive Event where
  /-- `Acquire(b)`: a successful BUS_OPEN. -/
  | acquire (b : BusIx)
  /-- `Release(b)`: a close of a bus that was open. -/
  | release (b : BusIx)
  /-- `Tx(b, tx, resp)`: one transaction and its response. -/
  | tx (b : BusIx) (t : Tx) (r : Response)
deriving DecidableEq, Repr

/-- An error a command can end with (R220). -/
inductive Error where
  /-- "open/select failure" -/
  | busUnavailable
  /-- "detection exhausted all candidate addresses" -/
  | deviceNotFound
  /-- "operation attempted before successful `initialize`" -/
  | notInitialized
  /-- "channel/index out of declared range" -/
  | invalidParameter
  /-- "read/write failure on an otherwise valid session" -/
  | transportError
  /-- An unassigned opcode or a non-zero reserved field. -/
  | illegalCommand
deriving DecidableEq, Repr

/-- An answer laid down for a coming transaction: part of the model's input, not of the block (R232, log entry 2). -/
inductive Scripted where
  /-- The transaction is answered `Ok`, a reply's bytes taken from the list given. -/
  | ok (bytes : List Byte)
  /-- The transaction is answered `Fail`. -/
  | fail
  /-- Nothing is said of it: the reference environment answers if there is one, a free value if not. -/
  | pass
deriving DecidableEq, Repr

/-- A device of the reference environment (R236): where it is and those of its 256 registers that are not 0. -/
structure Device where
  /-- The bus it is on. -/
  bus : BusIx
  /-- Its target address. -/
  addr : Addr
  /-- Its registers, in the canonical form of `Memory.wf`. -/
  regs : List Host.Cell
deriving DecidableEq, Repr

/-- The environment as the block meets it: the answers still to come (R232). -/
structure Env where
  /-- The answers laid down for the coming transactions, the next one first. -/
  script : List Scripted
  /-- The devices of the reference environment (R236), when the answers are its answers. -/
  devs : Option (List Device)
  /-- The answers laid down for the coming questions `ExtHeld`, the next one first (R25). -/
  held : List Bool
  /-- How many questions have been answered: what the free values of Config are applied to. -/
  draws : Nat
deriving DecidableEq, Repr

/-- The width of a host access (R52). -/
inductive Width where
  /-- 1 byte. -/
  | w1
  /-- 2 bytes. -/
  | w2
  /-- 4 bytes, the only width that is not refused. -/
  | w4
  /-- 8 bytes. -/
  | w8
deriving DecidableEq, Repr

/-- What can come from outside the block between two commands (R235, R260). -/
inductive Input where
  /-- A host write of `value` at `offset`. -/
  | write (offset : Offset) (width : Width) (value : Word)
  /-- A host read at `offset`. -/
  | read (offset : Offset) (width : Width)
  /-- The platform's reset (R260). -/
  | reset
deriving DecidableEq, Repr

/-- A register of the host map (R51). -/
inductive HostReg where
  /-- CMD, 0x000. -/
  | cmd
  /-- ARG0, 0x004. -/
  | arg0
  /-- ARG1, 0x008. -/
  | arg1
  /-- ARG2, 0x00C. -/
  | arg2
  /-- STATUS, 0x010. -/
  | status
  /-- RESULT, 0x014. -/
  | result
  /-- DLEN, 0x018. -/
  | dlen
  /-- BUSOPEN, 0x01C. -/
  | busOpen
  /-- PWMREC, 0x020. -/
  | pwmRec
  /-- DISPREC, 0x024. -/
  | dispRec
  /-- DBUF01, 0x028. -/
  | dbuf01
  /-- DBUF23, 0x02C. -/
  | dbuf23
  /-- SEL[b], 0x040 + 4*b. -/
  | sel (b : BusIx)
  /-- DATA word k, 0x100 + 4*k. -/
  | data (k : BitVec 5)
deriving DecidableEq, Repr

/-- The state of the block, and the model's own fields `cfg`, `env`, `inputs` and `reads`. -/
structure State where
  /-- `open[b]` and `sel[b]`, for b in 0..15; the ports from NBUS up are never opened (R23, R24, log entry 10). -/
  ports : Vector Port 16
  /-- `rec[PWM]` (R27). -/
  recPwm : DevRec
  /-- `rec[DISP]` (R27). -/
  recDisp : DevRec
  /-- `dbuf[0..3]` (R29). -/
  dbuf : Vector Bitmap 4
  /-- CMD (R32). -/
  cmd : Word
  /-- ARG0 (R33). -/
  arg0 : Word
  /-- ARG1 (R33). -/
  arg1 : Word
  /-- ARG2 (R33). -/
  arg2 : Word
  /-- STATUS (R30). -/
  status : Word
  /-- RESULT (R31). -/
  result : Word
  /-- DLEN (R34). -/
  dlen : BitVec 8
  /-- DATA[0..127] (R35): the bytes that are not 0, by rising index (log entry 12). -/
  data : List Host.Cell
  /-- The event trace, oldest first (R38). -/
  trace : List Event
  /-- The parameters (R6); no step changes them (log entry 1). -/
  cfg : Params
  /-- The environment's coming answers (R232, log entry 2). -/
  env : Env
  /-- The host's coming accesses and the platform's resets, oldest first (R12, R235, log entry 3). -/
  inputs : List Input
  /-- The values host reads have returned, oldest first (R235, log entry 4). -/
  reads : List Word
deriving DecidableEq, Repr

/-- The machine stops with a fault: nothing in the spec does. Every failure of a command is an outcome code in STATUS after
which the block goes on (R220, R224), so this type has no constructor and no step answers a fault (log entry 9). -/
inductive Fault where
deriving DecidableEq, Repr

/-- The accesses and instructions the model gives no meaning to. -/
inductive Refusal where
  /-- Raised by an arm of `exec` for a command that has no meaning yet; safe. No arm does. -/
  | notModelled (mnemonic : String)
  /-- Raised by a step that takes a host access of 1, 2 or 8 bytes (R52, I11); safe. -/
  | accessWidth
  /-- Raised by a step that takes a host access whose offset is not a multiple of 4 (R52, I11); safe. -/
  | accessMisaligned
  /-- Raised by a step that takes a host access to a reserved offset (R51, R52, I11); safe. -/
  | accessReserved
deriving DecidableEq, Repr

/-- A port after reset: closed, nothing selected (R40). -/
def Port.closed : Port := { opened := false, sel := none }

/-- A cleared record (R28, R40). -/
def DevRec.cleared : DevRec := { det := false, init := false, bus := 0#4, addr := 0#7 }

/-- An environment of which nothing is known: every answer is a free value. -/
def Env.free : Env := { script := [], devs := none, held := [], draws := 0 }

/-- The machine right after reset (R40), with an empty trace, the default parameters, nothing known of the environment and
no host access yet. -/
def State.reset : State where
  ports := Vector.replicate 16 Port.closed
  recPwm := DevRec.cleared
  recDisp := DevRec.cleared
  dbuf := Vector.replicate 4 0x0000#16
  cmd := 0#32
  arg0 := 0#32
  arg1 := 0#32
  arg2 := 0#32
  status := 0#32
  result := 0#32
  dlen := 0#8
  data := []
  trace := []
  cfg := defaultParams
  env := Env.free
  inputs := []
  reads := []

end Sys2Proof.Machine
end

