-- ==== Sys2Proof/Machine/Memory.lean ====
section
/-! DEFINITION. Byte memory as (address, byte) pairs in one canonical form: the DATA buffer (10_state R35, 20_memory R54) and
the registers of a reference device (60_exceptions R236). An address that is not listed reads as 0x00, the reset value of
both (R40, R236). -/

namespace Sys2Proof.Machine

/-- What an unlisted address reads as (R40: DATA[i] is 0x00 after reset). -/
def memoryBlank : Byte := 0x00#8

/-- The byte at an address. -/
def Memory.read : List Host.Cell → Nat → Byte
  | [], _ => memoryBlank
  | c :: m, a => if c.1 = a then c.2 else Memory.read m a

/-- Write the byte at an address, keeping the list sorted and free of blank entries. -/
def Memory.write : List Host.Cell → Nat → Byte → List Host.Cell
  | [], a, v => if v = memoryBlank then [] else [(a, v)]
  | c :: m, a, v =>
    if a < c.1 then (if v = memoryBlank then c :: m else (a, v) :: c :: m)
    else if a = c.1 then (if v = memoryBlank then m else (a, v) :: m)
    else c :: Memory.write m a v

/-- `MemRead(addr, n)`: the n bytes from `addr` on (R9, R54). -/
def Memory.readBytes (m : List Host.Cell) (a n : Nat) : List Byte :=
  (List.range n).map (fun k => Memory.read m (a + k))

/-- `MemWrite(addr, n, v)`: write the byte list v from `addr` on (R9, R54). -/
def Memory.writeBytes : List Host.Cell → Nat → List Byte → List Host.Cell
  | m, _, [] => m
  | m, a, v :: vs => Memory.writeBytes (Memory.write m a v) (a + 1) vs

/-- The canonical form from address `lo` up to `size`: addresses strictly rising, no entry blank. -/
def Memory.wfFrom (size : Nat) : Nat → List Host.Cell → Bool
  | _, [] => true
  | lo, c :: m =>
    decide (lo ≤ c.1) && decide (c.1 < size) && decide (c.2 ≠ memoryBlank) && Memory.wfFrom size (c.1 + 1) m

/-- The canonical form of a memory of `size` bytes. -/
def Memory.wf (size : Nat) (m : List Host.Cell) : Bool := Memory.wfFrom size 0 m

end Sys2Proof.Machine
end

