-- ==== Sys2Proof/Machine/Environment.lean ====
section
/-! DEFINITION. The environment's answers (60_exceptions R232): a scripted answer where one is laid down, else the reference
environment's (R236) where its devices are given, else a free value. -/

namespace Sys2Proof.Machine

/-- How many bytes the reply to a transaction holds when it is `Ok` (R57). -/
def replyLength : Tx → Nat
  | .write _ _ => 0
  | .writeRead _ _ n => n
  | .probe _ => 0

/-- An `Ok` response of R57's shape for `t`: exactly as many bytes as the transaction asks for, the first ones from
`bytes`, the others free values of draw number `draw` (log entry 6). -/
def okReply (draw : Nat) (t : Tx) (bytes : List Byte) : Response :=
  .ok ((List.range (replyLength t)).map (fun k => bytes.getD k (Config.freeByte draw k)))

/-- The target address of a transaction (R57). -/
def txAddr : Tx → Addr
  | .write a _ => a
  | .writeRead a _ _ => a
  | .probe a => a

/-- Whether a reference device is the one at address `a` of bus `b`. -/
def isDeviceAt (b : BusIx) (a : Addr) (d : Device) : Bool := decide (d.bus = b) && decide (d.addr = a)

/-- The device register `(r + k) mod 256` (R236). -/
def deviceReg (r : Byte) (k : Nat) : Nat := (r.toNat + k) % 256

/-- Write data bytes to a device's registers from `(r + k) mod 256` on (R236). -/
def writeRegs (r : Byte) : Nat → List Host.Cell → List Byte → List Host.Cell
  | _, regs, [] => regs
  | k, regs, d :: data => writeRegs r (k + 1) (Memory.write regs (deviceReg r k) d) data

/-- A reference device's registers after a transaction to it: only a Write changes them, its first byte being the register
index (R236). -/
def regsAfter (t : Tx) (regs : List Host.Cell) : List Host.Cell :=
  match t with
  | .write _ (r :: data) => writeRegs r 0 regs data
  | .write _ [] => regs
  | .writeRead _ _ _ => regs
  | .probe _ => regs

/-- The bytes a reference device with these registers replies (R236). -/
def regsReply (t : Tx) (regs : List Host.Cell) : List Byte :=
  match t with
  | .writeRead _ r n => (List.range n).map (fun k => Memory.read regs (deviceReg r k))
  | .write _ _ => []
  | .probe _ => []

/-- The reference environment's answer: the reply of the device at the target address, `Fail` where there is none (R236). -/
def refResponse (ds : List Device) (b : BusIx) (t : Tx) : Response :=
  match ds.find? (isDeviceAt b (txAddr t)) with
  | some d => .ok (regsReply t d.regs)
  | none => .fail

/-- The reference devices after a transaction: the device at the target address has its registers written (R236). -/
def refDevices (b : BusIx) (t : Tx) : List Device → List Device
  | [] => []
  | d :: ds =>
    if isDeviceAt b (txAddr t) d then { d with regs := regsAfter t d.regs } :: ds else d :: refDevices b t ds

/-- The environment's response to a transaction on bus `b` (R58, R232). -/
def Env.response (e : Env) (b : BusIx) (t : Tx) : Response :=
  match e.script.head? with
  | some .fail => .fail
  | some (.ok bytes) => okReply e.draws t bytes
  | some .pass | none =>
    match e.devs with
    | some ds => refResponse ds b t
    | none => if Config.freeAck e.draws then okReply e.draws t [] else .fail

/-- The reference devices after a transaction on bus `b`: they take part in it only where no scripted answer stands in their
place (R236, log entry 17). -/
def Env.devsAfter (e : Env) (b : BusIx) (t : Tx) : Option (List Device) :=
  match e.script.head? with
  | some .fail => e.devs
  | some (.ok _) => e.devs
  | some .pass | none => e.devs.map (refDevices b t)

/-- The environment once it has answered a transaction: one question more is answered, one scripted answer is used up. -/
def Env.answered (e : Env) (b : BusIx) (t : Tx) : Env :=
  { script := e.script.tail, devs := e.devsAfter b t, held := e.held, draws := e.draws + 1 }

/-- The answer to `ExtHeld(b)`: what is laid down for it, else false in the reference environment (R236), else a free value
(R25, R232). -/
def Env.isHeld (e : Env) : Bool :=
  match e.held.head? with
  | some h => h
  | none => match e.devs with
    | some _ => false
    | none => Config.freeHeld e.draws

/-- The environment once it has answered `ExtHeld`. -/
def Env.heldAnswered (e : Env) : Env :=
  { script := e.script, devs := e.devs, held := e.held.tail, draws := e.draws + 1 }

end Sys2Proof.Machine
end

