-- ==== Sys2Proof/Machine/Flags.lean ====
section
/-! DEFINITION. The outcome code of a command (60_exceptions R220) and the STATUS word that holds it (10_state R30). The block
has no other flag. -/

namespace Sys2Proof.Machine

/-- The number of an error (R220). -/
def errorCode : Error → BitVec 4
  | .busUnavailable => 1#4
  | .deviceNotFound => 2#4
  | .notInitialized => 3#4
  | .invalidParameter => 4#4
  | .transportError => 5#4
  | .illegalCommand => 6#4

/-- The code of success (R220). -/
def okCode : BitVec 4 := 0#4

/-- STATUS with an outcome code in ERR, bits 3:0; bits 31:4 read 0 (R30). -/
def statusWord (code : BitVec 4) : Word := 0#28 ++ code

/-- `STATUS.ERR`: bits 3:0 of STATUS (R30). -/
def statusErr (w : Word) : BitVec 4 := w.extractLsb' 0 4

end Sys2Proof.Machine
end

