-- ==== Sys2Proof/Machine/Operands.lean ====
section
/-! DEFINITION. The operand forms: clamped ticks and levels (41_pwm R142, R143), the byte pairs and messages the units send
(R141, R147, R148; 42_display_keypad R172), the character map and the string layout (R171, R178), the key decode (R181) and
the scan's addresses (40_transport R109). -/

namespace Sys2Proof.Machine

/-- `clamp(v, lo, hi) = min(max(v, lo), hi)` (R8). -/
def clamp (v lo hi : Int) : Int := min (max v lo) hi

/-- `ticks(x) = clamp(sext_32(x), 0, 4095)` (R142). -/
def ticks (x : Word) : Ticks := BitVec.ofNat 12 (clamp x.toInt 0 4095).toNat

/-- `level(x)`: the percentage `L = clamp(sext_32(x), 0, 100)` as `(4095 * L + 50) div 100` ticks (R143). -/
def level (x : Word) : Ticks := BitVec.ofNat 12 ((4095 * (clamp x.toInt 0 100).toNat + 50) / 100)

/-- The low byte of a tick count, `v[7:0]` (R141). -/
def ticksLow (v : Ticks) : Byte := v.extractLsb' 0 8

/-- The high byte of a tick count, `zext_8(v[11:8])`, whose bits 7:4 are 0 (R141). -/
def ticksHigh (v : Ticks) : Byte := (v.extractLsb' 8 4).setWidth 8

/-- `enc12(v)`: low byte first (R141). -/
def enc12 (v : Ticks) : List Byte := [ticksLow v, ticksHigh v]

/-- The register ON_L of channel `ch`: `PWM_LED0 + 4*ch` (R140). -/
def chanReg (cfg : Params) (ch : Nat) : Byte := cfg.pwmLed0 + BitVec.ofNat 8 (4 * ch)

/-- The four single-byte writes of `chanWrite(ch, on, off)`: ON_L, ON_H, OFF_L, OFF_H (R147). -/
def chanMsgs (cfg : Params) (ch : Nat) (on off : Ticks) : List (List Byte) :=
  [[chanReg cfg ch, ticksLow on], [chanReg cfg ch + 1#8, ticksHigh on],
   [chanReg cfg ch + 2#8, ticksLow off], [chanReg cfg ch + 3#8, ticksHigh off]]

/-- The one burst of `allWrite(on, off)`: `[PWM_ALL] ++ enc12(on) ++ enc12(off)` (R148). -/
def allMsgs (cfg : Params) (on off : Ticks) : List (List Byte) :=
  [[cfg.pwmAll] ++ enc12 on ++ enc12 off]

/-- The MODE1 sequence of PWM_INIT: one `[PWM_MODE1, v]` per value (R146). -/
def pwmInitMsgs (cfg : Params) : List (List Byte) := cfg.pwmInitSeq.map (fun v => [cfg.pwmMode1, v])

/-- The start-up sequence of DISP_INIT: two one-byte writes (R174). -/
def dispInitMsgs (cfg : Params) : List (List Byte) := [[cfg.dispStandbyOff], [cfg.dispDisplayOn]]

/-- The low byte of a bitmap, `m[7:0]` (R172). -/
def bitmapLow (m : Bitmap) : Byte := m.extractLsb' 0 8

/-- The high byte of a bitmap, `m[15:8]` (R172). -/
def bitmapHigh (m : Bitmap) : Byte := m.extractLsb' 8 8

/-- The write of `writeDigit(i)`: the slot's register, then its bitmap low byte first (R172). -/
def digitMsg (cfg : Params) (dbuf : Vector Bitmap 4) (i : Fin 4) : List Byte :=
  [cfg.digitReg[i], bitmapLow dbuf[i], bitmapHigh dbuf[i]]

/-- `writeDigit(i)` for i in 0..3 (R175, R179). -/
def digitMsgs (cfg : Params) (dbuf : Vector Bitmap 4) : List (List Byte) :=
  [digitMsg cfg dbuf 0, digitMsg cfg dbuf 1, digitMsg cfg dbuf 2, digitMsg cfg dbuf 3]

/-- The bitmap a table of characters gives a byte; a byte that is not listed is blank (R171). -/
def bitmapIn : List (Byte × Bitmap) → Byte → Bitmap
  | [], _ => 0x0000#16
  | e :: table, c => if e.1 = c then e.2 else bitmapIn table c

/-- `CHARMAP(c)` (R6, R171). -/
def charBitmap (cfg : Params) (c : Byte) : Bitmap := bitmapIn cfg.charmap c

/-- A blank display buffer (R175, R210). -/
def blankDigits : Vector Bitmap 4 := Vector.replicate 4 0x0000#16

/-- `layout(t, right)` as a list of four bitmaps (R178). -/
def layoutList (cfg : Params) (t : List Byte) (right : Bool) : List Bitmap :=
  let m := t.map (charBitmap cfg)
  if 4 ≤ t.length then
    if right then m.drop (t.length - 4) else m.take 4
  else
    if right then List.replicate (4 - t.length) 0x0000#16 ++ m else m ++ List.replicate (4 - t.length) 0x0000#16

/-- `layout(t, right)` as the four slots of the display buffer (R178). -/
def layout (cfg : Params) (t : List Byte) (right : Bool) : Vector Bitmap 4 :=
  let m := layoutList cfg t right
  #v[m.getD 0 0#16, m.getD 1 0#16, m.getD 2 0#16, m.getD 3 0#16]

/-- Row r of the keypad, `{d[2r+1], d[2r]}`: low byte first (R180). -/
def keyRow (d : List Byte) (r : Nat) : BitVec 16 := d.getD (2 * r + 1) 0#8 ++ d.getD (2 * r) 0#8

/-- The keys (r, c) in the order `decodeKey` looks at them: row by row, then column by column (R181). -/
def keyOrder (cfg : Params) : List (Nat × Nat) :=
  (List.range cfg.keyRows).flatMap (fun r => (List.range cfg.keyCols).map (fun c => (r, c)))

/-- `decodeKey(d)`: the identifier `1 + r*KEY_COLS + c` of the first pressed key, 0 when none is (R181). -/
def decodeKey (cfg : Params) (d : List Byte) : Nat :=
  match (keyOrder cfg).find? (fun k => (keyRow d k.1).getLsbD k.2) with
  | some k => 1 + k.1 * cfg.keyCols + k.2
  | none => 0

/-- The addresses SCAN probes: `max(first, 0x03)` to `min(last, 0x77)` ascending, none when the range is empty (R109). -/
def scanAddrs (first last : Byte) : List Addr :=
  let lo := max first.toNat Config.scanLo
  let hi := min last.toNat Config.scanHi
  (List.range' lo (hi + 1 - lo)).map (BitVec.ofNat 7)

end Sys2Proof.Machine
end

