-- ==== Sys2Proof/Machine/Ops.lean ====
section
/-! DEFINITION. The shared operations over the state: ports, records, `finish` and `raise` (00_scope R9, 60_exceptions R221),
`I2C` (20_memory R58), the helpers of 40_transport R101 and the loops several commands share. -/

namespace Sys2Proof.Machine

/-- `open[b]` and `sel[b]` (R23, R24). -/
def State.port (s : State) (p : BusIx) : Port := s.ports[p.toFin]

/-- Write a port. -/
def State.setPort (s : State) (p : BusIx) (v : Port) : State :=
  { s with ports := s.ports.set p.toNat v p.isLt }

/-- `sel[b] <- a` (R24). -/
def State.setSel (s : State) (p : BusIx) (a : Option Addr) : State :=
  s.setPort p { opened := (s.port p).opened, sel := a }

/-- `rec[u]` (R27). -/
def State.unitRec (s : State) : Chip → DevRec
  | .pwm => s.recPwm
  | .disp => s.recDisp

/-- Write `rec[u]`. -/
def State.setRec (s : State) (u : Chip) (r : DevRec) : State :=
  match u with
  | .pwm => { s with recPwm := r }
  | .disp => { s with recDisp := r }

/-- `emit(ev)`: append an event to the trace (R9). -/
def emit (ev : Event) (s : State) : State := { s with trace := s.trace ++ [ev] }

/-- `finish(r)`: `STATUS.ERR <- 0`, `RESULT <- r`, and the command ends (R9). -/
def finish (r : Word) (s : State) : State := { s with status := statusWord okCode, result := r }

/-- `raise E`, the one way a command ends in an error: `STATUS.ERR <- code(E)`, `RESULT <- 0`, and every earlier change of the
command stays (R221). There is no trap and no return from one (R224, R225). -/
def raise (e : Error) (s : State) : State := { s with status := statusWord (errorCode e), result := 0#32 }

/-- The response `I2C(b, tx)` brings (R58). -/
def i2cResponse (p : BusIx) (t : Tx) (s : State) : Response := s.env.response p t

/-- The state after `I2C(b, tx)`: the environment has answered and the transaction is in the trace (R58). -/
def i2cState (p : BusIx) (t : Tx) (s : State) : State :=
  { s with env := s.env.answered p t, trace := s.trace ++ [.tx p t (s.env.response p t)] }

/-- `validBus(b)` as the port it names: `b < NBUS` (R101). -/
def validPort (s : State) (b : Byte) : Option BusIx :=
  if b.toNat < s.cfg.nbus.val then some (b.setWidth 4) else none

/-- `validBus(b) and open[b]` as the port it names (R101). -/
def openPort (s : State) (b : Byte) : Option BusIx :=
  match validPort s b with
  | some p => if (s.port p).opened then some p else none
  | none => none

/-- `ready(b)` as the port and the selected target: the bus is valid and open and has a target (R101). -/
def readyTarget (s : State) (b : Byte) : Option (BusIx × Addr) :=
  match openPort s b with
  | some p => match (s.port p).sel with
    | some a => some (p, a)
    | none => none
  | none => none

/-- `select(u)`: `sel[rec[u].bus] <- rec[u].addr`, no transaction and no event (R101). -/
def select (u : Chip) (s : State) : State := s.setSel (s.unitRec u).bus (some (s.unitRec u).addr)

/-- `clearRec(u)`: all four fields zero (R28, R101). -/
def clearRec (u : Chip) (s : State) : State := s.setRec u DevRec.cleared

/-- Clear `rec[u]` where it is bound to bus b (R101, the loop in `closeBus`). -/
def dropRecOn (p : BusIx) (u : Chip) (s : State) : State :=
  if (s.unitRec u).det && decide ((s.unitRec u).bus = p) then clearRec u s else s

/-- `closeBus(b)`: for an open bus, close it, append Release and clear the records bound to it; else nothing (R101). -/
def closeBus (p : BusIx) (s : State) : State :=
  if (s.port p).opened then
    dropRecOn p .disp (dropRecOn p .pwm (emit (.release p) (s.setPort p Port.closed)))
  else s

/-- `closeBus(b)` for b from 0 to n-1 (R210). -/
def closeBuses : Nat → State → State
  | 0, s => s
  | n + 1, s => closeBus (BitVec.ofNat 4 n) (closeBuses n s)

/-- Send `Write(a, m)` for each message in order and stop at the first `Fail`: whether all went well, and the state
(R146, R147, R174, R175). -/
def sendWrites (p : BusIx) (a : Addr) : List (List Byte) → State → Bool × State
  | [], s => (true, s)
  | m :: msgs, s =>
    match i2cResponse p (.write a m) s with
    | .ok _ => sendWrites p a msgs (i2cState p (.write a m) s)
    | .fail => (false, i2cState p (.write a m) s)

/-- The end of a command whose last act was `sendWrites`: finish, or raise TransportError (R105, R147, R172). -/
def endWrites (r : Word) (w : Bool × State) : State :=
  if w.1 then finish r w.2 else raise .transportError w.2

/-- Select the unit's device, send it messages, and end the command with result r (R101, R147, R148, R175). -/
def unitWrites (u : Chip) (msgs : List (List Byte)) (r : Word) (s : State) : State :=
  endWrites r (sendWrites (s.unitRec u).bus (s.unitRec u).addr msgs (select u s))

/-- INIT of a unit: no chip, no initialisation; else drop `init`, send the sequence, and set `init` only when every write of
it went well (R146, R174). -/
def initUnit (u : Chip) (msgs : List (List Byte)) (s : State) : State :=
  if (s.unitRec u).det then
    let w := sendWrites (s.unitRec u).bus (s.unitRec u).addr msgs (select u (s.setRec u { s.unitRec u with init := false }))
    if w.1 then finish 0#32 (w.2.setRec u { w.2.unitRec u with init := true }) else raise .transportError w.2
  else raise .deviceNotFound s

/-- Try the candidate addresses in order on bus p: select each and read one byte of `reg`, up to the first that answers
(R145, R173). -/
def tryCandidates (p : BusIx) (reg : Byte) : List Addr → State → Option Addr × State
  | [], s => (none, s)
  | a :: as, s =>
    match i2cResponse p (.writeRead a reg 1) (s.setSel p (some a)) with
    | .ok _ => (some a, i2cState p (.writeRead a reg 1) (s.setSel p (some a)))
    | .fail => tryCandidates p reg as (i2cState p (.writeRead a reg 1) (s.setSel p (some a)))

/-- DETECT of a unit: clear its record, then look for a candidate that answers (R145, R173). -/
def detectUnit (u : Chip) (cands : List Addr) (reg : Byte) (b : Byte) (s : State) : State :=
  match openPort (clearRec u s) b with
  | none => raise .busUnavailable (clearRec u s)
  | some p =>
    let t := tryCandidates p reg cands (clearRec u s)
    match t.1 with
    | some a => finish (a.setWidth 32) (t.2.setRec u { det := true, init := false, bus := p, addr := a })
    | none => raise .deviceNotFound t.2

/-- Probe the addresses in order on bus p and store each one that acknowledges at DATA[k], k counting up: the final k and the
state (R109). -/
def probeAll (p : BusIx) : List Addr → Nat → State → Nat × State
  | [], k, s => (k, s)
  | a :: as, k, s =>
    match i2cResponse p (.probe a) s with
    | .ok _ =>
      probeAll p as (k + 1)
        { i2cState p (.probe a) s with data := Memory.write s.data k (a.setWidth 8) }
    | .fail => probeAll p as k (i2cState p (.probe a) s)

/-- The platform's reset (R40, R260, R261): every piece of block state takes its reset value; the trace, the parameters, the
environment, the host's coming accesses and what its reads returned stay (log entry 16). -/
def platformReset (s : State) : State :=
  { State.reset with trace := s.trace, cfg := s.cfg, env := s.env, inputs := s.inputs, reads := s.reads }

end Sys2Proof.Machine
end

