-- ==== Sys2Proof/Machine/Display.lean ====
section
/-! DEFINITION. The display and keypad unit's commands (42_display_keypad R173 to R182). -/

namespace Sys2Proof.Machine

/-- DISP_DETECT (R173). -/
def execDispDetect (bus : Byte) (s : State) : Host.Outcome State Fault Refusal :=
  .next (detectUnit .disp s.cfg.dispCandidates s.cfg.dispProbeReg bus s)

/-- DISP_INIT (R174). -/
def execDispInit (s : State) : Host.Outcome State Fault Refusal :=
  .next (initUnit .disp (dispInitMsgs s.cfg) s)

/-- The buffer takes its new contents before any digit is sent, and keeps them when a digit fails (R175 to R179, D29). -/
def showDigits (dbuf : Vector Bitmap 4) (msgs : List (List Byte)) (r : Word) (s : State) : State :=
  unitWrites .disp msgs r { s with dbuf := dbuf }

/-- DISP_CLEAR (R175). -/
def execDispClear (s : State) : Host.Outcome State Fault Refusal :=
  .next (
    if !s.recDisp.init then raise .notInitialized s
    else showDigits blankDigits (digitMsgs s.cfg blankDigits) 0#32 s)

/-- One character at a slot: the buffer, the digit, and the bitmap as the result (R176, R177). -/
def showChar (slot : Fin 4) (chr : Byte) (s : State) : State :=
  let m := charBitmap s.cfg chr
  let dbuf := s.dbuf.set slot m
  showDigits dbuf [digitMsg s.cfg dbuf slot] (m.setWidth 32) s

/-- The slot an index names, counted from the left end (R176); none when the index is above 3. -/
def leftSlot (idx : Byte) : Option (Fin 4) := if h : idx.toNat < 4 then some ⟨idx.toNat, h⟩ else none

/-- The slot an index names, counted from the right end: `3 - idx` (R177); none when the index is above 3. -/
def rightSlot (idx : Byte) : Option (Fin 4) := if idx.toNat < 4 then some ⟨3 - idx.toNat, by omega⟩ else none

/-- DISP_CHAR_L (R176). -/
def execDispCharL (idx chr : Byte) (s : State) : Host.Outcome State Fault Refusal :=
  .next (
    match leftSlot idx with
    | none => raise .invalidParameter s
    | some slot => if !s.recDisp.init then raise .notInitialized s else showChar slot chr s)

/-- DISP_CHAR_R (R177). -/
def execDispCharR (idx chr : Byte) (s : State) : Host.Outcome State Fault Refusal :=
  .next (
    match rightSlot idx with
    | none => raise .invalidParameter s
    | some slot => if !s.recDisp.init then raise .notInitialized s else showChar slot chr s)

/-- DISP_STRING (R179). -/
def execDispString (align : Bool) (s : State) : Host.Outcome State Fault Refusal :=
  .next (
    if Config.dataSize < s.dlen.toNat then raise .invalidParameter s
    else if !s.recDisp.init then raise .notInitialized s
    else
      let dbuf := layout s.cfg (Memory.readBytes s.data 0 s.dlen.toNat) align
      showDigits dbuf (digitMsgs s.cfg dbuf) 0#32 s)

/-- READ_KEY (R182). -/
def execReadKey (s : State) : Host.Outcome State Fault Refusal :=
  .next (
    if !s.recDisp.init then raise .notInitialized s
    else
      let t := Tx.writeRead s.recDisp.addr s.cfg.keyBase (2 * s.cfg.keyRows)
      let s1 := select .disp s
      match i2cResponse s.recDisp.bus t s1 with
      | .ok d => finish (BitVec.ofNat 32 (decodeKey s.cfg d)) (i2cState s.recDisp.bus t s1)
      | .fail => raise .transportError (i2cState s.recDisp.bus t s1))

end Sys2Proof.Machine
end

