-- ==== Sys2Proof/Machine/Manager.lean ====
section
/-! DEFINITION. The manager's close (43_manager R210) and the one behaviour of every illegal word (30_encoding R86). -/

namespace Sys2Proof.Machine

/-- MGR_CLOSE (R210). -/
def execMgrClose (s : State) : Host.Outcome State Fault Refusal :=
  .next (
    finish 0#32
      { clearRec .disp (clearRec .pwm (closeBuses s.cfg.nbus.val s)) with dbuf := blankDigits })

/-- An illegal word executes as IllegalCommand and changes nothing else (R83, R84, R86). -/
def illegalWord (s : State) : Host.Outcome State Fault Refusal := .next (raise .illegalCommand s)

end Sys2Proof.Machine
end

