-- ==== Sys2Proof/Machine/Pwm.lean ====
section
/-! DEFINITION. The PWM unit's commands (41_pwm R145 to R150). -/

namespace Sys2Proof.Machine

/-- PWM_DETECT (R145). -/
def execPwmDetect (bus : Byte) (s : State) : Host.Outcome State Fault Refusal :=
  .next (detectUnit .pwm s.cfg.pwmCandidates s.cfg.pwmMode1 bus s)

/-- PWM_INIT (R146). -/
def execPwmInit (s : State) : Host.Outcome State Fault Refusal :=
  .next (initUnit .pwm (pwmInitMsgs s.cfg) s)

/-- The messages of PWM_SET: channels 0 to 15 are written register by register, 16 is the alias of all channels (R147). -/
def pwmSetMsgs (cfg : Params) (ch : Byte) (on off : Ticks) : List (List Byte) :=
  if ch.toNat = Config.nChan then allMsgs cfg on off else chanMsgs cfg ch.toNat on off

/-- PWM_SET (R147). -/
def execPwmSet (ch : Byte) (s : State) : Host.Outcome State Fault Refusal :=
  .next (
    if Config.nChan < ch.toNat then raise .invalidParameter s
    else if !s.recPwm.init then raise .notInitialized s
    else unitWrites .pwm (pwmSetMsgs s.cfg ch (ticks s.arg0) (ticks s.arg1)) 0#32 s)

/-- PWM_SET_ALL (R148). -/
def execPwmSetAll (s : State) : Host.Outcome State Fault Refusal :=
  .next (
    if !s.recPwm.init then raise .notInitialized s
    else unitWrites .pwm (allMsgs s.cfg (ticks s.arg0) (ticks s.arg1)) 0#32 s)

/-- FAN_SPEED (R149): `on` is 0, and RESULT is the off tick count. -/
def execFanSpeed (s : State) : Host.Outcome State Fault Refusal :=
  .next (
    if !s.recPwm.init then raise .notInitialized s
    else unitWrites .pwm (chanMsgs s.cfg s.cfg.fanChannel.val 0#12 (level s.arg0)) ((level s.arg0).setWidth 32) s)

/-- The twelve writes of LED_COLOR: the red, the green and the blue channel (R150). -/
def ledMsgs (cfg : Params) (r g b : Ticks) : List (List Byte) :=
  chanMsgs cfg cfg.ledR.val 0#12 r ++ chanMsgs cfg cfg.ledG.val 0#12 g ++ chanMsgs cfg cfg.ledB.val 0#12 b

/-- LED_COLOR (R150). -/
def execLedColor (s : State) : Host.Outcome State Fault Refusal :=
  .next (
    if !s.recPwm.init then raise .notInitialized s
    else unitWrites .pwm (ledMsgs s.cfg (level s.arg0) (level s.arg1) (level s.arg2)) 0#32 s)

end Sys2Proof.Machine
end

