-- ==== Sys2Proof/Machine/Transport.lean ====
section
/-! DEFINITION. The I2C master's commands (40_transport R102 to R109). -/

namespace Sys2Proof.Machine

/-- BUS_OPEN (R102). The environment is asked `ExtHeld(b)` only for a present bus that is not open. -/
def execBusOpen (bus : Byte) (s : State) : Host.Outcome State Fault Refusal :=
  .next (
    match validPort s bus with
    | none => raise .busUnavailable s
    | some p =>
      if !s.cfg.busPresent[p.toFin] then raise .busUnavailable s
      else if (s.port p).opened then raise .busUnavailable s
      else
        let s1 := { s with env := s.env.heldAnswered }
        if s.env.isHeld then raise .busUnavailable s1
        else finish 0#32 (emit (.acquire p) (s1.setPort p { opened := true, sel := none })))

/-- BUS_CLOSE (R103). -/
def execBusClose (bus : Byte) (s : State) : Host.Outcome State Fault Refusal :=
  .next (
    match validPort s bus with
    | none => finish 0#32 s
    | some p => finish 0#32 (closeBus p s))

/-- SET_ADDR (R104). -/
def execSetAddr (bus addr : Byte) (s : State) : Host.Outcome State Fault Refusal :=
  .next (
    match openPort s bus with
    | none => raise .busUnavailable s
    | some p =>
      if addr.toNat < Config.scanLo ∨ Config.scanHi < addr.toNat then raise .busUnavailable s
      else finish 0#32 (s.setSel p (some (addr.setWidth 7))))

/-- WRITE_BYTE (R105). -/
def execWriteByte (bus reg val : Byte) (s : State) : Host.Outcome State Fault Refusal :=
  .next (
    match readyTarget s bus with
    | none => raise .busUnavailable s
    | some t => endWrites 0#32 (sendWrites t.1 t.2 [[reg, val]] s))

/-- READ_BYTE (R106). -/
def execReadByte (bus reg : Byte) (s : State) : Host.Outcome State Fault Refusal :=
  .next (
    match readyTarget s bus with
    | none => raise .busUnavailable s
    | some t =>
      match i2cResponse t.1 (.writeRead t.2 reg 1) s with
      | .ok d => finish ((d.getD 0 0#8).setWidth 32) (i2cState t.1 (.writeRead t.2 reg 1) s)
      | .fail => raise .transportError (i2cState t.1 (.writeRead t.2 reg 1) s))

/-- WRITE_BLOCK (R107). -/
def execWriteBlock (bus reg len : Byte) (s : State) : Host.Outcome State Fault Refusal :=
  .next (
    if Config.maxBlock < len.toNat then raise .invalidParameter s
    else
      match readyTarget s bus with
      | none => raise .busUnavailable s
      | some t => endWrites 0#32 (sendWrites t.1 t.2 [[reg] ++ Memory.readBytes s.data 0 len.toNat] s))

/-- READ_BLOCK (R108). -/
def execReadBlock (bus reg len : Byte) (s : State) : Host.Outcome State Fault Refusal :=
  .next (
    if len.toNat = 0 ∨ Config.maxBlock < len.toNat then raise .invalidParameter s
    else
      match readyTarget s bus with
      | none => raise .busUnavailable s
      | some t =>
        let s1 := i2cState t.1 (.writeRead t.2 reg len.toNat) s
        match i2cResponse t.1 (.writeRead t.2 reg len.toNat) s with
        | .ok d => finish (len.setWidth 32) { s1 with data := Memory.writeBytes s1.data 0 d, dlen := len }
        | .fail => raise .transportError s1)

/-- SCAN (R109). -/
def execScan (bus first last : Byte) (s : State) : Host.Outcome State Fault Refusal :=
  .next (
    match openPort s bus with
    | none => raise .busUnavailable s
    | some p =>
      let r := probeAll p (scanAddrs first last) 0 s
      finish (BitVec.ofNat 32 r.1) { r.2 with dlen := BitVec.ofNat 8 r.1 })

end Sys2Proof.Machine
end

