-- ==== Sys2Proof/Machine/Dispatch.lean ====
section
/-! DEFINITION. The dispatch: one arm per command, each one call of its meaning (30_encoding R86, "perform row.rule"). -/

namespace Sys2Proof.Machine

def exec (i : Instr) (s : State) : Host.Outcome State Fault Refusal :=
  match i with
  | .busOpen bus => Sys2Proof.Machine.execBusOpen bus s
  | .busClose bus => Sys2Proof.Machine.execBusClose bus s
  | .setAddr bus addr => Sys2Proof.Machine.execSetAddr bus addr s
  | .writeByte bus reg val => Sys2Proof.Machine.execWriteByte bus reg val s
  | .readByte bus reg => Sys2Proof.Machine.execReadByte bus reg s
  | .writeBlock bus reg len => Sys2Proof.Machine.execWriteBlock bus reg len s
  | .readBlock bus reg len => Sys2Proof.Machine.execReadBlock bus reg len s
  | .scan bus first last => Sys2Proof.Machine.execScan bus first last s
  | .mgrClose => Sys2Proof.Machine.execMgrClose s
  | .pwmDetect bus => Sys2Proof.Machine.execPwmDetect bus s
  | .pwmInit => Sys2Proof.Machine.execPwmInit s
  | .pwmSet ch => Sys2Proof.Machine.execPwmSet ch s
  | .pwmSetAll => Sys2Proof.Machine.execPwmSetAll s
  | .fanSpeed => Sys2Proof.Machine.execFanSpeed s
  | .ledColor => Sys2Proof.Machine.execLedColor s
  | .dispDetect bus => Sys2Proof.Machine.execDispDetect bus s
  | .dispInit => Sys2Proof.Machine.execDispInit s
  | .dispClear => Sys2Proof.Machine.execDispClear s
  | .dispCharL idx chr => Sys2Proof.Machine.execDispCharL idx chr s
  | .dispCharR idx chr => Sys2Proof.Machine.execDispCharR idx chr s
  | .dispString align => Sys2Proof.Machine.execDispString align s
  | .readKey => Sys2Proof.Machine.execReadKey s

end Sys2Proof.Machine
end

