-- ==== Sys2Proof/Machine/HostPort.lean ====
section
/-! DEFINITION. The host register space: the map (20_memory R51), which accesses are refused (R52), what a register reads as
(10_state R30 to R36, R54) and what a write other than to CMD does (R55). -/

namespace Sys2Proof.Machine

/-- The register at word index `i`, the offset divided by 4 (R51); none for a reserved offset. -/
def regAtIndex (i : Nat) : Option HostReg :=
  if i = 0 then some .cmd
  else if i = 1 then some .arg0
  else if i = 2 then some .arg1
  else if i = 3 then some .arg2
  else if i = 4 then some .status
  else if i = 5 then some .result
  else if i = 6 then some .dlen
  else if i = 7 then some .busOpen
  else if i = 8 then some .pwmRec
  else if i = 9 then some .dispRec
  else if i = 10 then some .dbuf01
  else if i = 11 then some .dbuf23
  else if 16 ≤ i ∧ i < 32 then some (.sel (BitVec.ofNat 4 (i - 16)))
  else if 64 ≤ i ∧ i < 96 then some (.data (BitVec.ofNat 5 (i - 64)))
  else none

/-- The byte offset of a register (R51). -/
def regOffset : HostReg → Offset
  | .cmd => 0x000#12
  | .arg0 => 0x004#12
  | .arg1 => 0x008#12
  | .arg2 => 0x00C#12
  | .status => 0x010#12
  | .result => 0x014#12
  | .dlen => 0x018#12
  | .busOpen => 0x01C#12
  | .pwmRec => 0x020#12
  | .dispRec => 0x024#12
  | .dbuf01 => 0x028#12
  | .dbuf23 => 0x02C#12
  | .sel b => BitVec.ofNat 12 (0x040 + 4 * b.toNat)
  | .data k => BitVec.ofNat 12 (0x100 + 4 * k.toNat)

/-- The register a host access reaches, or why the access is refused: its width, its alignment, a reserved offset (R51,
R52; log entry 13 on the order of the three). -/
def hostAccess (offset : Offset) (width : Width) : Except Refusal HostReg :=
  if width ≠ .w4 then .error .accessWidth
  else if offset.toNat % 4 ≠ 0 then .error .accessMisaligned
  else match regAtIndex (offset.toNat / 4) with
    | some r => .ok r
    | none => .error .accessReserved

/-- BUSOPEN: bit b is `open[b]` for b < NBUS, every other bit 0 (R36). -/
def busOpenView (s : State) : Word :=
  (BitVec.ofFnLE (n := 16) (fun b => decide (b.val < s.cfg.nbus.val) && (s.ports[b]).opened)).setWidth 32

/-- SEL[b]: the address in bits 6:0 and bit 7 set where a target is selected; 0 as a whole for b from NBUS up (R36). -/
def selView (s : State) (b : BusIx) : Word :=
  if b.toNat < s.cfg.nbus.val then
    match (s.port b).sel with
    | some a => 0#24 ++ (1#1 ++ a)
    | none => 0#32
  else 0#32

/-- PWMREC and DISPREC: det, init, two zero bits, bus, addr, zeros, from bit 0 up (R36). -/
def recView (r : DevRec) : Word :=
  0#17 ++ (r.addr ++ (r.bus ++ (0#2 ++ (BitVec.ofBool r.init ++ BitVec.ofBool r.det))))

/-- DBUF01 and DBUF23: the lower slot in the low half (R36). -/
def dbufView (low high : Bitmap) : Word := high ++ low

/-- DATA word k: `{DATA[4k+3], DATA[4k+2], DATA[4k+1], DATA[4k]}` (R53, R54). -/
def dataWord (m : List Host.Cell) (k : Nat) : Word :=
  Memory.read m (4 * k + 3) ++ (Memory.read m (4 * k + 2) ++ (Memory.read m (4 * k + 1) ++ Memory.read m (4 * k)))

/-- `DATA[4k+j] <- v[8j+7:8j]` for j in 0..3 (R54). -/
def writeDataWord (m : List Host.Cell) (k : Nat) (v : Word) : List Host.Cell :=
  Memory.writeBytes m (4 * k) [v.extractLsb' 0 8, v.extractLsb' 8 8, v.extractLsb' 16 8, v.extractLsb' 24 8]

/-- What a host read of a register returns (R30 to R36, R54); a read has no side effect (R55). -/
def readReg (s : State) : HostReg → Word
  | .cmd => s.cmd
  | .arg0 => s.arg0
  | .arg1 => s.arg1
  | .arg2 => s.arg2
  | .status => s.status
  | .result => s.result
  | .dlen => s.dlen.setWidth 32
  | .busOpen => busOpenView s
  | .pwmRec => recView s.recPwm
  | .dispRec => recView s.recDisp
  | .dbuf01 => dbufView s.dbuf[0] s.dbuf[1]
  | .dbuf23 => dbufView s.dbuf[2] s.dbuf[3]
  | .sel b => selView s b
  | .data k => dataWord s.data k.toNat

/-- A host write of `v` to a register, less the execution a write to CMD starts: CMD, ARG0 to ARG2, DLEN (bits 7:0) and the
DATA words store it, and a write to a read-only register changes nothing (R32 to R34, R54, R55). -/
def storeReg (s : State) (r : HostReg) (v : Word) : State :=
  match r with
  | .cmd => { s with cmd := v }
  | .arg0 => { s with arg0 := v }
  | .arg1 => { s with arg1 := v }
  | .arg2 => { s with arg2 := v }
  | .dlen => { s with dlen := v.setWidth 8 }
  | .data k => { s with data := writeDataWord s.data k.toNat v }
  | .status => s
  | .result => s
  | .busOpen => s
  | .pwmRec => s
  | .dispRec => s
  | .dbuf01 => s
  | .dbuf23 => s
  | .sel _ => s

end Sys2Proof.Machine
end

