-- ==== Sys2Proof/Machine/Execute.lean ====
section
/-! DEFINITION. Executing a word written to CMD (30_encoding R86) and taking one input of the host or the platform. -/

namespace Sys2Proof.Machine

/-- `Execute(w)`: CMD takes the word, and the word executes as the command it decodes to, or as IllegalCommand (R32, R86). -/
def execute (w : Word) (s : State) : Host.Outcome State Fault Refusal :=
  match decode w with
  | .ok i => exec i (storeReg s .cmd w)
  | .error _ => illegalWord (storeReg s .cmd w)

/-- A host write that is not refused: to CMD it executes the word, elsewhere it only stores (R55). -/
def hostWrite (r : HostReg) (v : Word) (s : State) : Host.Outcome State Fault Refusal :=
  match r with
  | .cmd => execute v s
  | r => .next (storeReg s r v)

/-- A host read that is not refused: the value goes to the host and nothing of the block changes (R55). -/
def hostRead (r : HostReg) (s : State) : Host.Outcome State Fault Refusal :=
  .next { s with reads := s.reads ++ [readReg s r] }

/-- One input taken by the block: a host write, a host read, or reset (R52, R235, R260). -/
def takeInput (x : Input) (s : State) : Host.Outcome State Fault Refusal :=
  match x with
  | .write offset width v =>
    match hostAccess offset width with
    | .ok r => hostWrite r v s
    | .error e => .refused e
  | .read offset width =>
    match hostAccess offset width with
    | .ok r => hostRead r s
    | .error e => .refused e
  | .reset => .next (platformReset s)

/-- The host write that issues a command word: an aligned word write to CMD (R32, R51). -/
def commandWrite (w : Word) : Input := .write (regOffset .cmd) .w4 w

end Sys2Proof.Machine
end

