-- ==== Sys2Proof/Machine/Step.lean ====
section
/-! DEFINITION. One step: the block takes the next input. With none to take it does nothing, since it has no background
activity (00_scope R12, 10_state R21). -/

namespace Sys2Proof.Machine

/-- One step of the machine. -/
def step (s : State) : Host.Outcome State Fault Refusal :=
  match s.inputs with
  | [] => .next s
  | x :: rest => takeInput x { s with inputs := rest }

/-- `s` with the host's next access a write of the word `w` to CMD: where the block gets its next command from (R21, R68,
log entry 3). Every row of the opcode table is one 32-bit word, so `nbits` adds nothing. -/
def State.withFetchWord (s : State) (_nbits w : Nat) : State :=
  { s with inputs := commandWrite (BitVec.ofNat 32 w) :: s.inputs }

end Sys2Proof.Machine
end

