-- ==== Sys2Proof/Machine/HostProgram.lean ====
section
/-! DEFINITION. The host's side as the spec gives it: the pseudo-instructions (30_encoding R87, R88) as the host accesses they
expand to, and the manager's discovery procedures (43_manager R211, R212). They bind the host's program, not the block
(log entry 15). -/

namespace Sys2Proof.Machine

/-- The pseudo-instructions of R88. -/
inductive Pseudo where
  /-- `PWM_SET ch, on, off` -/
  | pwmSet (ch : Byte) (on off : Word)
  /-- `PWM_SET_ALL on, off` -/
  | pwmSetAll (on off : Word)
  /-- `FAN_SPEED level` -/
  | fanSpeed (level : Word)
  /-- `LED_COLOR r, g, b` -/
  | ledColor (r g b : Word)
  /-- `TEXT "s"` -/
  | text (bytes : List Byte)
  /-- `DISP_STRING "s", right` and `DISP_STRING "s", left` -/
  | dispString (bytes : List Byte) (right : Bool)
  /-- `BYTES [d0, ..., dn-1]` -/
  | bytes (data : List Byte)
  /-- `WRITE_BLOCK bus, reg, [d0..dn-1]` -/
  | writeBlock (bus reg : Byte) (data : List Byte)
deriving DecidableEq, Repr

/-- `W <reg>, <value>`: one host write (R87). -/
def regWrite (r : HostReg) (v : Word) : Input := .write (regOffset r) .w4 v

/-- `R <reg>`: one host read (R87). -/
def regRead (r : HostReg) : Input := .read (regOffset r) .w4

/-- `<MNEMONIC> <field>=<value>, ...`: the host write of the command's word to CMD (R87). -/
def issue (i : Instr) : Input := regWrite .cmd (encode i)

/-- word_k of TEXT: bytes 4k..4k+3 of the list, little-endian, 0 beyond its end (R88). -/
def packWord (bytes : List Byte) (k : Nat) : Word :=
  bytes.getD (4 * k + 3) 0#8 ++ (bytes.getD (4 * k + 2) 0#8 ++ (bytes.getD (4 * k + 1) 0#8 ++ bytes.getD (4 * k) 0#8))

/-- The DATA writes of TEXT and BYTES: word k for k in 0..ceil(n/4)-1 (R88). -/
def dataWrites (bytes : List Byte) : List Input :=
  (List.range ((bytes.length + 3) / 4)).map (fun k => regWrite (.data (BitVec.ofNat 5 k)) (packWord bytes k))

/-- The DLEN write of TEXT (R88). -/
def dlenWrite (bytes : List Byte) : Input := regWrite .dlen (BitVec.ofNat 32 bytes.length)

/-- The host writes a pseudo-instruction stands for (R88's column `expansion`). -/
def expand : Pseudo → List Input
  | .pwmSet ch on off => [regWrite .arg0 on, regWrite .arg1 off, issue (.pwmSet ch)]
  | .pwmSetAll on off => [regWrite .arg0 on, regWrite .arg1 off, issue .pwmSetAll]
  | .fanSpeed lvl => [regWrite .arg0 lvl, issue .fanSpeed]
  | .ledColor r g b => [regWrite .arg0 r, regWrite .arg1 g, regWrite .arg2 b, issue .ledColor]
  | .text bytes => dataWrites bytes ++ [dlenWrite bytes]
  | .dispString bytes right => dataWrites bytes ++ [dlenWrite bytes, issue (.dispString right)]
  | .bytes data => dataWrites data
  | .writeBlock bus reg data => dataWrites data ++ [issue (.writeBlock bus reg (BitVec.ofNat 8 data.length))]

/-- Go on from a next state; a stop stays a stop. -/
def andThen (o : Host.Outcome State Fault Refusal) (f : State → Host.Outcome State Fault Refusal) :
    Host.Outcome State Fault Refusal :=
  match o with
  | .next s => f s
  | .fault r => .fault r
  | .refused r => .refused r

/-- The host issues one command and waits for it to be done (R62). -/
def runCommand (i : Instr) (s : State) : Host.Outcome State Fault Refusal := takeInput (issue i) s

/-- BUS_OPEN for each bus of a list; a failure is not an error of the procedure, and the loop goes on (R211). -/
def openEach : List Byte → State → Host.Outcome State Fault Refusal
  | [], s => .next s
  | b :: bs, s => andThen (runCommand (.busOpen b) s) (openEach bs)

/-- The bus indices from `lo` to `hi`. -/
def busRange (lo hi : Byte) : List Byte := (List.range' lo.toNat (hi.toNat + 1 - lo.toNat)).map (BitVec.ofNat 8)

/-- `scan_buses(lo, hi)` (R211). -/
def scanBuses (lo hi : Byte) (s : State) : Host.Outcome State Fault Refusal := openEach (busRange lo hi) s

/-- Detect a unit, and initialise it when the detection left ERR 0 (R212). -/
def detectThenInit (detect init : Instr) (s : State) : Host.Outcome State Fault Refusal :=
  andThen (runCommand detect s) (fun t =>
    if statusErr (readReg t .status) = okCode then runCommand init t else .next t)

/-- The body of `scan_devices` on one bus: each unit that is not registered yet is detected and initialised (R212). -/
def scanDevicesOn (b : Byte) (s : State) : Host.Outcome State Fault Refusal :=
  andThen
    (if (readReg s .pwmRec).getLsbD 1 then .next s else detectThenInit (.pwmDetect b) .pwmInit s)
    (fun t => if (readReg t .dispRec).getLsbD 1 then .next t else detectThenInit (.dispDetect b) .dispInit t)

/-- The body of `scan_devices` on each bus of a list. -/
def scanDevicesOnEach : List Byte → State → Host.Outcome State Fault Refusal
  | [], s => .next s
  | b :: bs, s => andThen (scanDevicesOn b s) (scanDevicesOnEach bs)

/-- The open buses in ascending order, as BUSOPEN shows them (R36, R211). -/
def openBuses (s : State) : List Byte :=
  ((List.range 16).filter (fun b => (readReg s .busOpen).getLsbD b)).map (BitVec.ofNat 8)

/-- `scan_devices()` (R212). -/
def scanDevices (s : State) : Host.Outcome State Fault Refusal := scanDevicesOnEach (openBuses s) s

end Sys2Proof.Machine
end

