-- ==== Sys2Proof/Safety.lean ====
section
/-! DEFINITION. The terms the statements use: premises on the environment's answers (60_exceptions R232), what a command that
sends writes answers, the conditions on a bus, and the invariants of a sound state (10_state R26, R28, R30; 20_memory R56,
R57). -/

namespace Sys2Proof.Machine

/-! ### Premises on the environment -/

/-- The environment answers every one of these transactions with `Ok`, asked in order on bus p. -/
def Env.acks : Env → BusIx → List Tx → Bool
  | _, _, [] => true
  | e, p, t :: ts =>
    match e.response p t with
    | .ok _ => Env.acks (e.answered p t) p ts
    | .fail => false

/-- The environment answers every one of these transactions with `Fail`, asked in order on bus p. -/
def Env.nacks : Env → BusIx → List Tx → Bool
  | _, _, [] => true
  | e, p, t :: ts =>
    match e.response p t with
    | .ok _ => false
    | .fail => Env.nacks (e.answered p t) p ts

/-- The environment once it has answered these transactions in order on bus p, however it answered them. -/
def Env.after : Env → BusIx → List Tx → Env
  | e, _, [] => e
  | e, p, t :: ts => Env.after (e.answered p t) p ts

/-- The events these transactions leave in the trace, each with the environment's response to it (R38). -/
def Env.events : Env → BusIx → List Tx → List Event
  | _, _, [] => []
  | e, p, t :: ts => .tx p t (e.response p t) :: Env.events (e.answered p t) p ts

/-- The addresses of those of these probes that the environment acknowledges, in order (R109). -/
def Env.found : Env → BusIx → List Addr → List Addr
  | _, _, [] => []
  | e, p, a :: as =>
    match e.response p (.probe a) with
    | .ok _ => a :: Env.found (e.answered p (.probe a)) p as
    | .fail => Env.found (e.answered p (.probe a)) p as

/-- Each of these messages as a Write to address a that was answered `Ok` (R57). -/
def okWrites (p : BusIx) (a : Addr) (msgs : List (List Byte)) : List Event :=
  msgs.map (fun m => .tx p (.write a m) (.ok []))

/-- The answer `o` of a command that, from `s`, sends Writes of `msgs` to address a of bus p and ends when all went well in
`done`, and at the first that fails in TransportError, with every event up to and including the failed one (R110, R221). -/
def WritesThen (s : State) (p : BusIx) (a : Addr) (msgs : List (List Byte)) (done : State → State)
    (o : Host.Outcome State Fault Refusal) : Prop :=
  (s.env.acks p (msgs.map (.write a)) = true →
    o = .next (done { s with
      env := s.env.after p (msgs.map (.write a)), trace := s.trace ++ okWrites p a msgs, status := 0#32 })) ∧
  (∀ pre m post, msgs = pre ++ m :: post → s.env.acks p (pre.map (.write a)) = true →
    (s.env.after p (pre.map (.write a))).response p (.write a m) = .fail →
    o = .next { s with
      env := s.env.after p ((pre ++ [m]).map (.write a)),
      trace := s.trace ++ okWrites p a pre ++ [.tx p (.write a m) .fail], status := 5#32, result := 0#32 })

/-- A record after bus p is closed: cleared where it was bound to p (R101, R103). -/
def recAfterClose (p : BusIx) (r : DevRec) : DevRec := if r.det && decide (r.bus = p) then DevRec.cleared else r

/-! ### Conditions on a bus (R101) -/

/-- The port that bus field b names. -/
def portOf (b : Byte) : BusIx := b.setWidth 4

/-- `validBus(b) and open[b]` (R101). -/
abbrev Opened (s : State) (b : Byte) : Prop := b.toNat < s.cfg.nbus.val ∧ (s.port (portOf b)).opened = true

/-- `ready(b)` with target a (R101). -/
abbrev ReadyAt (s : State) (b : Byte) (a : Addr) : Prop := Opened s b ∧ (s.port (portOf b)).sel = some a

/-- `s` with an error reported and nothing else changed (R221). -/
def withError (code : Nat) (s : State) : State := { s with status := BitVec.ofNat 32 code, result := 0#32 }

/-- The read by which detection asks for a chip at an address: one byte of register `reg` (R145, R173). -/
def probeReads (reg : Byte) (addrs : List Addr) : List Tx := addrs.map (fun a => .writeRead a reg 1)

/-- The answer `o` of the DETECT of unit u on bus field b, from `s` (R145, R173). On a bus that is not open the record is
cleared and the error is BusUnavailable. The first candidate that answers is recorded and stays selected, and no later one is
read. When all fail, the last one stays selected and the error is DeviceNotFound. -/
def Detects (u : Chip) (cands : List Addr) (reg : Byte) (b : Byte) (s : State)
    (o : Host.Outcome State Fault Refusal) : Prop :=
  (¬ Opened s b → o = .next (withError 1 (s.setRec u DevRec.cleared))) ∧
  (Opened s b → ∀ pre a post d, cands = pre ++ a :: post → s.env.nacks (portOf b) (probeReads reg pre) = true →
    (s.env.after (portOf b) (probeReads reg pre)).response (portOf b) (.writeRead a reg 1) = .ok d →
    o = .next { (s.setRec u { det := true, init := false, bus := portOf b, addr := a }).setSel (portOf b) (some a) with
      env := s.env.after (portOf b) (probeReads reg (pre ++ [a])),
      trace := s.trace ++ pre.map (fun c => .tx (portOf b) (.writeRead c reg 1) .fail) ++
        [.tx (portOf b) (.writeRead a reg 1) (.ok d)],
      status := 0#32, result := a.setWidth 32 }) ∧
  (Opened s b → ∀ pre a, cands = pre ++ [a] → s.env.nacks (portOf b) (probeReads reg cands) = true →
    o = .next (withError 2 { (s.setRec u DevRec.cleared).setSel (portOf b) (some a) with
      env := s.env.after (portOf b) (probeReads reg cands),
      trace := s.trace ++ cands.map (fun c => .tx (portOf b) (.writeRead c reg 1) .fail) }))

/-- The addresses at which DETECT looks for the unit's chip, in order (R6). -/
def candidates (cfg : Params) : Chip → List Addr
  | .pwm => cfg.pwmCandidates
  | .disp => cfg.dispCandidates

/-- A reference device stands at address a of bus p: `a in Dev_p` (R236). -/
abbrev DeviceAt (ds : List Device) (p : BusIx) (a : Addr) : Prop := ∃ d ∈ ds, d.bus = p ∧ d.addr = a

/-- Port p is one of the NBUS ports and is open (R23). -/
abbrev OpenBus (s : State) (p : BusIx) : Prop := p.toNat < s.cfg.nbus.val ∧ (s.port p).opened = true

/-- The low byte of a tick count as a number: `v[7:0]` (R141). -/
def lowByte (v : Ticks) : Byte := BitVec.ofNat 8 (v.toNat % 256)

/-- The high byte of a tick count as a number: `v[11:8]` (R141). -/
def highByte (v : Ticks) : Byte := BitVec.ofNat 8 (v.toNat / 256)

/-- The four writes of one channel, as R147's `chanWrite` lists them. -/
def channelWrites (cfg : Params) (ch : Nat) (on off : Ticks) : List (List Byte) :=
  [[BitVec.ofNat 8 (cfg.pwmLed0.toNat + 4 * ch), lowByte on], [BitVec.ofNat 8 (cfg.pwmLed0.toNat + 4 * ch + 1), highByte on],
   [BitVec.ofNat 8 (cfg.pwmLed0.toNat + 4 * ch + 2), lowByte off],
   [BitVec.ofNat 8 (cfg.pwmLed0.toNat + 4 * ch + 3), highByte off]]

/-- The one burst to every channel, as R148's `allWrite` lists it. -/
def broadcastWrite (cfg : Params) (on off : Ticks) : List Byte :=
  [cfg.pwmAll, lowByte on, highByte on, lowByte off, highByte off]

/-- The write of one digit, as R172 lists it. -/
def digitWrite (cfg : Params) (i : Fin 4) (m : Bitmap) : List Byte :=
  [cfg.digitReg[i], BitVec.ofNat 8 (m.toNat % 256), BitVec.ofNat 8 (m.toNat / 256)]

/-- The unit's command ends with RESULT r. -/
def withResult (r : Word) (s : State) : State := { s with result := r }

/-! ### Invariants -/

/-- R26: a port that is not open has no selected target. -/
abbrev PortsOk (s : State) : Prop := ∀ p, (s.port p).opened = false → (s.port p).sel = none

/-- R28 for one unit: (a) init implies det, (b) det implies the record's bus is open, (c) an undetected record is zero. -/
abbrev RecOk (s : State) (u : Chip) : Prop :=
  ((s.unitRec u).init = true → (s.unitRec u).det = true) ∧
  ((s.unitRec u).det = true → (s.port (s.unitRec u).bus).opened = true) ∧
  ((s.unitRec u).det = false → (s.unitRec u).bus = 0#4 ∧ (s.unitRec u).addr = 0#7 ∧ (s.unitRec u).init = false)

/-- R30, R31, R220: STATUS holds a code from 0 to 6 and nothing else, and RESULT is 0 unless it holds 0. -/
abbrev OutcomeOk (s : State) : Prop := s.status.toNat ≤ 6 ∧ (s.status ≠ 0#32 → s.result = 0#32)

/-- DATA is in canonical form, inside its 128 bytes (R35). -/
abbrev DataOk (s : State) : Prop := Memory.wf Config.dataSize s.data = true

/-- A transaction the block may put on a bus: an address in 0x03..0x77, at least one byte written or read (R56, R57). -/
def txOk : Tx → Bool
  | .write a bytes => Addr.inScanRange a && !bytes.isEmpty
  | .writeRead a _ n => Addr.inScanRange a && decide (0 < n)
  | .probe a => Addr.inScanRange a

/-- An event of R57's shape: a transaction the block may send, and a response with as many bytes as it asks for. -/
def eventOk : Event → Bool
  | .acquire _ => true
  | .release _ => true
  | .tx _ t r => txOk t && (match r with
    | .ok d => decide (d.length = replyLength t)
    | .fail => true)

/-- Every selected target and every detected record's address lies in 0x03..0x77 (R56). -/
def TargetsOk (s : State) : Prop :=
  (∀ p a, (s.port p).sel = some a → Addr.inScanRange a = true) ∧
  (s.recPwm.det = true → Addr.inScanRange s.recPwm.addr = true) ∧
  (s.recDisp.det = true → Addr.inScanRange s.recDisp.addr = true)

/-- Only ports below NBUS are open (R23). -/
abbrev PortsWithin (s : State) : Prop := ∀ p : BusIx, (s.port p).opened = true → p.toNat < s.cfg.nbus.val

/-- Every event of the trace is of R57's shape. -/
def TraceOk (s : State) : Prop := ∀ ev ∈ s.trace, eventOk ev = true

/-- A sound state: well-formed parameters and every invariant above. -/
structure Sound (s : State) : Prop where
  cfg : s.cfg.wf = true
  ports : PortsOk s
  within : PortsWithin s
  pwm : RecOk s .pwm
  disp : RecOk s .disp
  outcome : OutcomeOk s
  data : DataOk s
  targets : TargetsOk s
  trace : TraceOk s

/-! ### Words for what a command may do -/

/-- The last device register a transaction reaches is at most 0xFF: byte k of it is meant for register `r + k` (R59, R61). -/
def txInRegisters : Tx → Bool
  | .write _ (r :: data) => decide (r.toNat + data.length ≤ 0xFF + 1)
  | .write _ [] => true
  | .writeRead _ r n => decide (r.toNat + n ≤ 0xFF + 1)
  | .probe _ => true

/-- The event is no transfer past device register 0xFF (R61). -/
def eventInRegisters : Event → Bool
  | .acquire _ => true
  | .release _ => true
  | .tx _ t _ => txInRegisters t

/-- R222's table, row by row: the error codes a command can end with. -/
def errorCodes : Instr → List Nat
  | .busOpen _ => [1]
  | .busClose _ => []
  | .setAddr _ _ => [1]
  | .writeByte _ _ _ => [1, 5]
  | .readByte _ _ => [1, 5]
  | .writeBlock _ _ _ => [4, 1, 5]
  | .readBlock _ _ _ => [4, 1, 5]
  | .scan _ _ _ => [1]
  | .mgrClose => []
  | .pwmDetect _ => [1, 2]
  | .pwmInit => [2, 5]
  | .pwmSet _ => [4, 3, 5]
  | .pwmSetAll => [3, 5]
  | .fanSpeed => [3, 5]
  | .ledColor => [3, 5]
  | .dispDetect _ => [1, 2]
  | .dispInit => [2, 5]
  | .dispClear => [3, 5]
  | .dispCharL _ _ => [4, 3, 5]
  | .dispCharR _ _ => [4, 3, 5]
  | .dispString _ => [4, 3, 5]
  | .readKey => [3, 5]

/-- How many transactions a list of events holds. -/
def txCount (evs : List Event) : Nat :=
  (evs.filter (fun ev => match ev with
    | .tx _ _ _ => true
    | .acquire _ => false
    | .release _ => false)).length

end Sys2Proof.Machine
end

