-- ==== Sys2Proof/Certificates/Slice0/Obligations.lean ====
section
/-! DEFINITION. The statements for the provers, from the numbered rules of spec/. Each docstring names the rule it formalises;
OBLIGATIONS.json lists them. A statement about a command gives the word it decodes from and its whole next state, so it is the
command's completion and its frame at once; the frame statements below say the same group by group, over every path. The fields
`env`, `inputs`, `reads` and `cfg` of a state are the model's own (log entries 1 to 4): what a statement says of them is the
model's convention, not the spec's. -/

open Sys2Proof Sys2Proof.Machine

/-! ### Encoding -/

/-- Words written out from R82's encodings, and the command or the refusal each one is (R82, R83, R84). -/
def Obligations.SampleCommandWordsDecode : Prop :=
  decode 0x01000000#32 = .ok (.busOpen 0#8) ∧ decode 0x03004000#32 = .ok (.setAddr 0#8 0x40#8) ∧
  decode 0x0400065A#32 = .ok (.writeByte 0#8 6#8 0x5A#8) ∧ decode 0x08000377#32 = .ok (.scan 0#8 3#8 0x77#8) ∧
  decode 0x09000000#32 = .ok .mgrClose ∧ decode 0x120F0000#32 = .ok (.pwmSet 15#8) ∧
  decode 0x23003700#32 = .ok (.dispCharL 0#8 0x37#8) ∧ decode 0x25010000#32 = .ok (.dispString true) ∧
  decode 0x26000000#32 = .ok .readKey ∧ decode 0x01000001#32 = .error (.reservedField 1#8) ∧
  decode 0x25020000#32 = .error (.reservedField 0x25#8) ∧ decode 0x27000000#32 = .error (.unassignedOpcode 0x27#8)

/-- Decoding the word of a well-formed command gives the command back, every field at every value (R82, R85). -/
def Obligations.DecodeOfEncodeIsTheCommand : Prop :=
  ∀ i : Instr, i.wf = true → decode (encode i) = .ok i

/-- R85: every word is exactly one command's word, or illegal and no command's word. -/
def Obligations.EveryWordIsOneCommandOrIllegal : Prop :=
  ∀ w : Word,
    (∃ i, decode w = .ok i ∧ encode i = w ∧ ∀ j, encode j = w → j = i) ∨
    ((∃ e, decode w = .error e) ∧ ∀ i, encode i ≠ w)

/-- R83 and R84: a word with an unassigned opcode, or with a non-zero bit in a reserved field of its format, executes as
IllegalCommand: it changes CMD, STATUS and RESULT and nothing else. -/
def Obligations.UnassignedAndReservedWordsAreIllegal : Prop :=
  ∀ (w : Word) (s : State),
    let opc := w.toNat / 2 ^ 24
    (opc ∉ [0x01, 0x02, 0x03, 0x04, 0x05, 0x06, 0x07, 0x08, 0x09, 0x10, 0x11, 0x12, 0x13, 0x14, 0x15, 0x20, 0x21, 0x22,
        0x23, 0x24, 0x25, 0x26] ∨
      (opc ∈ [0x09, 0x11, 0x13, 0x14, 0x15, 0x21, 0x22, 0x26] ∧ w.toNat % 2 ^ 24 ≠ 0) ∨
      (opc ∈ [0x01, 0x02, 0x10, 0x12, 0x20] ∧ w.toNat % 2 ^ 16 ≠ 0) ∨
      (opc ∈ [0x03, 0x05, 0x23, 0x24] ∧ w.toNat % 2 ^ 8 ≠ 0) ∨
      (opc = 0x25 ∧ w &&& 0x00FEFFFF#32 ≠ 0#32)) →
    execute w s = .next { s with cmd := w, status := 6#32, result := 0#32 }

/-! ### The step and the host interface -/

/-- R86, and that a step runs the decoded command: a step that takes a write of w to CMD stores w there and is `exec` of the
command w decodes to, or, for an illegal word, changes only CMD, STATUS (6) and RESULT (0). -/
def Obligations.CommandWriteExecutesTheDecodedCommand : Prop :=
  ∀ (s : State) (w : Word) (rest : List Input), s.inputs = commandWrite w :: rest →
    (∀ i, i.wf = true → decode w = .ok i → step s = exec i { s with inputs := rest, cmd := w }) ∧
    (∀ e, decode w = .error e →
      step s = .next { s with inputs := rest, cmd := w, status := 6#32, result := 0#32 })

/-- R62, R86: a write to CMD always completes, and leaves the word in CMD and the host's later accesses to come. -/
def Obligations.CommandWritesAlwaysComplete : Prop :=
  ∀ (s : State) (w : Word) (rest : List Input), s.inputs = commandWrite w :: rest →
    ∃ t, step s = .next t ∧ t.cmd = w ∧ t.inputs = rest

/-- R52 with R51's reserved ranges: a host access is refused exactly when it is not 32 bits wide, or misaligned, or at a
reserved offset; every other one is taken. -/
def Obligations.OnlyAlignedWordAccessesAreTaken : Prop :=
  ∀ (o : Offset) (width : Width) (v : Word) (s : State),
    let refusedAccess := width ≠ .w4 ∨ o.toNat % 4 ≠ 0 ∨ (0x030 ≤ o.toNat ∧ o.toNat < 0x040) ∨
      (0x080 ≤ o.toNat ∧ o.toNat < 0x100) ∨ 0x180 ≤ o.toNat
    (refusedAccess → (∃ e, takeInput (.write o width v) s = .refused e) ∧ (∃ e, takeInput (.read o width) s = .refused e)) ∧
    (¬ refusedAccess → (∃ t, takeInput (.write o width v) s = .next t) ∧ (∃ t, takeInput (.read o width) s = .next t))

/-- R51: the register each offset of the map names. -/
def Obligations.RegisterMapOffsets : Prop :=
  hostAccess 0x000#12 .w4 = .ok .cmd ∧ hostAccess 0x004#12 .w4 = .ok .arg0 ∧ hostAccess 0x008#12 .w4 = .ok .arg1 ∧
  hostAccess 0x00C#12 .w4 = .ok .arg2 ∧ hostAccess 0x010#12 .w4 = .ok .status ∧ hostAccess 0x014#12 .w4 = .ok .result ∧
  hostAccess 0x018#12 .w4 = .ok .dlen ∧ hostAccess 0x01C#12 .w4 = .ok .busOpen ∧ hostAccess 0x020#12 .w4 = .ok .pwmRec ∧
  hostAccess 0x024#12 .w4 = .ok .dispRec ∧ hostAccess 0x028#12 .w4 = .ok .dbuf01 ∧ hostAccess 0x02C#12 .w4 = .ok .dbuf23 ∧
  (∀ b : BusIx, hostAccess (0x040#12 + 4#12 * b.setWidth 12) .w4 = .ok (.sel b)) ∧
  (∀ k : BitVec 5, hostAccess (0x100#12 + 4#12 * k.setWidth 12) .w4 = .ok (.data k))

/-- R55: a host read returns the register's value and changes nothing of the block; a write to a read-only register changes
nothing and is not refused; a write to ARG0, ARG1, ARG2, DLEN or a DATA word changes that register alone; and every write but
one to CMD, done twice, is as done once. -/
def Obligations.HostReadsAndWritesHaveNoSideEffect : Prop :=
  (∀ (s : State) (r : HostReg), takeInput (regRead r) s = .next { s with reads := s.reads ++ [readReg s r] }) ∧
  (∀ (s : State) (v : Word) (b : BusIx) (r : HostReg),
    r ∈ [HostReg.status, .result, .busOpen, .pwmRec, .dispRec, .dbuf01, .dbuf23, .sel b] →
    takeInput (regWrite r v) s = .next s) ∧
  (∀ (s : State) (v : Word),
    takeInput (regWrite .arg0 v) s = .next { s with arg0 := v } ∧
    takeInput (regWrite .arg1 v) s = .next { s with arg1 := v } ∧
    takeInput (regWrite .arg2 v) s = .next { s with arg2 := v } ∧
    takeInput (regWrite .dlen v) s = .next { s with dlen := BitVec.ofNat 8 (v.toNat % 256) } ∧
    ∀ k : BitVec 5, takeInput (regWrite (.data k) v) s = .next { s with data := writeDataWord s.data k.toNat v } ∧
      ∀ a, a < 4 * k.toNat ∨ 4 * k.toNat + 4 ≤ a →
        Memory.read (writeDataWord s.data k.toNat v) a = Memory.read s.data a) ∧
  (∀ (s t : State) (r : HostReg) (v : Word), DataOk s → r ≠ .cmd → takeInput (regWrite r v) s = .next t →
    takeInput (regWrite r v) t = .next t)

/-- R53 and R54: byte 4k+j of DATA is bits 8j+7:8j of DATA word k, for a read and for a write, and a write of a word leaves
every other byte alone. -/
def Obligations.DataWordsAreLittleEndian : Prop :=
  ∀ (s : State) (k : BitVec 5) (v : Word),
    (∀ j, j < 4 → (readReg s (.data k)).extractLsb' (8 * j) 8 = Memory.read s.data (4 * k.toNat + j)) ∧
    (DataOk s → ∃ t, takeInput (regWrite (.data k) v) s = .next t ∧ readReg t (.data k) = v ∧
      (∀ j, j < 4 → Memory.read t.data (4 * k.toNat + j) = v.extractLsb' (8 * j) 8) ∧
      ∀ a, a < 4 * k.toNat ∨ 4 * k.toNat + 4 ≤ a → Memory.read t.data a = Memory.read s.data a)

/-- R36: the bits of the read-only views; a host write to one changes nothing, and a host read changes nothing of the block. -/
def Obligations.ReadOnlyViewsShowTheState : Prop :=
  ∀ (s : State),
    (∀ b, b < 16 → (readReg s .busOpen).getLsbD b =
      (decide (b < s.cfg.nbus.val) && (s.port (BitVec.ofNat 4 b)).opened)) ∧
    (∀ b, 16 ≤ b → (readReg s .busOpen).getLsbD b = false) ∧
    (∀ b : BusIx, ¬ b.toNat < s.cfg.nbus.val → readReg s (.sel b) = 0#32) ∧
    (∀ b : BusIx, b.toNat < s.cfg.nbus.val → (s.port b).sel = none → readReg s (.sel b) = 0#32) ∧
    (∀ (b : BusIx) (a : Addr), b.toNat < s.cfg.nbus.val → (s.port b).sel = some a →
      (readReg s (.sel b)).toNat = 0x80 + a.toNat) ∧
    (∀ (r : HostReg) (d : DevRec), (r = .pwmRec ∧ d = s.recPwm) ∨ (r = .dispRec ∧ d = s.recDisp) →
      (readReg s r).getLsbD 0 = d.det ∧ (readReg s r).getLsbD 1 = d.init ∧ (readReg s r).extractLsb' 2 2 = 0#2 ∧
      (readReg s r).extractLsb' 4 4 = d.bus ∧ (readReg s r).extractLsb' 8 7 = d.addr ∧
      (readReg s r).extractLsb' 15 17 = 0#17) ∧
    ((readReg s .dbuf01).extractLsb' 0 16 = s.dbuf[0] ∧ (readReg s .dbuf01).extractLsb' 16 16 = s.dbuf[1]) ∧
    ((readReg s .dbuf23).extractLsb' 0 16 = s.dbuf[2] ∧ (readReg s .dbuf23).extractLsb' 16 16 = s.dbuf[3]) ∧
    (∀ (r : HostReg) (v : Word), r ∈ [HostReg.busOpen, .pwmRec, .dispRec, .dbuf01, .dbuf23] ∨ (∃ b, r = .sel b) →
      takeInput (regWrite r v) s = .next s ∧ takeInput (regRead r) s = .next { s with reads := s.reads ++ [readReg s r] })

/-- R40, R38 and R261: reset leaves every piece of block state at its value of R40's table, whatever it was, and does not
touch the trace. -/
def Obligations.ResetLeavesTheSpecValues : Prop :=
  ∀ (s : State) (rest : List Input), s.inputs = .reset :: rest →
    ∃ t, step s = .next t ∧
      (∀ p : BusIx, (t.port p).opened = false ∧ (t.port p).sel = none) ∧
      (∀ u : Chip, (t.unitRec u).det = false ∧ (t.unitRec u).init = false ∧ (t.unitRec u).bus = 0#4 ∧
        (t.unitRec u).addr = 0#7) ∧
      (∀ i : Fin 4, t.dbuf[i] = 0x0000#16) ∧
      t.cmd = 0#32 ∧ t.arg0 = 0#32 ∧ t.arg1 = 0#32 ∧ t.arg2 = 0#32 ∧ t.status = 0#32 ∧ t.result = 0#32 ∧ t.dlen = 0#8 ∧
      (∀ a, Memory.read t.data a = 0#8) ∧ t.trace = s.trace ∧ t.inputs = rest

/-! ### The I2C master -/

/-- R102, BUS_OPEN: a missing bus, an open bus and a bus held elsewhere are BusUnavailable (1) and change nothing else of the block,
and only the last asks the environment; a free bus is opened with no target, with one Acquire. -/
def Obligations.BusOpenAcquiresThePort : Prop :=
  ∀ (s : State) (b : Byte),
    decode (0x01#8 ++ b ++ 0#8 ++ 0#8) = .ok (.busOpen b) ∧
    (¬ b.toNat < s.cfg.nbus.val → exec (.busOpen b) s = .next (withError 1 s)) ∧
    (b.toNat < s.cfg.nbus.val → s.cfg.busPresent[(portOf b).toFin] = false → exec (.busOpen b) s = .next (withError 1 s)) ∧
    (b.toNat < s.cfg.nbus.val → (s.port (portOf b)).opened = true → exec (.busOpen b) s = .next (withError 1 s)) ∧
    (b.toNat < s.cfg.nbus.val → s.cfg.busPresent[(portOf b).toFin] = true → (s.port (portOf b)).opened = false →
      (s.env.isHeld = true → exec (.busOpen b) s = .next (withError 1 { s with env := s.env.heldAnswered })) ∧
      (s.env.isHeld = false → exec (.busOpen b) s = .next { s.setPort (portOf b) { opened := true, sel := none } with
        env := s.env.heldAnswered, trace := s.trace ++ [.acquire (portOf b)], status := 0#32, result := 0#32 }))

/-- R103, BUS_CLOSE: always success; an open bus is released with one Release and the records bound to it are cleared. -/
def Obligations.BusCloseReleasesThePort : Prop :=
  ∀ (s : State) (b : Byte),
    decode (0x02#8 ++ b ++ 0#8 ++ 0#8) = .ok (.busClose b) ∧
    (¬ Opened s b → exec (.busClose b) s = .next { s with status := 0#32, result := 0#32 }) ∧
    (Opened s b → exec (.busClose b) s = .next { s.setPort (portOf b) { opened := false, sel := none } with
      trace := s.trace ++ [.release (portOf b)], recPwm := recAfterClose (portOf b) s.recPwm,
      recDisp := recAfterClose (portOf b) s.recDisp, status := 0#32, result := 0#32 })

/-- R104, SET_ADDR: BusUnavailable (1) for a bus that is not open or an address outside 0x03..0x77; else the target is selected and
nothing is sent. -/
def Obligations.SetAddrSelectsTheTarget : Prop :=
  ∀ (s : State) (b a : Byte),
    decode (0x03#8 ++ b ++ a ++ 0#8) = .ok (.setAddr b a) ∧
    (¬ Opened s b → exec (.setAddr b a) s = .next (withError 1 s)) ∧
    (Opened s b → a.toNat < 0x03 ∨ 0x77 < a.toNat → exec (.setAddr b a) s = .next (withError 1 s)) ∧
    (Opened s b → 0x03 ≤ a.toNat → a.toNat ≤ 0x77 →
      exec (.setAddr b a) s = .next { s.setSel (portOf b) (some (BitVec.ofNat 7 a.toNat)) with
        status := 0#32, result := 0#32 })

/-- R105, WRITE_BYTE: BusUnavailable (1) for a bus that is not ready; else one Write of register and value, whose failure is
TransportError (5). -/
def Obligations.WriteByteSendsOneWrite : Prop :=
  ∀ (s : State) (b r v : Byte),
    decode (0x04#8 ++ b ++ r ++ v) = .ok (.writeByte b r v) ∧
    ((∀ a, ¬ ReadyAt s b a) → exec (.writeByte b r v) s = .next (withError 1 s)) ∧
    (∀ a, ReadyAt s b a → WritesThen s (portOf b) a [[r, v]] (withResult 0#32) (exec (.writeByte b r v) s))

/-- R106, READ_BYTE: BusUnavailable (1) for a bus that is not ready; else one read of one byte, returned in RESULT, whose failure is
TransportError (5). -/
def Obligations.ReadByteReturnsTheByte : Prop :=
  ∀ (s : State) (b r : Byte),
    decode (0x05#8 ++ b ++ r ++ 0#8) = .ok (.readByte b r) ∧
    ((∀ a, ¬ ReadyAt s b a) → exec (.readByte b r) s = .next (withError 1 s)) ∧
    (∀ a, ReadyAt s b a →
      (∀ d, s.env.response (portOf b) (.writeRead a r 1) = .ok [d] →
        exec (.readByte b r) s = .next { s with
          env := s.env.answered (portOf b) (.writeRead a r 1),
          trace := s.trace ++ [.tx (portOf b) (.writeRead a r 1) (.ok [d])], status := 0#32, result := d.setWidth 32 }) ∧
      (s.env.response (portOf b) (.writeRead a r 1) = .fail →
        exec (.readByte b r) s = .next (withError 5 { s with
          env := s.env.answered (portOf b) (.writeRead a r 1),
          trace := s.trace ++ [.tx (portOf b) (.writeRead a r 1) .fail] })))

/-- R107, WRITE_BLOCK: InvalidParameter (4) above 32 bytes; BusUnavailable (1) for a bus that is not ready; else one Write of the
register and DATA[0..n-1], whose failure is TransportError (5). -/
def Obligations.WriteBlockSendsTheDataBytes : Prop :=
  ∀ (s : State) (b r n : Byte),
    decode (0x06#8 ++ b ++ r ++ n) = .ok (.writeBlock b r n) ∧
    (32 < n.toNat → exec (.writeBlock b r n) s = .next (withError 4 s)) ∧
    (n.toNat ≤ 32 → (∀ a, ¬ ReadyAt s b a) → exec (.writeBlock b r n) s = .next (withError 1 s)) ∧
    (n.toNat ≤ 32 → ∀ a, ReadyAt s b a →
      WritesThen s (portOf b) a [r :: (List.range n.toNat).map (fun k => Memory.read s.data k)] (withResult 0#32)
        (exec (.writeBlock b r n) s))

/-- R108, READ_BLOCK: InvalidParameter (4) for 0 bytes or above 32; BusUnavailable (1) for a bus that is not ready; else one read of
n bytes into DATA[0..n-1], DLEN and RESULT n; its failure is TransportError (5) and leaves DATA and DLEN. -/
def Obligations.ReadBlockStoresTheReply : Prop :=
  ∀ (s : State) (b r n : Byte),
    decode (0x07#8 ++ b ++ r ++ n) = .ok (.readBlock b r n) ∧
    (n.toNat = 0 ∨ 32 < n.toNat → exec (.readBlock b r n) s = .next (withError 4 s)) ∧
    (0 < n.toNat → n.toNat ≤ 32 → (∀ a, ¬ ReadyAt s b a) → exec (.readBlock b r n) s = .next (withError 1 s)) ∧
    (0 < n.toNat → n.toNat ≤ 32 → ∀ a, ReadyAt s b a →
      (∀ d, s.env.response (portOf b) (.writeRead a r n.toNat) = .ok d → DataOk s →
        ∃ m, exec (.readBlock b r n) s = .next { s with
            env := s.env.answered (portOf b) (.writeRead a r n.toNat),
            trace := s.trace ++ [.tx (portOf b) (.writeRead a r n.toNat) (.ok d)],
            data := m, dlen := n, status := 0#32, result := BitVec.ofNat 32 n.toNat } ∧
          d.length = n.toNat ∧ (∀ k (h : k < d.length), Memory.read m k = d[k]) ∧
          (∀ k, n.toNat ≤ k → Memory.read m k = Memory.read s.data k)) ∧
      (s.env.response (portOf b) (.writeRead a r n.toNat) = .fail →
        exec (.readBlock b r n) s = .next (withError 5 { s with
          env := s.env.answered (portOf b) (.writeRead a r n.toNat),
          trace := s.trace ++ [.tx (portOf b) (.writeRead a r n.toNat) .fail] })))

/-- R109, SCAN: BusUnavailable (1) for a bus that is not open; else one probe of each address of the range cut to 0x03..0x77, in
ascending order, and the addresses that acknowledge in DATA from 0 on, their number in DLEN and RESULT. -/
def Obligations.ScanListsTheAcknowledgedAddresses : Prop :=
  ∀ (s : State) (b first last : Byte),
    decode (0x08#8 ++ b ++ first ++ last) = .ok (.scan b first last) ∧
    (¬ Opened s b → exec (.scan b first last) s = .next (withError 1 s)) ∧
    (Opened s b → DataOk s →
      let addrs : List Addr := ((List.range 128).filter
        (fun a => decide (max first.toNat 0x03 ≤ a ∧ a ≤ min last.toNat 0x77))).map (BitVec.ofNat 7)
      let found := s.env.found (portOf b) addrs
      ∃ m, exec (.scan b first last) s = .next { s with
          env := s.env.after (portOf b) (addrs.map .probe),
          trace := s.trace ++ s.env.events (portOf b) (addrs.map .probe),
          data := m, dlen := BitVec.ofNat 8 found.length, status := 0#32, result := BitVec.ofNat 32 found.length } ∧
        found.length ≤ 117 ∧
        (∀ k (h : k < found.length), Memory.read m k = found[k].setWidth 8) ∧
        (∀ k, found.length ≤ k → Memory.read m k = Memory.read s.data k))

/-- R210: MGR_CLOSE, and that a second one changes nothing. -/
def Obligations.MgrCloseReleasesEverything : Prop :=
  ∀ (s : State), decode (0x09#8 ++ 0#8 ++ 0#8 ++ 0#8) = .ok .mgrClose ∧ ∃ t, exec .mgrClose s = .next t ∧
    (∀ p : BusIx, t.port p = if p.toNat < s.cfg.nbus.val ∧ (s.port p).opened = true
      then { opened := false, sel := none } else s.port p) ∧
    t.trace = s.trace ++ ((List.range s.cfg.nbus.val).filter (fun b => (s.port (BitVec.ofNat 4 b)).opened)).map
      (fun b => .release (BitVec.ofNat 4 b)) ∧
    t = { s with
      ports := t.ports, trace := t.trace, recPwm := DevRec.cleared, recDisp := DevRec.cleared,
      dbuf := #v[0#16, 0#16, 0#16, 0#16], status := 0#32, result := 0#32 } ∧
    exec .mgrClose t = .next t

/-! ### The PWM unit -/

/-- R145, PWM_DETECT; `Detects` says its three endings. -/
def Obligations.PwmDetectFindsTheFirstCandidate : Prop :=
  ∀ (s : State) (b : Byte), decode (0x10#8 ++ b ++ 0#8 ++ 0#8) = .ok (.pwmDetect b) ∧
    Detects .pwm s.cfg.pwmCandidates s.cfg.pwmMode1 b s (exec (.pwmDetect b) s)

/-- R146, PWM_INIT: DeviceNotFound (2) before detection; else `init` drops, the chip is selected, the sequence is written, and `init`
is set only when every write went well; the first failure is TransportError (5). -/
def Obligations.PwmInitWritesTheModeSequence : Prop :=
  ∀ (s : State),
    decode (0x11#8 ++ 0#8 ++ 0#8 ++ 0#8) = .ok (.pwmInit) ∧
    (s.recPwm.det = false → exec .pwmInit s = .next (withError 2 s)) ∧
    (s.recPwm.det = true →
      WritesThen { s.setSel s.recPwm.bus (some s.recPwm.addr) with recPwm := { s.recPwm with init := false } }
        s.recPwm.bus s.recPwm.addr (s.cfg.pwmInitSeq.map (fun v => [s.cfg.pwmMode1, v]))
        (fun t => { t with recPwm := { s.recPwm with init := true }, result := 0#32 }) (exec .pwmInit s))

/-- R147, PWM_SET: InvalidParameter (4) above channel 16, before NotInitialized (3); channel 16 is the burst of R148, a channel below
it four writes of one byte; the first failure is TransportError (5). -/
def Obligations.PwmSetWritesOneChannel : Prop :=
  ∀ (s : State) (ch : Byte),
    decode (0x12#8 ++ ch ++ 0#8 ++ 0#8) = .ok (.pwmSet ch) ∧
    (16 < ch.toNat → exec (.pwmSet ch) s = .next (withError 4 s)) ∧
    (ch.toNat ≤ 16 → s.recPwm.init = false → exec (.pwmSet ch) s = .next (withError 3 s)) ∧
    (s.recPwm.init = true → ch.toNat = 16 →
      WritesThen (s.setSel s.recPwm.bus (some s.recPwm.addr)) s.recPwm.bus s.recPwm.addr
        [broadcastWrite s.cfg (ticks s.arg0) (ticks s.arg1)] (withResult 0#32) (exec (.pwmSet ch) s)) ∧
    (s.recPwm.init = true → ch.toNat < 16 →
      WritesThen (s.setSel s.recPwm.bus (some s.recPwm.addr)) s.recPwm.bus s.recPwm.addr
        (channelWrites s.cfg ch.toNat (ticks s.arg0) (ticks s.arg1)) (withResult 0#32) (exec (.pwmSet ch) s))

/-- R148, PWM_SET_ALL: NotInitialized (3), else one Write of five bytes, whose failure is TransportError (5). -/
def Obligations.PwmSetAllSendsOneBurst : Prop :=
  ∀ (s : State),
    decode (0x13#8 ++ 0#8 ++ 0#8 ++ 0#8) = .ok (.pwmSetAll) ∧
    (s.recPwm.init = false → exec .pwmSetAll s = .next (withError 3 s)) ∧
    (s.recPwm.init = true →
      WritesThen (s.setSel s.recPwm.bus (some s.recPwm.addr)) s.recPwm.bus s.recPwm.addr
        [broadcastWrite s.cfg (ticks s.arg0) (ticks s.arg1)] (withResult 0#32) (exec .pwmSetAll s))

/-- R149, FAN_SPEED: NotInitialized (3), else the fan channel's four writes with on 0 and off the level, which is RESULT. -/
def Obligations.FanSpeedWritesTheFanChannel : Prop :=
  ∀ (s : State),
    decode (0x14#8 ++ 0#8 ++ 0#8 ++ 0#8) = .ok (.fanSpeed) ∧
    (s.recPwm.init = false → exec .fanSpeed s = .next (withError 3 s)) ∧
    (s.recPwm.init = true →
      WritesThen (s.setSel s.recPwm.bus (some s.recPwm.addr)) s.recPwm.bus s.recPwm.addr
        (channelWrites s.cfg s.cfg.fanChannel.val 0#12 (level s.arg0))
        (withResult (BitVec.ofNat 32 (level s.arg0).toNat)) (exec .fanSpeed s))

/-- R150, LED_COLOR: NotInitialized (3), else twelve writes: red, green, blue. -/
def Obligations.LedColorWritesThreeChannels : Prop :=
  ∀ (s : State),
    decode (0x15#8 ++ 0#8 ++ 0#8 ++ 0#8) = .ok (.ledColor) ∧
    (s.recPwm.init = false → exec .ledColor s = .next (withError 3 s)) ∧
    (s.recPwm.init = true →
      WritesThen (s.setSel s.recPwm.bus (some s.recPwm.addr)) s.recPwm.bus s.recPwm.addr
        (channelWrites s.cfg s.cfg.ledR.val 0#12 (level s.arg0) ++
          channelWrites s.cfg s.cfg.ledG.val 0#12 (level s.arg1) ++
          channelWrites s.cfg s.cfg.ledB.val 0#12 (level s.arg2))
        (withResult 0#32) (exec .ledColor s))

/-- R142: `ticks` clamps the signed ARG value to 0..4095. -/
def Obligations.TicksClampTheOperand : Prop :=
  ∀ x : Word,
    (x.toInt ≤ 0 → (ticks x).toNat = 0) ∧
    (0 ≤ x.toInt → x.toInt ≤ 4095 → ((ticks x).toNat : Int) = x.toInt) ∧
    (4095 ≤ x.toInt → (ticks x).toNat = 4095)

/-- R143: `level` is `(4095 * L + 50) div 100` of the clamped percentage, which is 4095 * L / 100 rounded half up. -/
def Obligations.LevelRoundsHalfUp : Prop :=
  ∀ (x : Word) (l : Nat), (l : Int) = min (max x.toInt 0) 100 →
    (level x).toNat = (4095 * l + 50) / 100 ∧
    100 * (level x).toNat ≤ 4095 * l + 50 ∧ 4095 * l < 100 * (level x).toNat + 50 ∧ (level x).toNat ≤ 4095

/-- R144: the properties of `level`. -/
def Obligations.LevelProperties : Prop :=
  level 0#32 = 0#12 ∧ level 100#32 = 4095#12 ∧
  (∀ x y : Word, 0 ≤ x.toInt → x.toInt ≤ y.toInt → y.toInt ≤ 100 → (level x).toNat ≤ (level y).toNat) ∧
  (∀ x : Word, x.toInt < 0 → level x = level 0#32) ∧ (∀ x : Word, 100 < x.toInt → level x = level 100#32)

/-! ### The display and keypad unit -/

/-- R173, DISP_DETECT; `Detects` says its three endings. -/
def Obligations.DispDetectFindsTheFirstCandidate : Prop :=
  ∀ (s : State) (b : Byte), decode (0x20#8 ++ b ++ 0#8 ++ 0#8) = .ok (.dispDetect b) ∧
    Detects .disp s.cfg.dispCandidates s.cfg.dispProbeReg b s (exec (.dispDetect b) s)

/-- R174, DISP_INIT: DeviceNotFound (2) before detection; else `init` drops, the chip is selected, the two command bytes are sent, and
`init` is set only when both went well; the first failure is TransportError (5). -/
def Obligations.DispInitSendsTheStartUpBytes : Prop :=
  ∀ (s : State),
    decode (0x21#8 ++ 0#8 ++ 0#8 ++ 0#8) = .ok (.dispInit) ∧
    (s.recDisp.det = false → exec .dispInit s = .next (withError 2 s)) ∧
    (s.recDisp.det = true →
      WritesThen { s.setSel s.recDisp.bus (some s.recDisp.addr) with recDisp := { s.recDisp with init := false } }
        s.recDisp.bus s.recDisp.addr [[s.cfg.dispStandbyOff], [s.cfg.dispDisplayOn]]
        (fun t => { t with recDisp := { s.recDisp with init := true }, result := 0#32 }) (exec .dispInit s))

/-- R175, DISP_CLEAR: NotInitialized (3), else four blank digits are sent; the buffer is blank even when a write fails. -/
def Obligations.DispClearBlanksTheDigits : Prop :=
  ∀ (s : State),
    decode (0x22#8 ++ 0#8 ++ 0#8 ++ 0#8) = .ok (.dispClear) ∧
    (s.recDisp.init = false → exec .dispClear s = .next (withError 3 s)) ∧
    (s.recDisp.init = true →
      WritesThen { s.setSel s.recDisp.bus (some s.recDisp.addr) with dbuf := #v[0#16, 0#16, 0#16, 0#16] }
        s.recDisp.bus s.recDisp.addr
        [[s.cfg.digitReg[0], 0#8, 0#8], [s.cfg.digitReg[1], 0#8, 0#8], [s.cfg.digitReg[2], 0#8, 0#8],
          [s.cfg.digitReg[3], 0#8, 0#8]]
        (withResult 0#32) (exec .dispClear s))

/-- R176, DISP_CHAR_L: InvalidParameter (4) above index 3, before NotInitialized (3); else the slot counted from the left takes the
character's bitmap, the digit is sent, and the bitmap is RESULT. -/
def Obligations.DispCharLeftWritesTheSlot : Prop :=
  ∀ (s : State) (idx c : Byte),
    decode (0x23#8 ++ idx ++ c ++ 0#8) = .ok (.dispCharL idx c) ∧
    (3 < idx.toNat → exec (.dispCharL idx c) s = .next (withError 4 s)) ∧
    (idx.toNat ≤ 3 → s.recDisp.init = false → exec (.dispCharL idx c) s = .next (withError 3 s)) ∧
    (s.recDisp.init = true → ∀ slot : Fin 4, slot.val = idx.toNat →
      WritesThen { s.setSel s.recDisp.bus (some s.recDisp.addr) with dbuf := s.dbuf.set slot (charBitmap s.cfg c) }
        s.recDisp.bus s.recDisp.addr [digitWrite s.cfg slot (charBitmap s.cfg c)]
        (withResult (BitVec.ofNat 32 (charBitmap s.cfg c).toNat)) (exec (.dispCharL idx c) s))

/-- R177, DISP_CHAR_R: as DISP_CHAR_L, the slot counted from the right. -/
def Obligations.DispCharRightWritesTheSlot : Prop :=
  ∀ (s : State) (idx c : Byte),
    decode (0x24#8 ++ idx ++ c ++ 0#8) = .ok (.dispCharR idx c) ∧
    (3 < idx.toNat → exec (.dispCharR idx c) s = .next (withError 4 s)) ∧
    (idx.toNat ≤ 3 → s.recDisp.init = false → exec (.dispCharR idx c) s = .next (withError 3 s)) ∧
    (s.recDisp.init = true → ∀ slot : Fin 4, slot.val + idx.toNat = 3 →
      WritesThen { s.setSel s.recDisp.bus (some s.recDisp.addr) with dbuf := s.dbuf.set slot (charBitmap s.cfg c) }
        s.recDisp.bus s.recDisp.addr [digitWrite s.cfg slot (charBitmap s.cfg c)]
        (withResult (BitVec.ofNat 32 (charBitmap s.cfg c).toNat)) (exec (.dispCharR idx c) s))

/-- R178: the layout of a text, slot by slot. -/
def Obligations.LayoutAlignsAndCuts : Prop :=
  ∀ (cfg : Params) (t : List Byte) (i : Fin 4),
    (∀ (h : 4 ≤ t.length), (layout cfg t true)[i] = charBitmap cfg t[t.length - 4 + i.val] ∧
      (layout cfg t false)[i] = charBitmap cfg t[i.val]) ∧
    (t.length < 4 →
      (i.val < 4 - t.length → (layout cfg t true)[i] = 0x0000#16) ∧
      (∀ (h : 4 - t.length ≤ i.val) (h2 : i.val - (4 - t.length) < t.length),
        (layout cfg t true)[i] = charBitmap cfg t[i.val - (4 - t.length)]) ∧
      (∀ (h : i.val < t.length), (layout cfg t false)[i] = charBitmap cfg t[i.val]) ∧
      (t.length ≤ i.val → (layout cfg t false)[i] = 0x0000#16))

/-- R179, DISP_STRING: InvalidParameter (4) for DLEN above 128, before NotInitialized (3); else the buffer takes the layout of
DATA[0..DLEN-1] and the four digits are sent. -/
def Obligations.DispStringShowsTheLayout : Prop :=
  ∀ (s : State) (right : Bool),
    decode (0x25#8 ++ (if right then 1#8 else 0#8) ++ 0#8 ++ 0#8) = .ok (.dispString right) ∧
    (128 < s.dlen.toNat → exec (.dispString right) s = .next (withError 4 s)) ∧
    (s.dlen.toNat ≤ 128 → s.recDisp.init = false → exec (.dispString right) s = .next (withError 3 s)) ∧
    (s.dlen.toNat ≤ 128 → s.recDisp.init = true →
      let slots := layout s.cfg ((List.range s.dlen.toNat).map (fun k => Memory.read s.data k)) right
      WritesThen { s.setSel s.recDisp.bus (some s.recDisp.addr) with dbuf := slots } s.recDisp.bus s.recDisp.addr
        [digitWrite s.cfg 0 slots[0], digitWrite s.cfg 1 slots[1], digitWrite s.cfg 2 slots[2],
          digitWrite s.cfg 3 slots[3]]
        (withResult 0#32) (exec (.dispString right) s))

/-- R180 and R181: the key decode. Key (r, c) is pressed when bit c of row r's word is 1. The result is 0 when no key is
pressed, and else the smallest identifier of a pressed key. -/
def Obligations.KeyDecodeTakesTheLowestKey : Prop :=
  ∀ (cfg : Params) (d : List Byte),
    let pressed := fun r c : Nat => r < cfg.keyRows ∧ c < cfg.keyCols ∧
      ((d.getD (2 * r) 0#8).toNat + 256 * (d.getD (2 * r + 1) 0#8).toNat).testBit c = true
    ((∀ r c, ¬ pressed r c) → decodeKey cfg d = 0) ∧
    (∀ r c, pressed r c → (∀ r' c', pressed r' c' → r * cfg.keyCols + c ≤ r' * cfg.keyCols + c') →
      decodeKey cfg d = 1 + r * cfg.keyCols + c)

/-- R182, READ_KEY: NotInitialized (3), else one read of the row registers, decoded into RESULT; its failure is TransportError (5). -/
def Obligations.ReadKeyDecodesTheKeypad : Prop :=
  ∀ (s : State),
    decode (0x26#8 ++ 0#8 ++ 0#8 ++ 0#8) = .ok (.readKey) ∧
    (s.recDisp.init = false → exec .readKey s = .next (withError 3 s)) ∧
    (s.recDisp.init = true →
      let t := Tx.writeRead s.recDisp.addr s.cfg.keyBase (2 * s.cfg.keyRows)
      (∀ d, s.env.response s.recDisp.bus t = .ok d →
        exec .readKey s = .next { s.setSel s.recDisp.bus (some s.recDisp.addr) with
          env := s.env.answered s.recDisp.bus t, trace := s.trace ++ [.tx s.recDisp.bus t (.ok d)],
          status := 0#32, result := BitVec.ofNat 32 (decodeKey s.cfg d) } ∧ d.length = 2 * s.cfg.keyRows) ∧
      (s.env.response s.recDisp.bus t = .fail →
        exec .readKey s = .next (withError 5 { s.setSel s.recDisp.bus (some s.recDisp.addr) with
          env := s.env.answered s.recDisp.bus t, trace := s.trace ++ [.tx s.recDisp.bus t .fail] })))

/-- R170, R171: the default character map is R171's table, row by row; a byte outside the table is blank, no bitmap has bit 15,
and the lower-case letters are blank. -/
def Obligations.DefaultCharacterMapBlanksTheRest : Prop :=
  (∀ e ∈ ([(0x20#8, 0x0000#16), (0x2D#8, 0x00C0#16)] ++
    [(0x30#8, 0x0C3F#16), (0x31#8, 0x0006#16), (0x32#8, 0x00DB#16), (0x33#8, 0x00CF#16), (0x34#8, 0x00E6#16),
     (0x35#8, 0x00ED#16), (0x36#8, 0x00FD#16), (0x37#8, 0x0007#16), (0x38#8, 0x00FF#16), (0x39#8, 0x00EF#16)] ++
    [(0x41#8, 0x00F7#16), (0x42#8, 0x128F#16), (0x43#8, 0x0039#16), (0x44#8, 0x120F#16), (0x45#8, 0x00F9#16),
     (0x46#8, 0x00F1#16), (0x47#8, 0x00BD#16), (0x48#8, 0x00F6#16), (0x49#8, 0x1209#16), (0x4A#8, 0x001E#16),
     (0x4B#8, 0x2470#16), (0x4C#8, 0x0038#16), (0x4D#8, 0x0536#16)] ++
    [(0x4E#8, 0x2136#16), (0x4F#8, 0x003F#16), (0x50#8, 0x00F3#16), (0x51#8, 0x203F#16), (0x52#8, 0x20F3#16),
     (0x53#8, 0x00ED#16), (0x54#8, 0x1201#16), (0x55#8, 0x003E#16), (0x56#8, 0x0C30#16), (0x57#8, 0x2836#16),
     (0x58#8, 0x2D00#16), (0x59#8, 0x1500#16), (0x5A#8, 0x0C09#16)] : List (Byte × Bitmap)),
    charBitmap State.reset.cfg e.1 = e.2) ∧
  (∀ c : Byte, c.toNat ≠ 0x2D → c.toNat < 0x30 ∨ (0x3A ≤ c.toNat ∧ c.toNat ≤ 0x40) ∨ 0x5A < c.toNat →
    charBitmap State.reset.cfg c = 0x0000#16) ∧
  (∀ c : Byte, (charBitmap State.reset.cfg c).getLsbD 15 = false) ∧
  (∀ c : Byte, 0x61 ≤ c.toNat → c.toNat ≤ 0x7A → charBitmap State.reset.cfg c = 0x0000#16)

/-! ### What a command leaves unchanged -/

/-- R33: no command writes an operand register. No command writes CMD, the parameters, the host's later accesses or what its
reads returned either. -/
def Obligations.CommandsLeaveTheOperandRegisters : Prop :=
  ∀ (i : Instr) (s t : State), exec i s = .next t →
    t.arg0 = s.arg0 ∧ t.arg1 = s.arg1 ∧ t.arg2 = s.arg2 ∧ t.cmd = s.cmd ∧ t.cfg = s.cfg ∧ t.inputs = s.inputs ∧
    t.reads = s.reads

/-- R35, R34: every command but READ_BLOCK and SCAN leaves every byte of DATA, and DLEN, as they were, and those two leave
the bytes from DLEN up. -/
def Obligations.OnlyReadBlockAndScanWriteData : Prop :=
  ∀ (i : Instr) (s t : State), exec i s = .next t →
    ((∀ b r n, i ≠ .readBlock b r n) → (∀ b first last, i ≠ .scan b first last) →
      t.dlen = s.dlen ∧ ∀ a, Memory.read t.data a = Memory.read s.data a) ∧
    ((∃ b r n, i = .readBlock b r n) ∨ (∃ b first last, i = .scan b first last) →
      ∀ a, t.dlen.toNat ≤ a → t.status = 0#32 → Memory.read t.data a = Memory.read s.data a) ∧
    (t.status ≠ 0#32 → t.dlen = s.dlen ∧ ∀ a, Memory.read t.data a = Memory.read s.data a)

/-- R29: only DISP_CLEAR, DISP_CHAR_L, DISP_CHAR_R, DISP_STRING and MGR_CLOSE change the display buffer. -/
def Obligations.OnlyDisplayWritesChangeTheBuffer : Prop :=
  ∀ (i : Instr) (s t : State), exec i s = .next t → i ≠ .dispClear → i ≠ .mgrClose →
    (∀ idx c, i ≠ .dispCharL idx c) → (∀ idx c, i ≠ .dispCharR idx c) → (∀ right, i ≠ .dispString right) → t.dbuf = s.dbuf

/-- R27, R28: a device record changes only by its unit's DETECT and INIT, by BUS_CLOSE and by MGR_CLOSE. -/
def Obligations.RecordsChangeOnlyByDetectInitAndClose : Prop :=
  ∀ (i : Instr) (s t : State), exec i s = .next t → i ≠ .mgrClose → (∀ b, i ≠ .busClose b) →
    ((∀ b, i ≠ .pwmDetect b) → i ≠ .pwmInit → t.recPwm = s.recPwm) ∧
    ((∀ b, i ≠ .dispDetect b) → i ≠ .dispInit → t.recDisp = s.recDisp)

/-- R23: a port is opened only by the BUS_OPEN of its bus, and among the commands closed only by the BUS_CLOSE of its bus or
by MGR_CLOSE. -/
def Obligations.PortsOpenAndCloseOnlyByTheirCommands : Prop :=
  ∀ (i : Instr) (s t : State) (p : BusIx), exec i s = .next t →
    ((s.port p).opened = false → (t.port p).opened = true → ∃ b : Byte, i = .busOpen b ∧ b.toNat = p.toNat) ∧
    ((s.port p).opened = true → (t.port p).opened = false →
      i = .mgrClose ∨ ∃ b : Byte, i = .busClose b ∧ b.toNat = p.toNat)

/-- R24: a port's selected target changes only by SET_ADDR, BUS_OPEN, BUS_CLOSE and the DETECT commands on that bus, by
MGR_CLOSE, and by a unit's commands on the bus of its record. -/
def Obligations.TargetsChangeOnlyByTheirCommands : Prop :=
  ∀ (i : Instr) (s t : State) (p : BusIx), exec i s = .next t → (t.port p).sel ≠ (s.port p).sel →
    i = .mgrClose ∨
    (∃ b : Byte, b.toNat = p.toNat ∧ ((∃ a, i = .setAddr b a) ∨ i = .busOpen b ∨ i = .busClose b ∨ i = .pwmDetect b ∨
      i = .dispDetect b)) ∨
    (p = s.recPwm.bus ∧ (i = .pwmInit ∨ (∃ ch, i = .pwmSet ch) ∨ i = .pwmSetAll ∨ i = .fanSpeed ∨ i = .ledColor)) ∨
    (p = s.recDisp.bus ∧ (i = .dispInit ∨ i = .dispClear ∨ (∃ idx c, i = .dispCharL idx c) ∨
      (∃ idx c, i = .dispCharR idx c) ∨ (∃ right, i = .dispString right) ∨ i = .readKey))

/-- R38: the trace is append-only, over every step; reset does not erase it. R61: with well-formed parameters (two of the bounds
are the model's deduction, log entry 18), no transfer that a command but WRITE_BLOCK and READ_BLOCK appends reaches past device
register 0xFF. -/
def Obligations.TraceIsAppendOnly : Prop :=
  (∀ (s t : State), step s = .next t → ∃ evs, t.trace = s.trace ++ evs) ∧
  (∀ (i : Instr) (s t : State), s.cfg.wf = true → (∀ b r n, i ≠ .writeBlock b r n) → (∀ b r n, i ≠ .readBlock b r n) →
    exec i s = .next t → ∃ evs, t.trace = s.trace ++ evs ∧ ∀ ev ∈ evs, eventInRegisters ev = true)

/-! ### Invariants -/

/-- DATA keeps its canonical form and its 128 bytes, over every step (R35, R54). -/
def Obligations.StepKeepsDataCanonical : Prop :=
  ∀ (s t : State), DataOk s → step s = .next t → DataOk t

/-- R26 and R28, over every step: a closed port has no target; init implies det, det implies the record's bus is open, and an
undetected record is zero. -/
def Obligations.StepKeepsPortsAndRecords : Prop :=
  ∀ (s t : State), PortsOk s → RecOk s .pwm → RecOk s .disp → step s = .next t →
    PortsOk t ∧ RecOk t .pwm ∧ RecOk t .disp

/-- R30, R31 and R220, over every step: STATUS holds a code from 0 to 6 and nothing above it, and RESULT is 0 after any
error. -/
def Obligations.StepKeepsTheOutcome : Prop :=
  ∀ (s t : State), OutcomeOk s → step s = .next t → OutcomeOk t

/-- Every invariant of a sound state, over every step: besides the three above, only ports below NBUS are open, targets lie in
0x03..0x77, and every event of the trace is a transaction and a response of R57's shape, to an address in that range (R23, R26,
R28, R30, R56, R57). -/
def Obligations.StepKeepsSoundness : Prop :=
  ∀ (s t : State), Sound s → step s = .next t → Sound t

/-- The state right after reset is sound. -/
def Obligations.ResetStateIsSound : Prop := Sound State.reset

/-- R6: no step changes a parameter. -/
def Obligations.StepKeepsTheParameters : Prop :=
  ∀ (s t : State), step s = .next t → t.cfg = s.cfg

/-! ### Whole-machine rules -/

/-- R222: a command ends with success or with one of the error codes its row lists. -/
def Obligations.CommandsEndWithTheirListedCodes : Prop :=
  ∀ (i : Instr) (s t : State), exec i s = .next t → t.status.toNat = 0 ∨ t.status.toNat ∈ errorCodes i

/-- R272: how many transactions a command that ends in success has issued. -/
def Obligations.SuccessfulCommandsIssueTheListedTransactions : Prop :=
  ∀ (i : Instr) (s t : State), exec i s = .next t → t.status = 0#32 → ∃ evs, t.trace = s.trace ++ evs ∧
    match i with
    | .busOpen _ | .busClose _ | .setAddr _ _ | .mgrClose => txCount evs = 0
    | .writeByte _ _ _ | .readByte _ _ | .writeBlock _ _ _ | .readBlock _ _ _ => txCount evs = 1
    | .scan _ first last => txCount evs = min last.toNat 0x77 + 1 - max first.toNat 0x03
    | .pwmDetect _ => ∃ pre a post, s.cfg.pwmCandidates = pre ++ a :: post ∧ txCount evs = 1 + pre.length ∧
        t.recPwm.addr = a
    | .dispDetect _ => ∃ pre a post, s.cfg.dispCandidates = pre ++ a :: post ∧ txCount evs = 1 + pre.length ∧
        t.recDisp.addr = a
    | .pwmInit => txCount evs = s.cfg.pwmInitSeq.length
    | .pwmSet ch => txCount evs = if ch.toNat = 16 then 1 else 4
    | .fanSpeed => txCount evs = 4
    | .pwmSetAll => txCount evs = 1
    | .ledColor => txCount evs = 12
    | .dispInit => txCount evs = 2
    | .dispClear | .dispString _ => txCount evs = 4
    | .dispCharL _ _ | .dispCharR _ _ => txCount evs = 1
    | .readKey => txCount evs = 1

/-- R232 with R57's shapes: the environment's response always has R57's shape, every response of that shape is some
environment's, and so is every answer to `ExtHeld`. -/
def Obligations.EveryAnswerOfItsShapeIsDrawn : Prop :=
  (∀ (e : Env) (p : BusIx) (t : Tx), e.response p t = .fail ∨
    ∃ d, e.response p t = .ok d ∧ d.length = (match t with
      | .write _ _ => 0
      | .writeRead _ _ n => n
      | .probe _ => 0)) ∧
  (∀ (p : BusIx) (t : Tx) (r : Response), (r = .fail ∨ ∃ d, r = .ok d ∧ d.length = (match t with
      | .write _ _ => 0
      | .writeRead _ _ n => n
      | .probe _ => 0)) → ∃ e : Env, e.response p t = r) ∧
  (∀ h : Bool, ∃ e : Env, e.isHeld = h)

/-- R236: the reference environment's answers, where nothing is scripted: Fail where no device is; else a Write and a Probe are
acknowledged and a read returns the registers from `r` on. A Write of `[r] ++ data` stores `data[k]` at register `(r + k) mod 256`
for each k in order, so that the last byte written to a register stays, and leaves the device's other registers; a read and a
probe change no device, and no transaction changes what another device answers. -/
def Obligations.ReferenceEnvironmentAnswers : Prop :=
  ∀ (e : Env) (ds : List Device) (b : BusIx) (t : Tx), e.script = [] → e.devs = some ds →
    (ds.find? (fun d => decide (d.bus = b ∧ d.addr = txAddr t)) = none →
      e.response b t = .fail ∧ (e.answered b t).devs = some ds) ∧
    (∀ d, ds.find? (fun d => decide (d.bus = b ∧ d.addr = txAddr t)) = some d →
      (match t with
        | .write a m => e.response b t = .ok [] ∧ ∀ r data, m = r :: data → Memory.wf 256 d.regs = true →
            (∀ k (h : k < data.length),
              (∀ j, k < j → j < data.length → (r.toNat + j) % 256 ≠ (r.toNat + k) % 256) →
              (e.answered b t).response b (.writeRead a (BitVec.ofNat 8 ((r.toNat + k) % 256)) 1) = .ok [data[k]]) ∧
            (∀ x : Byte, (∀ k, k < data.length → (r.toNat + k) % 256 ≠ x.toNat) →
              (e.answered b t).response b (.writeRead a x 1) = .ok [Memory.read d.regs x.toNat])
        | .writeRead _ r n =>
            e.response b t = .ok ((List.range n).map (fun k => Memory.read d.regs ((r.toNat + k) % 256))) ∧
            (e.answered b t).devs = some ds
        | .probe _ => e.response b t = .ok [] ∧ (e.answered b t).devs = some ds)) ∧
    (∀ (b' : BusIx) (t' : Tx), b' ≠ b ∨ txAddr t' ≠ txAddr t → (e.answered b t).response b' t' = e.response b' t') ∧
    (e.held = [] → e.isHeld = false)

/-- R268 and R267: a DETECT leaves its unit uninitialised whatever its outcome, an uninitialised unit's commands raise
NotInitialized, and a unit command that gets past its checks leaves its device selected on the record's bus. -/
def Obligations.DetectDropsTheUnitAndCommandsReselect : Prop :=
  (∀ (s t : State) (b : Byte),
    (exec (.pwmDetect b) s = .next t → t.recPwm.init = false) ∧
    (exec (.dispDetect b) s = .next t → t.recDisp.init = false)) ∧
  (∀ (s : State) (i : Instr), s.recPwm.init = false →
    (∃ ch : Byte, ch.toNat ≤ 16 ∧ i = .pwmSet ch) ∨ i = .pwmSetAll ∨ i = .fanSpeed ∨ i = .ledColor →
    exec i s = .next (withError 3 s)) ∧
  (∀ (s : State) (i : Instr), s.recDisp.init = false →
    i = .dispClear ∨ (∃ idx c : Byte, idx.toNat ≤ 3 ∧ (i = .dispCharL idx c ∨ i = .dispCharR idx c)) ∨
      (∃ right, s.dlen.toNat ≤ 128 ∧ i = .dispString right) ∨ i = .readKey →
    exec i s = .next (withError 3 s)) ∧
  (∀ (s t : State) (i : Instr), exec i s = .next t → s.recPwm.init = true →
    (∃ ch : Byte, ch.toNat ≤ 16 ∧ i = .pwmSet ch) ∨ i = .pwmSetAll ∨ i = .fanSpeed ∨ i = .ledColor →
    (t.port s.recPwm.bus).sel = some s.recPwm.addr) ∧
  (∀ (s t : State) (i : Instr), exec i s = .next t → s.recDisp.init = true →
    i = .dispClear ∨ (∃ idx c : Byte, idx.toNat ≤ 3 ∧ (i = .dispCharL idx c ∨ i = .dispCharR idx c)) ∨
      (∃ right, s.dlen.toNat ≤ 128 ∧ i = .dispString right) ∨ i = .readKey →
    (t.port s.recDisp.bus).sel = some s.recDisp.addr)

/-- R211: the host procedure `scan_buses(lo, hi)`, where no bus is held elsewhere, never stops and leaves open exactly the
buses that were open and the present buses below NBUS in its range. -/
def Obligations.ScanBusesOpensEveryFreeBus : Prop :=
  ∀ (s : State) (ds : List Device) (lo hi : Byte), s.env.devs = some ds → s.env.held = [] →
    ∃ t, scanBuses lo hi s = .next t ∧
      ∀ p : BusIx, (t.port p).opened = ((s.port p).opened ||
        (decide (lo.toNat ≤ p.toNat ∧ p.toNat ≤ hi.toNat ∧ p.toNat < s.cfg.nbus.val) && s.cfg.busPresent[p.toFin]))

/-- R212: the host procedure `scan_devices()` never stops; it leaves a registered unit's record and every port's openness as they
were, and issues no command where both units are registered. With reference devices a unit that was not registered is registered
afterwards exactly when an open bus carries one of its candidates, and its record then names the lowest such bus and the first
candidate there. On one open bus that carries both chips the events are those of PWM_DETECT, PWM_INIT, DISP_DETECT and DISP_INIT,
in that order. -/
def Obligations.ScanDevicesKeepsRegisteredUnits : Prop :=
  (∀ s : State, ∃ t, scanDevices s = .next t) ∧
  (∀ s : State, s.recPwm.init = true → s.recDisp.init = true → scanDevices s = .next s) ∧
  (∀ s t : State, scanDevices s = .next t →
    (∀ u : Chip, (s.unitRec u).init = true → t.unitRec u = s.unitRec u) ∧
    (∀ p : BusIx, (t.port p).opened = (s.port p).opened)) ∧
  (∀ (s t : State) (ds : List Device) (u : Chip), s.env.script = [] → s.env.devs = some ds → scanDevices s = .next t →
    (s.unitRec u).init = false →
    ((t.unitRec u).init = true ↔ ∃ p, OpenBus s p ∧ ∃ a ∈ candidates s.cfg u, DeviceAt ds p a) ∧
    (∀ p pre a post, OpenBus s p → candidates s.cfg u = pre ++ a :: post → DeviceAt ds p a →
      (∀ c ∈ pre, ¬ DeviceAt ds p c) →
      (∀ q : BusIx, q.toNat < p.toNat → OpenBus s q → ∀ c ∈ candidates s.cfg u, ¬ DeviceAt ds q c) →
      t.unitRec u = { det := true, init := true, bus := p, addr := a })) ∧
  (∀ (s t : State) (ds : List Device) (p : BusIx) (pre post pre' post' : List Addr) (a a' : Addr),
    s.env.script = [] → s.env.devs = some ds → scanDevices s = .next t →
    s.recPwm.init = false → s.recDisp.init = false → (∀ q, OpenBus s q ↔ q = p) →
    s.cfg.pwmCandidates = pre ++ a :: post → DeviceAt ds p a → (∀ c ∈ pre, ¬ DeviceAt ds p c) →
    s.cfg.dispCandidates = pre' ++ a' :: post' → DeviceAt ds p a' → (∀ c ∈ pre', ¬ DeviceAt ds p c) →
    ∃ v v', t.trace = s.trace ++
      (pre.map (fun c => .tx p (.writeRead c s.cfg.pwmMode1 1) .fail) ++
        [.tx p (.writeRead a s.cfg.pwmMode1 1) (.ok [v])] ++
        okWrites p a (s.cfg.pwmInitSeq.map (fun m => [s.cfg.pwmMode1, m]))) ++
      (pre'.map (fun c => .tx p (.writeRead c s.cfg.dispProbeReg 1) .fail) ++
        [.tx p (.writeRead a' s.cfg.dispProbeReg 1) (.ok [v'])] ++
        okWrites p a' [[s.cfg.dispStandbyOff], [s.cfg.dispDisplayOn]]))
end

