-- ==== Sys2Proof/Laws/Decode.lean ====
section
/-! SUPPORT. The fields of a command word (30_encoding R80) and what matching a row of the opcode map says of them (R81 to
R83). -/

namespace Sys2Proof

/-- The opcode of a word laid out from its fields. -/
@[simp] theorem fieldOpc_wordOf (o a b c : Byte) : fieldOpc (wordOf o a b c) = o := by
  apply BitVec.eq_of_getLsbD_eq
  intro i hi
  simp only [fieldOpc, wordOf, BitVec.getLsbD_append, BitVec.getLsbD_extractLsb', hi]
  rw [if_neg (by omega), if_neg (by omega), if_neg (by omega)]
  simp only [decide_true, Bool.true_and]
  congr 1
  omega

/-- The A field of a word laid out from its fields. -/
@[simp] theorem fieldA_wordOf (o a b c : Byte) : fieldA (wordOf o a b c) = a := by
  apply BitVec.eq_of_getLsbD_eq
  intro i hi
  simp only [fieldA, wordOf, BitVec.getLsbD_append, BitVec.getLsbD_extractLsb', hi]
  rw [if_neg (by omega), if_neg (by omega), if_pos (by omega)]
  simp only [decide_true, Bool.true_and]
  congr 1
  omega

/-- The B field of a word laid out from its fields. -/
@[simp] theorem fieldB_wordOf (o a b c : Byte) : fieldB (wordOf o a b c) = b := by
  apply BitVec.eq_of_getLsbD_eq
  intro i hi
  simp only [fieldB, wordOf, BitVec.getLsbD_append, BitVec.getLsbD_extractLsb', hi]
  rw [if_neg (by omega), if_pos (by omega)]
  simp

/-- The C field of a word laid out from its fields. -/
@[simp] theorem fieldC_wordOf (o a b c : Byte) : fieldC (wordOf o a b c) = c := by
  apply BitVec.eq_of_getLsbD_eq
  intro i hi
  simp only [fieldC, wordOf, BitVec.getLsbD_append, BitVec.getLsbD_extractLsb', hi]
  rw [if_pos (by omega)]
  simp

/-- A word laid out from its fields, as a number. -/
theorem wordOf_toNat (o a b c : Byte) :
    (wordOf o a b c).toNat = o.toNat * 2 ^ 24 + a.toNat * 2 ^ 16 + b.toNat * 2 ^ 8 + c.toNat := by
  have ha := a.isLt
  have hb := b.isLt
  have hc := c.isLt
  unfold wordOf
  rw [BitVec.toNat_append, BitVec.toNat_append, BitVec.toNat_append]
  rw [← Nat.shiftLeft_add_eq_or_of_lt hc, ← Nat.shiftLeft_add_eq_or_of_lt hb, ← Nat.shiftLeft_add_eq_or_of_lt ha]
  simp [Nat.shiftLeft_eq]
  omega

/-- The opcode of a word as a number. -/
theorem fieldOpc_toNat (w : Word) : (fieldOpc w).toNat = w.toNat / 2 ^ 24 := by
  have := w.isLt
  simp [fieldOpc, BitVec.extractLsb'_toNat, Nat.shiftRight_eq_div_pow]
  omega

/-- Every word is laid out from its own fields. -/
theorem wordOf_fields (w : Word) : wordOf (fieldOpc w) (fieldA w) (fieldB w) (fieldC w) = w := by
  apply BitVec.eq_of_toNat_eq
  rw [wordOf_toNat]
  have := w.isLt
  simp [fieldOpc, fieldA, fieldB, fieldC, BitVec.extractLsb'_toNat, Nat.shiftRight_eq_div_pow]
  omega

/-- The bits of a byte under a full mask. -/
theorem and_fullMask (x : Byte) : x &&& 0xFF#8 = x := by
  have h : (0xFF#8) = BitVec.allOnes 8 := rfl
  rw [h, BitVec.and_allOnes]

/-- A word masked field by field. -/
theorem wordOf_and (o a b c m1 m2 m3 : Byte) :
    wordOf o a b c &&& wordOf 0xFF#8 m1 m2 m3 = wordOf o (a &&& m1) (b &&& m2) (c &&& m3) := by
  unfold wordOf
  rw [BitVec.and_append, BitVec.and_append, BitVec.and_append, and_fullMask]

/-- The column `match` of a row is its opcode with zero fields. -/
theorem opcodeMatch_eq (o : Byte) : opcodeMatch o = wordOf o 0#8 0#8 0#8 := by
  apply BitVec.eq_of_toNat_eq
  rw [wordOf_toNat]
  have h : (opcodeMatch o).toNat = ((o ++ (0#24) : BitVec (8 + 24))).toNat := rfl
  rw [h, BitVec.toNat_append]
  simp [Nat.shiftLeft_eq]

/-- Two words laid out from equal fields, and only those, are equal. -/
theorem wordOf_inj {o a b c o' a' b' c' : Byte} (h : wordOf o a b c = wordOf o' a' b' c') :
    o = o' ∧ a = a' ∧ b = b' ∧ c = c' := by
  have ho := congrArg fieldOpc h
  have ha := congrArg fieldA h
  have hb := congrArg fieldB h
  have hc := congrArg fieldC h
  rw [fieldOpc_wordOf, fieldOpc_wordOf] at ho
  rw [fieldA_wordOf, fieldA_wordOf] at ha
  rw [fieldB_wordOf, fieldB_wordOf] at hb
  rw [fieldC_wordOf, fieldC_wordOf] at hc
  exact ⟨ho, ha, hb, hc⟩

/-- The reserved bits of a format, byte by byte: A, B and C (R81). -/
def reservedBytes : Format → Byte × Byte × Byte
  | .f0 => (0xFF#8, 0xFF#8, 0xFF#8)
  | .fa => (0#8, 0xFF#8, 0xFF#8)
  | .fa1 => (0xFE#8, 0xFF#8, 0xFF#8)
  | .fab => (0#8, 0#8, 0xFF#8)
  | .fabc => (0#8, 0#8, 0#8)

/-- A format's mask is the opcode and its reserved bits. -/
theorem formatMask_eq (f : Format) :
    formatMask f = wordOf 0xFF#8 (reservedBytes f).1 (reservedBytes f).2.1 (reservedBytes f).2.2 := by
  cases f <;> decide

/-- A word matches its row exactly when its reserved bits are 0 (R82, R83). -/
theorem rowMatches_wordOf (o a b c : Byte) (f : Format) :
    rowMatches o f (wordOf o a b c) =
      decide (a &&& (reservedBytes f).1 = 0#8 ∧ b &&& (reservedBytes f).2.1 = 0#8 ∧
        c &&& (reservedBytes f).2.2 = 0#8) := by
  unfold rowMatches
  rw [decide_eq_decide, formatMask_eq, wordOf_and, opcodeMatch_eq]
  constructor
  · intro h
    exact (wordOf_inj h).2
  · rintro ⟨h1, h2, h3⟩
    rw [h1, h2, h3]

/-- Decoding a word laid out from its fields: the row of its opcode, when its reserved bits are 0 (R82, R86). -/
theorem decode_wordOf {o a b c : Byte} {f : Format} {i : Instr} (hf : opcodeFormat o = some f)
    (hi : opcodeInstr o a b c = some i) (ha : a &&& (reservedBytes f).1 = 0#8) (hb : b &&& (reservedBytes f).2.1 = 0#8)
    (hc : c &&& (reservedBytes f).2.2 = 0#8) : decode (wordOf o a b c) = .ok i := by
  have h := rowMatches_wordOf o a b c f
  rw [decide_eq_true (show _ ∧ _ ∧ _ from ⟨ha, hb, hc⟩)] at h
  simp only [decode, fieldOpc_wordOf, fieldA_wordOf, fieldB_wordOf, fieldC_wordOf, hf, hi, h, if_true]

end Sys2Proof
end

