-- ==== Sys2Proof/Laws/Environment.lean ====
section
/-! SUPPORT. What the environment can answer (20_memory R57, 60_exceptions R232). -/

namespace Sys2Proof.Machine

/-- An `Ok` reply has as many bytes as the transaction asks for. -/
theorem okReply_length (n : Nat) (t : Tx) (bytes : List Byte) :
    ∃ d, okReply n t bytes = .ok d ∧ d.length = replyLength t := ⟨_, rfl, by simp⟩

/-- The reference environment's reply has as many bytes as the transaction asks for. -/
theorem regsReply_length (t : Tx) (regs : List Host.Cell) : (regsReply t regs).length = replyLength t := by
  cases t <;> simp [regsReply, replyLength]

/-- Every response is of R57's shape. -/
theorem response_shape (e : Env) (p : BusIx) (t : Tx) :
    e.response p t = .fail ∨ ∃ d, e.response p t = .ok d ∧ d.length = replyLength t := by
  unfold Env.response
  split
  · exact .inl rfl
  · exact .inr (okReply_length _ _ _)
  all_goals
    split
    · unfold refResponse
      split
      · exact .inr ⟨_, rfl, regsReply_length _ _⟩
      · exact .inl rfl
    · split
      · exact .inr (okReply_length _ _ _)
      · exact .inl rfl

/-- An `Ok` response has as many bytes as the transaction asks for. -/
theorem response_ok_length {e : Env} {p : BusIx} {t : Tx} {d : List Byte} (h : e.response p t = .ok d) :
    d.length = replyLength t := by
  rcases response_shape e p t with hf | ⟨d', hd, hl⟩
  · rw [hf] at h; exact absurd h (by simp)
  · rw [hd] at h; cases h; exact hl

/-- An `Ok` response to a Write is empty. -/
theorem response_write_ok {e : Env} {p : BusIx} {a : Addr} {m d : List Byte} (h : e.response p (.write a m) = .ok d) :
    d = [] := List.length_eq_zero_iff.mp (response_ok_length h)

/-- An `Ok` response to a Probe is empty. -/
theorem response_probe_ok {e : Env} {p : BusIx} {a : Addr} {d : List Byte} (h : e.response p (.probe a) = .ok d) :
    d = [] := List.length_eq_zero_iff.mp (response_ok_length h)

/-- Questions asked in two parts leave the environment as when asked in one. -/
theorem after_append (e : Env) (p : BusIx) (ts us : List Tx) : e.after p (ts ++ us) = (e.after p ts).after p us := by
  induction ts generalizing e with
  | nil => rfl
  | cons t ts ih => exact ih _

/-- The events of questions asked in two parts. -/
theorem events_append (e : Env) (p : BusIx) (ts us : List Tx) :
    e.events p (ts ++ us) = e.events p ts ++ (e.after p ts).events p us := by
  induction ts generalizing e with
  | nil => rfl
  | cons t ts ih => simp only [List.cons_append, Env.events, Env.after, ih]

/-- Every event of transactions on a bus is one of them with some response. -/
theorem mem_events {e : Env} {p : BusIx} {ts : List Tx} {ev : Event} (h : ev ∈ e.events p ts) :
    ∃ t ∈ ts, ∃ r, ev = .tx p t r := by
  induction ts generalizing e with
  | nil => simp [Env.events] at h
  | cons t ts ih =>
    rcases List.mem_cons.mp h with rfl | h
    · exact ⟨t, List.mem_cons_self, _, rfl⟩
    · obtain ⟨u, hu, r, hr⟩ := ih h
      exact ⟨u, List.mem_cons_of_mem _ hu, r, hr⟩

/-- Writes that are all acknowledged leave `Ok([])` events. -/
theorem events_writes_acks {e : Env} {p : BusIx} {a : Addr} {msgs : List (List Byte)}
    (h : e.acks p (msgs.map (.write a)) = true) : e.events p (msgs.map (.write a)) = okWrites p a msgs := by
  induction msgs generalizing e with
  | nil => rfl
  | cons m msgs ih =>
    simp only [List.map_cons, Env.acks] at h
    split at h
    · next d hd =>
      have := response_write_ok hd
      subst this
      simp only [List.map_cons, Env.events, okWrites, hd]
      rw [ih h]; rfl
    · exact absurd h (by simp)

/-- Transactions the block may send leave events of R57's shape. -/
theorem events_ok (e : Env) (p : BusIx) (ts : List Tx) (h : ∀ t ∈ ts, txOk t = true) :
    ∀ ev ∈ e.events p ts, eventOk ev = true := by
  induction ts generalizing e with
  | nil => simp [Env.events]
  | cons t ts ih =>
    intro ev hev
    simp only [Env.events, List.mem_cons] at hev
    rcases hev with rfl | hev
    · simp only [eventOk, h t (by simp), Bool.true_and]
      cases hr : e.response p t with
      | ok d => simp [response_ok_length hr]
      | fail => rfl
    · exact ih _ (fun t ht => h t (by simp [ht])) ev hev

end Sys2Proof.Machine
end

