-- ==== Sys2Proof/Laws/Operands.lean ====
section
/-! SUPPORT. The operand forms in the words the statements use (41_pwm R140, R141, R147, R148; 42_display_keypad R172;
40_transport R109). -/

namespace Sys2Proof.Machine

/-! ### Well-formed parameters (R6, R61) -/

/-- Every PWM candidate is an address of the scan range. -/
theorem pwmCandidates_inScanRange {cfg : Params} (h : cfg.wf = true) : ∀ a ∈ cfg.pwmCandidates, Addr.inScanRange a = true := by
  simp only [Params.wf, Params.pwmCandidatesOk, Bool.and_eq_true, List.all_eq_true] at h
  exact h.1.1.1.1.1.1.1.1.2.2

/-- Every display candidate is an address of the scan range. -/
theorem dispCandidates_inScanRange {cfg : Params} (h : cfg.wf = true) :
    ∀ a ∈ cfg.dispCandidates, Addr.inScanRange a = true := by
  simp only [Params.wf, Params.dispCandidatesOk, Bool.and_eq_true, List.all_eq_true] at h
  exact h.1.1.1.1.1.1.1.2.2

/-- The burst to every channel stays within the device's registers. -/
theorem allMsgs_inRegisters {cfg : Params} (h : cfg.wf = true) (on off : Ticks) {m : List Byte} (hm : m ∈ allMsgs cfg on off)
    (a : Addr) : txInRegisters (.write a m) = true := by
  simp only [Params.wf, Params.pwmAllOk, Bool.and_eq_true, decide_eq_true_eq] at h
  simp only [allMsgs, enc12, List.mem_singleton] at hm
  subst hm
  simp only [List.cons_append, List.nil_append, txInRegisters, List.length_cons, List.length_nil, decide_eq_true_eq]
  omega

/-- The write of a digit stays within the device's registers. -/
theorem digitMsg_inRegisters {cfg : Params} (h : cfg.wf = true) (dbuf : Vector Bitmap 4) (i : Fin 4) (a : Addr) :
    txInRegisters (.write a (digitMsg cfg dbuf i)) = true := by
  simp only [Params.wf, Params.digitRegOk, Bool.and_eq_true, decide_eq_true_eq] at h
  have := h.1.2 i
  simp only [digitMsg, txInRegisters, List.length_cons, List.length_nil, decide_eq_true_eq]
  omega

/-- The read of the keypad stays within the device's registers. -/
theorem keyRead_inRegisters {cfg : Params} (h : cfg.wf = true) (a : Addr) :
    txInRegisters (.writeRead a cfg.keyBase (2 * cfg.keyRows)) = true := by
  simp only [Params.wf, Params.keyBaseOk, Bool.and_eq_true, decide_eq_true_eq] at h
  simp only [txInRegisters, decide_eq_true_eq]
  exact h.2

/-- A message of at most one data byte stays within the device's registers. -/
theorem shortWrite_inRegisters {m : List Byte} (h : m.length ≤ 2) (a : Addr) : txInRegisters (.write a m) = true := by
  cases m with
  | nil => rfl
  | cons r data =>
    have := r.isLt
    simp only [List.length_cons] at h
    simp only [txInRegisters, decide_eq_true_eq]
    omega

/-! ### Messages -/

/-- The low byte of a tick count, cut out or computed. -/
theorem ticksLow_eq (v : Ticks) : ticksLow v = lowByte v := by
  apply BitVec.eq_of_toNat_eq
  simp [ticksLow, lowByte, BitVec.extractLsb'_toNat]

/-- The high byte of a tick count, cut out or computed. -/
theorem ticksHigh_eq (v : Ticks) : ticksHigh v = highByte v := by
  have := v.isLt
  apply BitVec.eq_of_toNat_eq
  simp [ticksHigh, highByte, BitVec.extractLsb'_toNat, Nat.shiftRight_eq_div_pow]
  omega

/-- The burst to every channel as one message (R148). -/
theorem allMsgs_eq (cfg : Params) (on off : Ticks) : allMsgs cfg on off = [broadcastWrite cfg on off] := by
  simp [allMsgs, broadcastWrite, enc12, ticksLow_eq, ticksHigh_eq]

/-- The four writes of a channel with their registers computed (R140, R147). -/
theorem chanMsgs_eq (cfg : Params) (ch : Nat) (on off : Ticks) : chanMsgs cfg ch on off = channelWrites cfg ch on off := by
  have h : ∀ j, chanReg cfg ch + BitVec.ofNat 8 j = BitVec.ofNat 8 (cfg.pwmLed0.toNat + 4 * ch + j) := by
    intro j; apply BitVec.eq_of_toNat_eq; simp [chanReg]
  have h0 : chanReg cfg ch = BitVec.ofNat 8 (cfg.pwmLed0.toNat + 4 * ch) := by
    apply BitVec.eq_of_toNat_eq; simp [chanReg]
  simp only [chanMsgs, channelWrites, h, ticksLow_eq, ticksHigh_eq]
  rw [h0]

/-- The write of a digit with its bytes computed (R172). -/
theorem digitMsg_eq (cfg : Params) (dbuf : Vector Bitmap 4) (i : Fin 4) :
    digitMsg cfg dbuf i = digitWrite cfg i dbuf[i] := by
  have := (dbuf[i]).isLt
  have hl : bitmapLow dbuf[i] = BitVec.ofNat 8 (dbuf[i].toNat % 256) := by
    apply BitVec.eq_of_toNat_eq; simp [bitmapLow, BitVec.extractLsb'_toNat]
  have hh : bitmapHigh dbuf[i] = BitVec.ofNat 8 (dbuf[i].toNat / 256) := by
    apply BitVec.eq_of_toNat_eq; simp [bitmapHigh, BitVec.extractLsb'_toNat, Nat.shiftRight_eq_div_pow]
  rw [digitMsg, digitWrite, hl, hh]

/-- The addresses a scan probes, as those between its two bounds (R109). -/
theorem scanAddrs_eq (first last : Byte) :
    scanAddrs first last = ((List.range 128).filter
      (fun a => decide (max first.toNat 0x03 ≤ a ∧ a ≤ min last.toNat 0x77))).map (BitVec.ofNat 7) := by
  unfold scanAddrs
  simp only [Config.scanLo, Config.scanHi]
  congr 1
  apply List.Pairwise.eq_of_mem_iff (r := (· < ·))
  · exact List.pairwise_lt_range'
  · exact List.Pairwise.filter _ List.pairwise_lt_range
  · intro x
    simp only [List.mem_range', List.mem_filter, List.mem_range, decide_eq_true_eq]
    constructor
    · rintro ⟨i, hi, rfl⟩; omega
    · rintro h; exact ⟨x - max first.toNat 3, by omega, by omega⟩

end Sys2Proof.Machine
end

