-- ==== Sys2Proof/Laws/Memory.lean ====
section
/-! SUPPORT. The laws of byte memory: a read after a write, and the canonical form every operation keeps. -/

namespace Sys2Proof.Machine

/-- Every address listed in a canonical memory is at least its lower bound, so a lower address reads blank. -/
theorem read_of_wfFrom_lt {size lo a : Nat} {m : List Host.Cell} (h : Memory.wfFrom size lo m = true) (ha : a < lo) :
    Memory.read m a = memoryBlank := by
  induction m generalizing lo with
  | nil => rfl
  | cons c m ih =>
    simp only [Memory.wfFrom, Bool.and_eq_true, decide_eq_true_eq] at h
    have hne : c.1 ≠ a := by omega
    simp only [Memory.read, if_neg hne]
    exact ih h.2 (by omega)

/-- A smaller lower bound is met too. -/
theorem wfFrom_mono {size lo lo' : Nat} {m : List Host.Cell} (h : Memory.wfFrom size lo m = true) (hle : lo' ≤ lo) :
    Memory.wfFrom size lo' m = true := by
  cases m with
  | nil => rfl
  | cons c m =>
    simp only [Memory.wfFrom, Bool.and_eq_true, decide_eq_true_eq] at h ⊢
    exact ⟨⟨⟨by omega, h.1.1.2⟩, h.1.2⟩, h.2⟩

/-- A write keeps the canonical form above a lower bound. -/
theorem wfFrom_write {size lo a : Nat} {v : Byte} {m : List Host.Cell} (h : Memory.wfFrom size lo m = true)
    (hlo : lo ≤ a) (hsize : a < size) : Memory.wfFrom size lo (Memory.write m a v) = true := by
  induction m generalizing lo with
  | nil =>
    simp only [Memory.write]
    split
    · rfl
    · next hv => simp [Memory.wfFrom, hlo, hsize, hv]
  | cons c m ih =>
    have hc := h
    simp only [Memory.wfFrom, Bool.and_eq_true, decide_eq_true_eq] at hc
    obtain ⟨⟨⟨h1, h2⟩, h3⟩, h4⟩ := hc
    simp only [Memory.write]
    split
    · next hlt =>
      split
      · exact h
      · next hv =>
        simp only [Memory.wfFrom, Bool.and_eq_true, decide_eq_true_eq]
        exact ⟨⟨⟨hlo, hsize⟩, hv⟩, ⟨⟨⟨by omega, h2⟩, h3⟩, h4⟩⟩
    · split
      · next heq =>
        split
        · exact wfFrom_mono h4 (by omega)
        · next hv =>
          simp only [Memory.wfFrom, Bool.and_eq_true, decide_eq_true_eq]
          exact ⟨⟨⟨hlo, hsize⟩, hv⟩, by subst heq; exact h4⟩
      · simp only [Memory.wfFrom, Bool.and_eq_true, decide_eq_true_eq]
        exact ⟨⟨⟨h1, h2⟩, h3⟩, ih h4 (by omega)⟩

/-- A write inside the memory keeps its canonical form. -/
theorem wf_write {size a : Nat} {v : Byte} {m : List Host.Cell} (h : Memory.wf size m = true) (hsize : a < size) :
    Memory.wf size (Memory.write m a v) = true := wfFrom_write h (Nat.zero_le a) hsize

/-- Writing a byte list inside the memory keeps its canonical form. -/
theorem wf_writeBytes {size : Nat} (vs : List Byte) {a : Nat} {m : List Host.Cell} (h : Memory.wf size m = true)
    (hsize : a + vs.length ≤ size) : Memory.wf size (Memory.writeBytes m a vs) = true := by
  induction vs generalizing a m with
  | nil => exact h
  | cons v vs ih =>
    simp only [List.length_cons] at hsize
    exact ih (wf_write h (by omega)) (by omega)

/-- In a canonical memory a read after a write gives the byte written at its address and the old byte elsewhere. -/
theorem read_write_of_wfFrom {size lo a : Nat} {v : Byte} {m : List Host.Cell} (h : Memory.wfFrom size lo m = true)
    (b : Nat) : Memory.read (Memory.write m a v) b = if a = b then v else Memory.read m b := by
  induction m generalizing lo with
  | nil =>
    simp only [Memory.write]
    split
    · next hv => simp [Memory.read, hv]
    · simp [Memory.read]
  | cons c m ih =>
    have hc := h
    simp only [Memory.wfFrom, Bool.and_eq_true, decide_eq_true_eq] at hc
    obtain ⟨⟨⟨h1, h2⟩, h3⟩, h4⟩ := hc
    simp only [Memory.write]
    split
    · next hlt =>
      split
      · next hv =>
        split
        · next hab =>
          subst hab
          have hne : c.1 ≠ a := by omega
          simp only [Memory.read, if_neg hne, hv]
          exact read_of_wfFrom_lt h4 (by omega)
        · rfl
      · simp only [Memory.read]
    · split
      · next heq =>
        split
        · next hv =>
          simp only [Memory.read]
          split
          · next hab =>
            subst hab
            rw [hv]
            exact read_of_wfFrom_lt h4 (by omega)
          · next hab => rw [if_neg (by omega)]
        · simp only [Memory.read]
          split
          · rfl
          · next hab => rw [if_neg (by omega)]
      · next hnlt hne =>
        simp only [Memory.read]
        split
        · next hcb => rw [if_neg (by omega)]
        · exact ih h4

/-- A read after a write, in a memory of canonical form. -/
theorem read_write {size a : Nat} {v : Byte} {m : List Host.Cell} (h : Memory.wf size m = true) (b : Nat) :
    Memory.read (Memory.write m a v) b = if a = b then v else Memory.read m b := read_write_of_wfFrom h b

/-- A write leaves every other address alone, whatever the form of the list. -/
theorem read_write_ne {a : Nat} {v : Byte} (m : List Host.Cell) {b : Nat} (hab : a ≠ b) :
    Memory.read (Memory.write m a v) b = Memory.read m b := by
  induction m with
  | nil => simp only [Memory.write]; split <;> simp [Memory.read, hab]
  | cons c m ih =>
    simp only [Memory.write]
    split
    · split
      · rfl
      · simp [Memory.read, hab]
    · split
      · next heq =>
        have hcb : c.1 ≠ b := by omega
        split <;> simp [Memory.read, hab, hcb]
      · simp only [Memory.read, ih]

/-- Writing a byte list leaves every address outside it alone. -/
theorem read_writeBytes_out (vs : List Byte) {a : Nat} (m : List Host.Cell) {b : Nat} (h : b < a ∨ a + vs.length ≤ b) :
    Memory.read (Memory.writeBytes m a vs) b = Memory.read m b := by
  induction vs generalizing a m with
  | nil => rfl
  | cons v vs ih =>
    simp only [List.length_cons] at h
    rw [Memory.writeBytes, ih _ (by omega), read_write_ne _ (by omega)]

/-- Writing a byte list into a canonical memory puts each byte at its address. -/
theorem read_writeBytes_in {size : Nat} (vs : List Byte) {a : Nat} {m : List Host.Cell} (h : Memory.wf size m = true)
    (hsize : a + vs.length ≤ size) (k : Nat) (hk : k < vs.length) :
    Memory.read (Memory.writeBytes m a vs) (a + k) = vs[k] := by
  induction vs generalizing a m k with
  | nil => simp at hk
  | cons v vs ih =>
    simp only [List.length_cons] at hsize hk
    rw [Memory.writeBytes]
    cases k with
    | zero => rw [read_writeBytes_out _ _ (by omega), read_write h]; simp
    | succ k =>
      have := ih (a := a + 1) (wf_write (v := v) h (show a < size by omega)) (by omega) k (by omega)
      rw [Nat.add_assoc, Nat.add_comm 1 k] at this
      simpa using this

/-- `MemRead` reads as many bytes as it is asked for. -/
@[simp] theorem length_readBytes (m : List Host.Cell) (a n : Nat) : (Memory.readBytes m a n).length = n := by
  simp [Memory.readBytes]

/-- A write to a DATA word keeps the buffer's canonical form. -/
theorem wf_writeDataWord {m : List Host.Cell} {k : Nat} {v : Word} (h : Memory.wf Config.dataSize m = true)
    (hk : k < 32) : Memory.wf Config.dataSize (writeDataWord m k v) = true :=
  wf_writeBytes _ h (by simp [Config.dataSize]; omega)

/-- Two canonical memories that read alike are the same list. -/
theorem eq_of_read_eq_from {size lo : Nat} {m m' : List Host.Cell} (h : Memory.wfFrom size lo m = true)
    (h' : Memory.wfFrom size lo m' = true) (e : ∀ a, Memory.read m a = Memory.read m' a) : m = m' := by
  induction m generalizing lo m' with
  | nil =>
    cases m' with
    | nil => rfl
    | cons c m' =>
      simp only [Memory.wfFrom, Bool.and_eq_true, decide_eq_true_eq] at h'
      have hc := e c.1
      simp [Memory.read] at hc
      exact absurd hc.symm h'.1.2
  | cons c m ih =>
    simp only [Memory.wfFrom, Bool.and_eq_true, decide_eq_true_eq] at h
    cases m' with
    | nil =>
      have hc := e c.1
      simp [Memory.read] at hc
      exact absurd hc h.1.2
    | cons c' m' =>
      simp only [Memory.wfFrom, Bool.and_eq_true, decide_eq_true_eq] at h'
      have e1 := e c.1
      have e2 := e c'.1
      simp only [Memory.read, if_true] at e1 e2
      have hc : c.1 = c'.1 := by
        rcases Nat.lt_trichotomy c.1 c'.1 with hl | hl | hl
        · rw [if_neg (by omega), read_of_wfFrom_lt h'.2 (by omega)] at e1
          exact absurd e1 h.1.2
        · exact hl
        · rw [if_neg (by omega), read_of_wfFrom_lt h.2 (by omega)] at e2
          exact absurd e2.symm h'.1.2
      rw [if_pos hc.symm] at e1
      have hcc : c = c' := Prod.ext hc e1
      subst hcc
      congr 1
      refine ih h.2 h'.2 fun a => ?_
      by_cases ha : a < c.1 + 1
      · rw [read_of_wfFrom_lt h.2 ha, read_of_wfFrom_lt h'.2 ha]
      · have hm := e a
        simpa [Memory.read, show c.1 ≠ a by omega] using hm

/-- Equal memories are equal data: two canonical memories that read alike are the same list. -/
theorem eq_of_read_eq {size : Nat} {m m' : List Host.Cell} (h : Memory.wf size m = true) (h' : Memory.wf size m' = true)
    (e : ∀ a, Memory.read m a = Memory.read m' a) : m = m' := eq_of_read_eq_from h h' e

/-- The bytes of a DATA word after a write to it (R53, R54). -/
theorem read_writeDataWord_in {m : List Host.Cell} {k : Nat} {v : Word} (h : Memory.wf Config.dataSize m = true)
    (hk : k < 32) (j : Nat) (hj : j < 4) : Memory.read (writeDataWord m k v) (4 * k + j) = v.extractLsb' (8 * j) 8 := by
  unfold writeDataWord
  rw [read_writeBytes_in (size := Config.dataSize) _ h (by simp [Config.dataSize]; omega) j (by simpa using hj)]
  obtain rfl | rfl | rfl | rfl : j = 0 ∨ j = 1 ∨ j = 2 ∨ j = 3 := by omega
  all_goals rfl

/-- A write to a DATA word leaves every byte outside it alone. -/
theorem read_writeDataWord_out (m : List Host.Cell) {k : Nat} (v : Word) {a : Nat} (h : a < 4 * k ∨ 4 * k + 4 ≤ a) :
    Memory.read (writeDataWord m k v) a = Memory.read m a := read_writeBytes_out _ _ h

end Sys2Proof.Machine
end

