-- ==== Sys2Proof/Laws/State.lean ====
section
/-! SUPPORT. What each named update leaves in each field of the state: one lemma per field per update, so that no later proof
unfolds a record update. -/

namespace Sys2Proof.Machine

/-! ### setPort -/

@[simp] theorem setPort_ports (s : State) (p : BusIx) (v : Port) : (s.setPort p v).ports = s.ports.set p.toNat v p.isLt := rfl
@[simp] theorem setPort_recPwm (s : State) (p : BusIx) (v : Port) : (s.setPort p v).recPwm = s.recPwm := rfl
@[simp] theorem setPort_recDisp (s : State) (p : BusIx) (v : Port) : (s.setPort p v).recDisp = s.recDisp := rfl
@[simp] theorem setPort_dbuf (s : State) (p : BusIx) (v : Port) : (s.setPort p v).dbuf = s.dbuf := rfl
@[simp] theorem setPort_cmd (s : State) (p : BusIx) (v : Port) : (s.setPort p v).cmd = s.cmd := rfl
@[simp] theorem setPort_arg0 (s : State) (p : BusIx) (v : Port) : (s.setPort p v).arg0 = s.arg0 := rfl
@[simp] theorem setPort_arg1 (s : State) (p : BusIx) (v : Port) : (s.setPort p v).arg1 = s.arg1 := rfl
@[simp] theorem setPort_arg2 (s : State) (p : BusIx) (v : Port) : (s.setPort p v).arg2 = s.arg2 := rfl
@[simp] theorem setPort_status (s : State) (p : BusIx) (v : Port) : (s.setPort p v).status = s.status := rfl
@[simp] theorem setPort_result (s : State) (p : BusIx) (v : Port) : (s.setPort p v).result = s.result := rfl
@[simp] theorem setPort_dlen (s : State) (p : BusIx) (v : Port) : (s.setPort p v).dlen = s.dlen := rfl
@[simp] theorem setPort_data (s : State) (p : BusIx) (v : Port) : (s.setPort p v).data = s.data := rfl
@[simp] theorem setPort_trace (s : State) (p : BusIx) (v : Port) : (s.setPort p v).trace = s.trace := rfl
@[simp] theorem setPort_cfg (s : State) (p : BusIx) (v : Port) : (s.setPort p v).cfg = s.cfg := rfl
@[simp] theorem setPort_env (s : State) (p : BusIx) (v : Port) : (s.setPort p v).env = s.env := rfl
@[simp] theorem setPort_inputs (s : State) (p : BusIx) (v : Port) : (s.setPort p v).inputs = s.inputs := rfl
@[simp] theorem setPort_reads (s : State) (p : BusIx) (v : Port) : (s.setPort p v).reads = s.reads := rfl

/-! ### setSel -/

@[simp] theorem setSel_recPwm (s : State) (p : BusIx) (a : Option Addr) : (s.setSel p a).recPwm = s.recPwm := rfl
@[simp] theorem setSel_recDisp (s : State) (p : BusIx) (a : Option Addr) : (s.setSel p a).recDisp = s.recDisp := rfl
@[simp] theorem setSel_dbuf (s : State) (p : BusIx) (a : Option Addr) : (s.setSel p a).dbuf = s.dbuf := rfl
@[simp] theorem setSel_cmd (s : State) (p : BusIx) (a : Option Addr) : (s.setSel p a).cmd = s.cmd := rfl
@[simp] theorem setSel_arg0 (s : State) (p : BusIx) (a : Option Addr) : (s.setSel p a).arg0 = s.arg0 := rfl
@[simp] theorem setSel_arg1 (s : State) (p : BusIx) (a : Option Addr) : (s.setSel p a).arg1 = s.arg1 := rfl
@[simp] theorem setSel_arg2 (s : State) (p : BusIx) (a : Option Addr) : (s.setSel p a).arg2 = s.arg2 := rfl
@[simp] theorem setSel_status (s : State) (p : BusIx) (a : Option Addr) : (s.setSel p a).status = s.status := rfl
@[simp] theorem setSel_result (s : State) (p : BusIx) (a : Option Addr) : (s.setSel p a).result = s.result := rfl
@[simp] theorem setSel_dlen (s : State) (p : BusIx) (a : Option Addr) : (s.setSel p a).dlen = s.dlen := rfl
@[simp] theorem setSel_data (s : State) (p : BusIx) (a : Option Addr) : (s.setSel p a).data = s.data := rfl
@[simp] theorem setSel_trace (s : State) (p : BusIx) (a : Option Addr) : (s.setSel p a).trace = s.trace := rfl
@[simp] theorem setSel_cfg (s : State) (p : BusIx) (a : Option Addr) : (s.setSel p a).cfg = s.cfg := rfl
@[simp] theorem setSel_env (s : State) (p : BusIx) (a : Option Addr) : (s.setSel p a).env = s.env := rfl
@[simp] theorem setSel_inputs (s : State) (p : BusIx) (a : Option Addr) : (s.setSel p a).inputs = s.inputs := rfl
@[simp] theorem setSel_reads (s : State) (p : BusIx) (a : Option Addr) : (s.setSel p a).reads = s.reads := rfl

/-! ### emit -/

@[simp] theorem emit_ports (ev : Event) (s : State) : (emit ev s).ports = s.ports := rfl
@[simp] theorem emit_recPwm (ev : Event) (s : State) : (emit ev s).recPwm = s.recPwm := rfl
@[simp] theorem emit_recDisp (ev : Event) (s : State) : (emit ev s).recDisp = s.recDisp := rfl
@[simp] theorem emit_dbuf (ev : Event) (s : State) : (emit ev s).dbuf = s.dbuf := rfl
@[simp] theorem emit_cmd (ev : Event) (s : State) : (emit ev s).cmd = s.cmd := rfl
@[simp] theorem emit_arg0 (ev : Event) (s : State) : (emit ev s).arg0 = s.arg0 := rfl
@[simp] theorem emit_arg1 (ev : Event) (s : State) : (emit ev s).arg1 = s.arg1 := rfl
@[simp] theorem emit_arg2 (ev : Event) (s : State) : (emit ev s).arg2 = s.arg2 := rfl
@[simp] theorem emit_status (ev : Event) (s : State) : (emit ev s).status = s.status := rfl
@[simp] theorem emit_result (ev : Event) (s : State) : (emit ev s).result = s.result := rfl
@[simp] theorem emit_dlen (ev : Event) (s : State) : (emit ev s).dlen = s.dlen := rfl
@[simp] theorem emit_data (ev : Event) (s : State) : (emit ev s).data = s.data := rfl
@[simp] theorem emit_trace (ev : Event) (s : State) : (emit ev s).trace = s.trace ++ [ev] := rfl
@[simp] theorem emit_cfg (ev : Event) (s : State) : (emit ev s).cfg = s.cfg := rfl
@[simp] theorem emit_env (ev : Event) (s : State) : (emit ev s).env = s.env := rfl
@[simp] theorem emit_inputs (ev : Event) (s : State) : (emit ev s).inputs = s.inputs := rfl
@[simp] theorem emit_reads (ev : Event) (s : State) : (emit ev s).reads = s.reads := rfl

/-! ### finish -/

@[simp] theorem finish_ports (r : Word) (s : State) : (finish r s).ports = s.ports := rfl
@[simp] theorem finish_recPwm (r : Word) (s : State) : (finish r s).recPwm = s.recPwm := rfl
@[simp] theorem finish_recDisp (r : Word) (s : State) : (finish r s).recDisp = s.recDisp := rfl
@[simp] theorem finish_dbuf (r : Word) (s : State) : (finish r s).dbuf = s.dbuf := rfl
@[simp] theorem finish_cmd (r : Word) (s : State) : (finish r s).cmd = s.cmd := rfl
@[simp] theorem finish_arg0 (r : Word) (s : State) : (finish r s).arg0 = s.arg0 := rfl
@[simp] theorem finish_arg1 (r : Word) (s : State) : (finish r s).arg1 = s.arg1 := rfl
@[simp] theorem finish_arg2 (r : Word) (s : State) : (finish r s).arg2 = s.arg2 := rfl
@[simp] theorem finish_status (r : Word) (s : State) : (finish r s).status = statusWord okCode := rfl
@[simp] theorem finish_result (r : Word) (s : State) : (finish r s).result = r := rfl
@[simp] theorem finish_dlen (r : Word) (s : State) : (finish r s).dlen = s.dlen := rfl
@[simp] theorem finish_data (r : Word) (s : State) : (finish r s).data = s.data := rfl
@[simp] theorem finish_trace (r : Word) (s : State) : (finish r s).trace = s.trace := rfl
@[simp] theorem finish_cfg (r : Word) (s : State) : (finish r s).cfg = s.cfg := rfl
@[simp] theorem finish_env (r : Word) (s : State) : (finish r s).env = s.env := rfl
@[simp] theorem finish_inputs (r : Word) (s : State) : (finish r s).inputs = s.inputs := rfl
@[simp] theorem finish_reads (r : Word) (s : State) : (finish r s).reads = s.reads := rfl

/-! ### raise -/

@[simp] theorem raise_ports (e : Error) (s : State) : (raise e s).ports = s.ports := rfl
@[simp] theorem raise_recPwm (e : Error) (s : State) : (raise e s).recPwm = s.recPwm := rfl
@[simp] theorem raise_recDisp (e : Error) (s : State) : (raise e s).recDisp = s.recDisp := rfl
@[simp] theorem raise_dbuf (e : Error) (s : State) : (raise e s).dbuf = s.dbuf := rfl
@[simp] theorem raise_cmd (e : Error) (s : State) : (raise e s).cmd = s.cmd := rfl
@[simp] theorem raise_arg0 (e : Error) (s : State) : (raise e s).arg0 = s.arg0 := rfl
@[simp] theorem raise_arg1 (e : Error) (s : State) : (raise e s).arg1 = s.arg1 := rfl
@[simp] theorem raise_arg2 (e : Error) (s : State) : (raise e s).arg2 = s.arg2 := rfl
@[simp] theorem raise_status (e : Error) (s : State) : (raise e s).status = statusWord (errorCode e) := rfl
@[simp] theorem raise_result (e : Error) (s : State) : (raise e s).result = 0#32 := rfl
@[simp] theorem raise_dlen (e : Error) (s : State) : (raise e s).dlen = s.dlen := rfl
@[simp] theorem raise_data (e : Error) (s : State) : (raise e s).data = s.data := rfl
@[simp] theorem raise_trace (e : Error) (s : State) : (raise e s).trace = s.trace := rfl
@[simp] theorem raise_cfg (e : Error) (s : State) : (raise e s).cfg = s.cfg := rfl
@[simp] theorem raise_env (e : Error) (s : State) : (raise e s).env = s.env := rfl
@[simp] theorem raise_inputs (e : Error) (s : State) : (raise e s).inputs = s.inputs := rfl
@[simp] theorem raise_reads (e : Error) (s : State) : (raise e s).reads = s.reads := rfl

/-! ### i2cState -/

@[simp] theorem i2cState_ports (p : BusIx) (t : Tx) (s : State) : (i2cState p t s).ports = s.ports := rfl
@[simp] theorem i2cState_recPwm (p : BusIx) (t : Tx) (s : State) : (i2cState p t s).recPwm = s.recPwm := rfl
@[simp] theorem i2cState_recDisp (p : BusIx) (t : Tx) (s : State) : (i2cState p t s).recDisp = s.recDisp := rfl
@[simp] theorem i2cState_dbuf (p : BusIx) (t : Tx) (s : State) : (i2cState p t s).dbuf = s.dbuf := rfl
@[simp] theorem i2cState_cmd (p : BusIx) (t : Tx) (s : State) : (i2cState p t s).cmd = s.cmd := rfl
@[simp] theorem i2cState_arg0 (p : BusIx) (t : Tx) (s : State) : (i2cState p t s).arg0 = s.arg0 := rfl
@[simp] theorem i2cState_arg1 (p : BusIx) (t : Tx) (s : State) : (i2cState p t s).arg1 = s.arg1 := rfl
@[simp] theorem i2cState_arg2 (p : BusIx) (t : Tx) (s : State) : (i2cState p t s).arg2 = s.arg2 := rfl
@[simp] theorem i2cState_status (p : BusIx) (t : Tx) (s : State) : (i2cState p t s).status = s.status := rfl
@[simp] theorem i2cState_result (p : BusIx) (t : Tx) (s : State) : (i2cState p t s).result = s.result := rfl
@[simp] theorem i2cState_dlen (p : BusIx) (t : Tx) (s : State) : (i2cState p t s).dlen = s.dlen := rfl
@[simp] theorem i2cState_data (p : BusIx) (t : Tx) (s : State) : (i2cState p t s).data = s.data := rfl
@[simp] theorem i2cState_trace (p : BusIx) (t : Tx) (s : State) : (i2cState p t s).trace = s.trace ++ [.tx p t (s.env.response p t)] := rfl
@[simp] theorem i2cState_cfg (p : BusIx) (t : Tx) (s : State) : (i2cState p t s).cfg = s.cfg := rfl
@[simp] theorem i2cState_env (p : BusIx) (t : Tx) (s : State) : (i2cState p t s).env = s.env.answered p t := rfl
@[simp] theorem i2cState_inputs (p : BusIx) (t : Tx) (s : State) : (i2cState p t s).inputs = s.inputs := rfl
@[simp] theorem i2cState_reads (p : BusIx) (t : Tx) (s : State) : (i2cState p t s).reads = s.reads := rfl

/-! ### select -/

@[simp] theorem select_recPwm (u : Chip) (s : State) : (select u s).recPwm = s.recPwm := rfl
@[simp] theorem select_recDisp (u : Chip) (s : State) : (select u s).recDisp = s.recDisp := rfl
@[simp] theorem select_dbuf (u : Chip) (s : State) : (select u s).dbuf = s.dbuf := rfl
@[simp] theorem select_cmd (u : Chip) (s : State) : (select u s).cmd = s.cmd := rfl
@[simp] theorem select_arg0 (u : Chip) (s : State) : (select u s).arg0 = s.arg0 := rfl
@[simp] theorem select_arg1 (u : Chip) (s : State) : (select u s).arg1 = s.arg1 := rfl
@[simp] theorem select_arg2 (u : Chip) (s : State) : (select u s).arg2 = s.arg2 := rfl
@[simp] theorem select_status (u : Chip) (s : State) : (select u s).status = s.status := rfl
@[simp] theorem select_result (u : Chip) (s : State) : (select u s).result = s.result := rfl
@[simp] theorem select_dlen (u : Chip) (s : State) : (select u s).dlen = s.dlen := rfl
@[simp] theorem select_data (u : Chip) (s : State) : (select u s).data = s.data := rfl
@[simp] theorem select_trace (u : Chip) (s : State) : (select u s).trace = s.trace := rfl
@[simp] theorem select_cfg (u : Chip) (s : State) : (select u s).cfg = s.cfg := rfl
@[simp] theorem select_env (u : Chip) (s : State) : (select u s).env = s.env := rfl
@[simp] theorem select_inputs (u : Chip) (s : State) : (select u s).inputs = s.inputs := rfl
@[simp] theorem select_reads (u : Chip) (s : State) : (select u s).reads = s.reads := rfl

/-! ### setRec and clearRec -/

@[simp] theorem setRec_ports (s : State) (u : Chip) (r : DevRec) : (s.setRec u r).ports = s.ports := by cases u <;> rfl
@[simp] theorem setRec_dbuf (s : State) (u : Chip) (r : DevRec) : (s.setRec u r).dbuf = s.dbuf := by cases u <;> rfl
@[simp] theorem setRec_cmd (s : State) (u : Chip) (r : DevRec) : (s.setRec u r).cmd = s.cmd := by cases u <;> rfl
@[simp] theorem setRec_arg0 (s : State) (u : Chip) (r : DevRec) : (s.setRec u r).arg0 = s.arg0 := by cases u <;> rfl
@[simp] theorem setRec_arg1 (s : State) (u : Chip) (r : DevRec) : (s.setRec u r).arg1 = s.arg1 := by cases u <;> rfl
@[simp] theorem setRec_arg2 (s : State) (u : Chip) (r : DevRec) : (s.setRec u r).arg2 = s.arg2 := by cases u <;> rfl
@[simp] theorem setRec_status (s : State) (u : Chip) (r : DevRec) : (s.setRec u r).status = s.status := by cases u <;> rfl
@[simp] theorem setRec_result (s : State) (u : Chip) (r : DevRec) : (s.setRec u r).result = s.result := by cases u <;> rfl
@[simp] theorem setRec_dlen (s : State) (u : Chip) (r : DevRec) : (s.setRec u r).dlen = s.dlen := by cases u <;> rfl
@[simp] theorem setRec_data (s : State) (u : Chip) (r : DevRec) : (s.setRec u r).data = s.data := by cases u <;> rfl
@[simp] theorem setRec_trace (s : State) (u : Chip) (r : DevRec) : (s.setRec u r).trace = s.trace := by cases u <;> rfl
@[simp] theorem setRec_cfg (s : State) (u : Chip) (r : DevRec) : (s.setRec u r).cfg = s.cfg := by cases u <;> rfl
@[simp] theorem setRec_env (s : State) (u : Chip) (r : DevRec) : (s.setRec u r).env = s.env := by cases u <;> rfl
@[simp] theorem setRec_inputs (s : State) (u : Chip) (r : DevRec) : (s.setRec u r).inputs = s.inputs := by cases u <;> rfl
@[simp] theorem setRec_reads (s : State) (u : Chip) (r : DevRec) : (s.setRec u r).reads = s.reads := by cases u <;> rfl
@[simp] theorem clearRec_ports (u : Chip) (s : State) : (clearRec u s).ports = s.ports := by cases u <;> rfl
@[simp] theorem clearRec_dbuf (u : Chip) (s : State) : (clearRec u s).dbuf = s.dbuf := by cases u <;> rfl
@[simp] theorem clearRec_cmd (u : Chip) (s : State) : (clearRec u s).cmd = s.cmd := by cases u <;> rfl
@[simp] theorem clearRec_arg0 (u : Chip) (s : State) : (clearRec u s).arg0 = s.arg0 := by cases u <;> rfl
@[simp] theorem clearRec_arg1 (u : Chip) (s : State) : (clearRec u s).arg1 = s.arg1 := by cases u <;> rfl
@[simp] theorem clearRec_arg2 (u : Chip) (s : State) : (clearRec u s).arg2 = s.arg2 := by cases u <;> rfl
@[simp] theorem clearRec_status (u : Chip) (s : State) : (clearRec u s).status = s.status := by cases u <;> rfl
@[simp] theorem clearRec_result (u : Chip) (s : State) : (clearRec u s).result = s.result := by cases u <;> rfl
@[simp] theorem clearRec_dlen (u : Chip) (s : State) : (clearRec u s).dlen = s.dlen := by cases u <;> rfl
@[simp] theorem clearRec_data (u : Chip) (s : State) : (clearRec u s).data = s.data := by cases u <;> rfl
@[simp] theorem clearRec_trace (u : Chip) (s : State) : (clearRec u s).trace = s.trace := by cases u <;> rfl
@[simp] theorem clearRec_cfg (u : Chip) (s : State) : (clearRec u s).cfg = s.cfg := by cases u <;> rfl
@[simp] theorem clearRec_env (u : Chip) (s : State) : (clearRec u s).env = s.env := by cases u <;> rfl
@[simp] theorem clearRec_inputs (u : Chip) (s : State) : (clearRec u s).inputs = s.inputs := by cases u <;> rfl
@[simp] theorem clearRec_reads (u : Chip) (s : State) : (clearRec u s).reads = s.reads := by cases u <;> rfl

@[simp] theorem setRec_pwm_recPwm (s : State) (r : DevRec) : (s.setRec .pwm r).recPwm = r := rfl
@[simp] theorem setRec_pwm_recDisp (s : State) (r : DevRec) : (s.setRec .pwm r).recDisp = s.recDisp := rfl
@[simp] theorem setRec_disp_recPwm (s : State) (r : DevRec) : (s.setRec .disp r).recPwm = s.recPwm := rfl
@[simp] theorem setRec_disp_recDisp (s : State) (r : DevRec) : (s.setRec .disp r).recDisp = r := rfl
@[simp] theorem clearRec_pwm_recPwm (s : State) : (clearRec .pwm s).recPwm = DevRec.cleared := rfl
@[simp] theorem clearRec_pwm_recDisp (s : State) : (clearRec .pwm s).recDisp = s.recDisp := rfl
@[simp] theorem clearRec_disp_recPwm (s : State) : (clearRec .disp s).recPwm = s.recPwm := rfl
@[simp] theorem clearRec_disp_recDisp (s : State) : (clearRec .disp s).recDisp = DevRec.cleared := rfl
@[simp] theorem unitRec_pwm (s : State) : s.unitRec .pwm = s.recPwm := rfl
@[simp] theorem unitRec_disp (s : State) : s.unitRec .disp = s.recDisp := rfl
@[simp] theorem unitRec_setRec (s : State) (u : Chip) (r : DevRec) : (s.setRec u r).unitRec u = r := by cases u <;> rfl
@[simp] theorem unitRec_setSel (s : State) (p : BusIx) (a : Option Addr) (u : Chip) :
    (s.setSel p a).unitRec u = s.unitRec u := by cases u <;> rfl
@[simp] theorem unitRec_select (v : Chip) (s : State) (u : Chip) : (select v s).unitRec u = s.unitRec u := by
  cases u <;> rfl
@[simp] theorem unitRec_i2cState (p : BusIx) (t : Tx) (s : State) (u : Chip) :
    (i2cState p t s).unitRec u = s.unitRec u := by cases u <;> rfl

/-! ### Ports: a read after a write -/

/-- A port reads what was written to it. -/
@[simp] theorem port_setPort_self (s : State) (p : BusIx) (v : Port) : (s.setPort p v).port p = v := by
  simp [State.port, State.setPort]

/-- Writing a port leaves every other port alone. -/
theorem port_setPort_ne (s : State) (p q : BusIx) (v : Port) (h : p ≠ q) : (s.setPort p v).port q = s.port q := by
  have h2 : p.toNat ≠ q.toNat := fun e => h (BitVec.eq_of_toNat_eq e)
  simp [State.port, State.setPort, Vector.getElem_set_ne, h2]

/-- Any port after a write to one. -/
theorem port_setPort (s : State) (p q : BusIx) (v : Port) :
    (s.setPort p v).port q = if p = q then v else s.port q := by
  split
  · next h => subst h; exact port_setPort_self s p v
  · next h => exact port_setPort_ne s p q v h

/-- A port is its cell of the table. -/
theorem port_congr {s t : State} (h : t.ports = s.ports) (p : BusIx) : t.port p = s.port p := by
  simp [State.port, h]

/-- The port a target was selected on. -/
@[simp] theorem port_setSel_self (s : State) (p : BusIx) (a : Option Addr) :
    (s.setSel p a).port p = { opened := (s.port p).opened, sel := a } := by simp [State.setSel]

/-- Any port after a selection on one. -/
theorem port_setSel (s : State) (p q : BusIx) (a : Option Addr) :
    (s.setSel p a).port q = if p = q then { opened := (s.port p).opened, sel := a } else s.port q := by
  simp [State.setSel, port_setPort]

/-- Selecting a target opens and closes no port. -/
@[simp] theorem opened_setSel (s : State) (p q : BusIx) (a : Option Addr) :
    ((s.setSel p a).port q).opened = (s.port q).opened := by
  rw [port_setSel]
  split
  · next h => rw [h]
  · rfl

/-- Selecting twice on a port is selecting the second target. -/
@[simp] theorem setSel_setSel (s : State) (p : BusIx) (a b : Option Addr) : (s.setSel p a).setSel p b = s.setSel p b := by
  simp [State.setSel, State.setPort, State.port]

/-- A port is not touched by a change of a record. -/
@[simp] theorem port_setRec (s : State) (u : Chip) (r : DevRec) (p : BusIx) : (s.setRec u r).port p = s.port p := by
  cases u <;> rfl

/-- A port is not touched when a record is cleared. -/
@[simp] theorem port_clearRec (u : Chip) (s : State) (p : BusIx) : (clearRec u s).port p = s.port p := by
  cases u <;> rfl

/-- A port is not touched by a transaction. -/
@[simp] theorem port_i2cState (q : BusIx) (t : Tx) (s : State) (p : BusIx) : (i2cState q t s).port p = s.port p := rfl

end Sys2Proof.Machine
end

