-- ==== Sys2Proof/Laws/Ops.lean ====
section
/-! SUPPORT. What each shared operation can do, said once: later proofs cite these lemmas and do not unfold the operations. -/

namespace Sys2Proof.Machine

/-! ### Which port a bus field names (R101) -/

/-- `validPort` answers a port exactly for `b < NBUS`. -/
theorem validPort_some {s : State} {b : Byte} (h : b.toNat < s.cfg.nbus.val) : validPort s b = some (portOf b) := by
  simp [validPort, portOf, h]

/-- `validPort` answers none from NBUS up. -/
theorem validPort_none {s : State} {b : Byte} (h : ¬ b.toNat < s.cfg.nbus.val) : validPort s b = none := by
  simp [validPort, h]

/-- A bus field below NBUS is the number of its port. -/
theorem portOf_toNat {s : State} {b : Byte} (h : b.toNat < s.cfg.nbus.val) : (portOf b).toNat = b.toNat := by
  have := s.cfg.nbus.isLt
  simp [portOf]; omega

/-- `openPort` answers the port of an open bus. -/
theorem openPort_some {s : State} {b : Byte} (h : Opened s b) : openPort s b = some (portOf b) := by
  simp [openPort, validPort_some h.1, h.2]

/-- `openPort` answers none for any other bus. -/
theorem openPort_none {s : State} {b : Byte} (h : ¬ Opened s b) : openPort s b = none := by
  unfold openPort
  by_cases hv : b.toNat < s.cfg.nbus.val
  · rw [validPort_some hv]
    have : ¬ (s.port (portOf b)).opened = true := fun ho => h ⟨hv, ho⟩
    simp [this]
  · rw [validPort_none hv]

/-- What an answer of `openPort` says. -/
theorem openPort_eq_some {s : State} {b : Byte} {p : BusIx} (h : openPort s b = some p) : Opened s b ∧ p = portOf b := by
  by_cases ho : Opened s b
  · rw [openPort_some ho] at h
    exact ⟨ho, by simpa using h.symm⟩
  · rw [openPort_none ho] at h; exact absurd h (by simp)

/-- `readyTarget` answers the port and the target of a ready bus. -/
theorem readyTarget_some {s : State} {b : Byte} {a : Addr} (h : ReadyAt s b a) :
    readyTarget s b = some (portOf b, a) := by
  simp [readyTarget, openPort_some h.1, h.2]

/-- `readyTarget` answers none for a bus that is not ready. -/
theorem readyTarget_none {s : State} {b : Byte} (h : ∀ a, ¬ ReadyAt s b a) : readyTarget s b = none := by
  unfold readyTarget
  by_cases ho : Opened s b
  · rw [openPort_some ho]
    cases hs : (s.port (portOf b)).sel with
    | none => simp [hs]
    | some a => exact absurd ⟨ho, hs⟩ (h a)
  · rw [openPort_none ho]

/-- What an answer of `readyTarget` says. -/
theorem readyTarget_eq_some {s : State} {b : Byte} {x : BusIx × Addr} (h : readyTarget s b = some x) :
    ReadyAt s b x.2 ∧ x.1 = portOf b := by
  by_cases hr : ∃ a, ReadyAt s b a
  · obtain ⟨a, ha⟩ := hr
    rw [readyTarget_some ha] at h
    cases h; exact ⟨ha, rfl⟩
  · rw [readyTarget_none (fun a ha => hr ⟨a, ha⟩)] at h; exact absurd h (by simp)

/-! ### Sending writes (R105, R110, R146, R147) -/

/-- Writes that are all acknowledged are all sent. -/
theorem sendWrites_acks {p : BusIx} {a : Addr} {msgs : List (List Byte)} {s : State}
    (h : s.env.acks p (msgs.map (.write a)) = true) :
    sendWrites p a msgs s =
      (true, { s with env := s.env.after p (msgs.map (.write a)), trace := s.trace ++ okWrites p a msgs }) := by
  induction msgs generalizing s with
  | nil => simp [sendWrites, Env.after, okWrites]
  | cons m msgs ih =>
    simp only [List.map_cons, Env.acks] at h
    split at h
    · next d hd =>
      have hnil := response_write_ok hd
      subst hnil
      have hr : i2cResponse p (.write a m) s = .ok [] := hd
      simp only [sendWrites, hr]
      rw [ih (s := i2cState p (.write a m) s) h]
      simp [i2cState, Env.after, okWrites, hd]
    · exact absurd h (by simp)

/-- The first write that fails ends the sending: nothing after it is sent. -/
theorem sendWrites_fails {p : BusIx} {a : Addr} {pre post : List (List Byte)} {m : List Byte} {s : State}
    (hpre : s.env.acks p (pre.map (.write a)) = true)
    (hf : (s.env.after p (pre.map (.write a))).response p (.write a m) = .fail) :
    sendWrites p a (pre ++ m :: post) s =
      (false, { s with
        env := s.env.after p ((pre ++ [m]).map (.write a)),
        trace := s.trace ++ okWrites p a pre ++ [.tx p (.write a m) .fail] }) := by
  induction pre generalizing s with
  | nil =>
    have hr : i2cResponse p (.write a m) s = .fail := hf
    have hf' : s.env.response p (.write a m) = .fail := hf
    simp [sendWrites, hr, i2cState, Env.after, okWrites, hf']
  | cons w pre ih =>
    simp only [List.map_cons, Env.acks] at hpre
    split at hpre
    · next d hd =>
      have hnil := response_write_ok hd
      subst hnil
      have hr : i2cResponse p (.write a w) s = .ok [] := hd
      simp only [List.cons_append, sendWrites, hr]
      rw [ih (s := i2cState p (.write a w) s) hpre hf]
      simp [i2cState, Env.after, okWrites, hd]
    · exact absurd hpre (by simp)

/-- Everything sending can do: it sends some of the messages in order, touches only the environment and the trace, and says
true only when every one was sent and acknowledged. -/
theorem sendWrites_spec (p : BusIx) (a : Addr) (msgs : List (List Byte)) (s : State) :
    ∃ sent, sent <+: msgs ∧
      (sendWrites p a msgs s).2 = { s with
        env := s.env.after p (sent.map (.write a)), trace := s.trace ++ s.env.events p (sent.map (.write a)) } ∧
      ((sendWrites p a msgs s).1 = true → sent = msgs ∧ s.env.acks p (msgs.map (.write a)) = true) := by
  induction msgs generalizing s with
  | nil => exact ⟨[], List.prefix_rfl, by simp [sendWrites, Env.after, Env.events], fun _ => ⟨rfl, rfl⟩⟩
  | cons m msgs ih =>
    cases hr : s.env.response p (.write a m) with
    | ok d =>
      have hr' : i2cResponse p (.write a m) s = .ok d := hr
      obtain ⟨sent, hpre, hst, hall⟩ := ih (i2cState p (.write a m) s)
      refine ⟨m :: sent, by simpa using hpre, ?_, ?_⟩
      · simp only [sendWrites, hr', hst]
        simp [i2cState, Env.after, Env.events, hr]
      · intro h
        simp only [sendWrites, hr'] at h
        obtain ⟨h1, h2⟩ := hall h
        exact ⟨by rw [h1], by simpa [Env.acks, hr] using h2⟩
    | fail =>
      have hr' : i2cResponse p (.write a m) s = .fail := hr
      refine ⟨[m], by simp, ?_, ?_⟩
      · simp [sendWrites, hr', i2cState, Env.after, Env.events, hr]
      · intro h
        simp [sendWrites, hr'] at h

/-- Sending writes changes nothing but the environment and the trace. -/
theorem sendWrites_frame (p : BusIx) (a : Addr) (msgs : List (List Byte)) (s : State) :
    (sendWrites p a msgs s).2 = { s with
      env := (sendWrites p a msgs s).2.env, trace := (sendWrites p a msgs s).2.trace } := by
  obtain ⟨sent, _, h, _⟩ := sendWrites_spec p a msgs s
  rw [h]

/-- A command that ends after sending writes answers what `WritesThen` says, `done` being its RESULT. -/
theorem writesThen_endWrites (s : State) (p : BusIx) (a : Addr) (msgs : List (List Byte)) (r : Word) :
    WritesThen s p a msgs (fun t => { t with result := r }) (.next (endWrites r (sendWrites p a msgs s))) := by
  refine ⟨fun h => ?_, fun pre m post hm hpre hf => ?_⟩
  · rw [sendWrites_acks h]
    simp only [endWrites, finish]
    rfl
  · subst hm
    rw [sendWrites_fails hpre hf]
    simp only [endWrites, raise]
    rfl

/-! ### Detection (R145, R173) -/

/-- Everything detection can do on an open bus: it reads candidates in order up to the first that answers, and touches only
the selected target, the environment and the trace. -/
theorem tryCandidates_spec (p : BusIx) (reg : Byte) (cands : List Addr) (s : State) :
    ∃ tried, tried <+: cands ∧
      (tryCandidates p reg cands s).2 = { (match tried.getLast? with
          | some a => s.setSel p (some a)
          | none => s) with
        env := s.env.after p (tried.map (fun a => .writeRead a reg 1)),
        trace := s.trace ++ s.env.events p (tried.map (fun a => .writeRead a reg 1)) } ∧
      (∀ a, (tryCandidates p reg cands s).1 = some a → tried.getLast? = some a) := by
  induction cands generalizing s with
  | nil =>
    exact ⟨[], List.prefix_rfl, by simp [tryCandidates, Env.after, Env.events], fun a h => by simp [tryCandidates] at h⟩
  | cons c cands ih =>
    cases hr : s.env.response p (.writeRead c reg 1) with
    | ok d =>
      have hr' : i2cResponse p (.writeRead c reg 1) (s.setSel p (some c)) = .ok d := hr
      refine ⟨[c], by simp, ?_, ?_⟩
      · simp [tryCandidates, hr', i2cState, Env.after, Env.events, hr]
      · intro a h
        simpa [tryCandidates, hr'] using h
    | fail =>
      have hr' : i2cResponse p (.writeRead c reg 1) (s.setSel p (some c)) = .fail := hr
      obtain ⟨tried, hpre, hst, hall⟩ := ih (i2cState p (.writeRead c reg 1) (s.setSel p (some c)))
      refine ⟨c :: tried, by simpa using hpre, ?_, ?_⟩
      · simp only [tryCandidates, hr', hst]
        cases tried with
        | nil => simp [i2cState, Env.after, Env.events, hr]
        | cons b bs =>
          have hl : (c :: b :: bs).getLast? = (b :: bs).getLast? := by simp
          rw [hl]
          cases hlast : (b :: bs).getLast? with
          | none => simp at hlast
          | some a =>
            simp [i2cState, Env.after, Env.events, hr, State.setSel, State.setPort, State.port]
      · intro a h
        simp only [tryCandidates, hr'] at h
        have h2 := hall a h
        cases tried with
        | nil => simp at h2
        | cons b bs => simpa using h2

/-- The first candidate that answers is the one detection resolves. -/
theorem tryCandidates_found {p : BusIx} {reg : Byte} {pre post : List Addr} {a : Addr} {d : List Byte} {s : State}
    (hpre : s.env.nacks p (pre.map (fun c => .writeRead c reg 1)) = true)
    (ha : (s.env.after p (pre.map (fun c => .writeRead c reg 1))).response p (.writeRead a reg 1) = .ok d) :
    tryCandidates p reg (pre ++ a :: post) s =
      (some a, { s.setSel p (some a) with
        env := s.env.after p ((pre ++ [a]).map (fun c => .writeRead c reg 1)),
        trace := s.trace ++ pre.map (fun c => .tx p (.writeRead c reg 1) .fail) ++ [.tx p (.writeRead a reg 1) (.ok d)] }) := by
  induction pre generalizing s with
  | nil =>
    have hr : i2cResponse p (.writeRead a reg 1) (s.setSel p (some a)) = .ok d := ha
    have ha' : s.env.response p (.writeRead a reg 1) = .ok d := ha
    simp [tryCandidates, hr, i2cState, Env.after, ha']
  | cons c pre ih =>
    simp only [List.map_cons, Env.nacks] at hpre
    split at hpre
    · exact absurd hpre (by simp)
    · next hd =>
      have hr : i2cResponse p (.writeRead c reg 1) (s.setSel p (some c)) = .fail := hd
      simp only [List.cons_append, tryCandidates, hr]
      rw [ih (s := i2cState p (.writeRead c reg 1) (s.setSel p (some c))) hpre ha]
      simp [i2cState, Env.after, hd, State.setSel, State.setPort, State.port]

/-- When every candidate fails, the last one stays selected. -/
theorem tryCandidates_none {p : BusIx} {reg : Byte} {pre : List Addr} {a : Addr} {s : State}
    (h : s.env.nacks p ((pre ++ [a]).map (fun c => .writeRead c reg 1)) = true) :
    tryCandidates p reg (pre ++ [a]) s =
      (none, { s.setSel p (some a) with
        env := s.env.after p ((pre ++ [a]).map (fun c => .writeRead c reg 1)),
        trace := s.trace ++ (pre ++ [a]).map (fun c => .tx p (.writeRead c reg 1) .fail) }) := by
  induction pre generalizing s with
  | nil =>
    simp only [List.nil_append, List.map_cons, List.map_nil, Env.nacks] at h
    split at h
    · exact absurd h (by simp)
    · next hd =>
      have hr : i2cResponse p (.writeRead a reg 1) (s.setSel p (some a)) = .fail := hd
      simp [tryCandidates, hr, i2cState, Env.after, hd]
  | cons c pre ih =>
    simp only [List.cons_append, List.map_cons, Env.nacks] at h
    split at h
    · exact absurd h (by simp)
    · next hd =>
      have hr : i2cResponse p (.writeRead c reg 1) (s.setSel p (some c)) = .fail := hd
      simp only [List.cons_append, tryCandidates, hr]
      rw [ih (s := i2cState p (.writeRead c reg 1) (s.setSel p (some c))) h]
      simp [i2cState, Env.after, hd, State.setSel, State.setPort, State.port]

/-! ### Scanning (R109) -/

/-- A scan finds at most as many addresses as it probes. -/
theorem found_length (e : Env) (p : BusIx) (as : List Addr) : (e.found p as).length ≤ as.length := by
  induction as generalizing e with
  | nil => simp [Env.found]
  | cons a as ih =>
    simp only [Env.found]
    split
    · simpa using ih _
    · have := ih (e.answered p (.probe a)); simp; omega

/-- A scan probes every address once, in order, and lists those that acknowledge from DATA[k] on. -/
theorem probeAll_eq (p : BusIx) (as : List Addr) (k : Nat) (s : State) :
    probeAll p as k s =
      (k + (s.env.found p as).length, { s with
        data := Memory.writeBytes s.data k ((s.env.found p as).map (fun a => a.setWidth 8)),
        env := s.env.after p (as.map .probe), trace := s.trace ++ s.env.events p (as.map .probe) }) := by
  induction as generalizing k s with
  | nil => simp [probeAll, Env.found, Env.after, Env.events, Memory.writeBytes]
  | cons a as ih =>
    cases hr : s.env.response p (.probe a) with
    | ok d =>
      have hr' : i2cResponse p (.probe a) s = .ok d := hr
      simp only [probeAll, hr']
      rw [ih]
      simp [i2cState, Env.found, Env.after, Env.events, hr, Memory.writeBytes]
      omega
    | fail =>
      have hr' : i2cResponse p (.probe a) s = .fail := hr
      simp only [probeAll, hr']
      rw [ih]
      simp [i2cState, Env.found, Env.after, Env.events, hr]

/-- A scan probes at most 117 addresses. -/
theorem scanAddrs_length (first last : Byte) : (scanAddrs first last).length ≤ 117 := by
  simp [scanAddrs, Config.scanLo, Config.scanHi]; omega

/-- Every probed address lies in 0x03..0x77. -/
theorem scanAddrs_inRange {first last : Byte} {a : Addr} (h : a ∈ scanAddrs first last) : Addr.inScanRange a = true := by
  simp only [scanAddrs, List.mem_map, List.mem_range', Config.scanLo, Config.scanHi] at h
  obtain ⟨x, ⟨i, hi, rfl⟩, rfl⟩ := h
  simp only [Addr.inScanRange, Config.scanLo, Config.scanHi, BitVec.toNat_ofNat, Bool.and_eq_true, decide_eq_true_eq]
  omega

/-! ### Closing (R101, R210) -/

/-- Closing a bus that is not open does nothing. -/
theorem closeBus_closed {p : BusIx} {s : State} (h : (s.port p).opened = false) : closeBus p s = s := by
  simp [closeBus, h]

/-- Dropping the PWM record. -/
theorem dropRecOn_pwm (p : BusIx) (s : State) :
    dropRecOn p .pwm s = { s with recPwm := recAfterClose p s.recPwm } := by
  unfold dropRecOn recAfterClose
  rw [unitRec_pwm]
  split <;> rfl

/-- Dropping the display record. -/
theorem dropRecOn_disp (p : BusIx) (s : State) :
    dropRecOn p .disp s = { s with recDisp := recAfterClose p s.recDisp } := by
  unfold dropRecOn recAfterClose
  rw [unitRec_disp]
  split <;> rfl

/-- Closing an open bus: the port, one Release, and the records bound to it. -/
theorem closeBus_opened {p : BusIx} {s : State} (h : (s.port p).opened = true) :
    closeBus p s = { s.setPort p Port.closed with
      trace := s.trace ++ [.release p], recPwm := recAfterClose p s.recPwm, recDisp := recAfterClose p s.recDisp } := by
  simp only [closeBus, h, if_true, dropRecOn_pwm, dropRecOn_disp]
  rfl

/-- Closing changes only the ports, the records and the trace. -/
theorem closeBus_frame (p : BusIx) (s : State) :
    closeBus p s = { s with
      ports := (closeBus p s).ports, recPwm := (closeBus p s).recPwm, recDisp := (closeBus p s).recDisp,
      trace := (closeBus p s).trace } := by
  cases h : (s.port p).opened with
  | true => rw [closeBus_opened h]; rfl
  | false => rw [closeBus_closed h]

/-- The ports after closing one. -/
theorem closeBus_port (p q : BusIx) (s : State) :
    (closeBus p s).port q = if p = q ∧ (s.port p).opened = true then Port.closed else s.port q := by
  cases h : (s.port p).opened with
  | true =>
    rw [closeBus_opened h]
    have : ∀ t : State, State.port { t with
        trace := s.trace ++ [.release p], recPwm := recAfterClose p s.recPwm, recDisp := recAfterClose p s.recDisp } q =
        t.port q := fun _ => rfl
    rw [this, port_setPort]; simp
  | false => rw [closeBus_closed h]; simp

/-- Closing several buses changes only the ports, the records and the trace. -/
theorem closeBuses_frame (n : Nat) (s : State) :
    closeBuses n s = { s with
      ports := (closeBuses n s).ports, recPwm := (closeBuses n s).recPwm, recDisp := (closeBuses n s).recDisp,
      trace := (closeBuses n s).trace } := by
  induction n with
  | zero => rfl
  | succ n ih =>
    rw [closeBuses, closeBus_frame]
    rw [ih]

/-- The ports after closing the first n buses. -/
theorem closeBuses_port (n : Nat) (hn : n ≤ 16) (s : State) (q : BusIx) :
    (closeBuses n s).port q = if q.toNat < n ∧ (s.port q).opened = true then Port.closed else s.port q := by
  induction n with
  | zero => simp [closeBuses]
  | succ n ih =>
    have hn' := ih (by omega)
    have hq : (BitVec.ofNat 4 n).toNat = n := by simp; omega
    rw [closeBuses, closeBus_port]
    by_cases hnq : BitVec.ofNat 4 n = q
    · subst hnq
      rw [hn', hq]
      simp
    · have hne : q.toNat ≠ n := fun h => hnq (BitVec.eq_of_toNat_eq (by rw [hq]; exact h.symm))
      rw [hn']
      simp only [hnq, false_and, if_false]
      by_cases hlt : q.toNat < n
      · have : q.toNat < n + 1 := by omega
        simp [hlt, this]
      · have : ¬ q.toNat < n + 1 := by omega
        simp [hlt, this]

/-- The trace after closing the first n buses: one Release for each that was open, in ascending order. -/
theorem closeBuses_trace (n : Nat) (hn : n ≤ 16) (s : State) :
    (closeBuses n s).trace = s.trace ++
      ((List.range n).filter (fun b => (s.port (BitVec.ofNat 4 b)).opened)).map (fun b => .release (BitVec.ofNat 4 b)) := by
  induction n with
  | zero => simp [closeBuses]
  | succ n ih =>
    have hq : (BitVec.ofNat 4 n).toNat = n := by simp; omega
    have hport : (closeBuses n s).port (BitVec.ofNat 4 n) = s.port (BitVec.ofNat 4 n) := by
      rw [closeBuses_port n (by omega), hq]; simp
    rw [closeBuses, List.range_succ, List.filter_append, List.map_append, ← List.append_assoc, ← ih (by omega)]
    cases ho : (s.port (BitVec.ofNat 4 n)).opened with
    | true =>
      rw [closeBus_opened (by rw [hport]; exact ho)]
      simp [ho]
    | false =>
      rw [closeBus_closed (by rw [hport]; exact ho)]
      simp [ho]

end Sys2Proof.Machine
end

