-- ==== Sys2Proof/Laws/Units.lean ====
section
/-! SUPPORT. What the shared operations of the PWM and the display unit answer (41_pwm, 42_display_keypad). -/

namespace Sys2Proof.Machine

/-- A unit's command that sends messages: its device selected, the writes, the result. -/
theorem writesThen_unitWrites (u : Chip) (msgs : List (List Byte)) (r : Word) (s : State) :
    WritesThen (s.setSel (s.unitRec u).bus (some (s.unitRec u).addr)) (s.unitRec u).bus (s.unitRec u).addr msgs
      (withResult r) (.next (unitWrites u msgs r s)) :=
  writesThen_endWrites _ _ _ _ _

/-- A display command: the buffer, the device selected, the writes, the result (R175 to R179). -/
theorem writesThen_showDigits (dbuf : Vector Bitmap 4) (msgs : List (List Byte)) (r : Word) (s : State) :
    WritesThen { s.setSel s.recDisp.bus (some s.recDisp.addr) with dbuf := dbuf } s.recDisp.bus s.recDisp.addr msgs
      (withResult r) (.next (showDigits dbuf msgs r s)) :=
  writesThen_endWrites _ _ _ _ _

/-- INIT of a detected unit: `init` dropped, the device selected, the writes, `init` set only after the last (R146, R174). -/
theorem writesThen_initUnit (u : Chip) (msgs : List (List Byte)) (s : State) (h : (s.unitRec u).det = true) :
    WritesThen ((s.setSel (s.unitRec u).bus (some (s.unitRec u).addr)).setRec u { s.unitRec u with init := false })
      (s.unitRec u).bus (s.unitRec u).addr msgs
      (fun t => { t.setRec u { s.unitRec u with init := true } with result := 0#32 }) (.next (initUnit u msgs s)) := by
  have hs : select u (s.setRec u { s.unitRec u with init := false }) =
      (s.setSel (s.unitRec u).bus (some (s.unitRec u).addr)).setRec u { s.unitRec u with init := false } := by
    cases u <;> rfl
  refine ⟨fun ha => ?_, fun pre m post hm hpre hf => ?_⟩
  · rw [initUnit, if_pos h, hs, sendWrites_acks ha]
    cases u <;> rfl
  · subst hm
    rw [initUnit, if_pos h, hs, sendWrites_fails hpre hf]
    cases u <;> rfl

/-! ### What they leave alone -/

/-- Ending a command after writes touches STATUS, RESULT, the environment and the trace. -/
theorem endWrites_frame (p : BusIx) (a : Addr) (msgs : List (List Byte)) (r : Word) (s : State) :
    endWrites r (sendWrites p a msgs s) = { s with
      env := (sendWrites p a msgs s).2.env, trace := (sendWrites p a msgs s).2.trace,
      status := (endWrites r (sendWrites p a msgs s)).status, result := (endWrites r (sendWrites p a msgs s)).result } := by
  have h := sendWrites_frame p a msgs s
  unfold endWrites
  split
  all_goals
    simp only [finish, raise]
    rw [h]

/-- A unit's command that sends messages touches one port's target, STATUS, RESULT, the environment and the trace. -/
theorem unitWrites_frame (u : Chip) (msgs : List (List Byte)) (r : Word) (s : State) :
    ∃ e tr st re, unitWrites u msgs r s = { s.setSel (s.unitRec u).bus (some (s.unitRec u).addr) with
      env := e, trace := tr, status := st, result := re } :=
  ⟨_, _, _, _, endWrites_frame _ _ _ _ _⟩

/-- A display command that sends digits touches the buffer besides. -/
theorem showDigits_frame (dbuf : Vector Bitmap 4) (msgs : List (List Byte)) (r : Word) (s : State) :
    ∃ e tr st re, showDigits dbuf msgs r s = { s.setSel s.recDisp.bus (some s.recDisp.addr) with
      dbuf := dbuf, env := e, trace := tr, status := st, result := re } :=
  ⟨_, _, _, _, endWrites_frame _ _ _ _ _⟩

/-- INIT touches STATUS, RESULT and, of a detected unit, its record's `init`, one port's target, the environment and the
trace. -/
theorem initUnit_frame (u : Chip) (msgs : List (List Byte)) (s : State) :
    (initUnit u msgs s = raise .deviceNotFound s ∧ (s.unitRec u).det = false) ∨
    ∃ b e tr st re, (s.unitRec u).det = true ∧
      initUnit u msgs s = { (s.setSel (s.unitRec u).bus (some (s.unitRec u).addr)).setRec u { s.unitRec u with init := b } with
        env := e, trace := tr, status := st, result := re } := by
  cases hd : (s.unitRec u).det with
  | false => exact .inl ⟨by simp [initUnit, hd], rfl⟩
  | true =>
    right
    have h := sendWrites_frame (s.unitRec u).bus (s.unitRec u).addr msgs
      (select u (s.setRec u { s.unitRec u with init := false }))
    rw [initUnit, if_pos hd]
    generalize sendWrites (s.unitRec u).bus (s.unitRec u).addr msgs
      (select u (s.setRec u { s.unitRec u with init := false })) = w at h
    simp only
    split
    · refine ⟨true, w.2.env, w.2.trace, statusWord okCode, 0#32, trivial, ?_⟩
      rw [h]
      cases u <;> rfl
    · refine ⟨false, w.2.env, w.2.trace, statusWord (errorCode .transportError), 0#32, trivial, ?_⟩
      rw [h]
      cases u <;> rfl

/-- DETECT clears the record of a unit on a bus that is not open; on an open one it selects candidates in order, and records
one or none. -/
theorem detectUnit_cases (u : Chip) (cands : List Addr) (reg b : Byte) (s : State) :
    (¬ Opened s b ∧ detectUnit u cands reg b s = raise .busUnavailable (clearRec u s)) ∨
    (Opened s b ∧ ∃ tried, tried <+: cands ∧
      ((∃ a, tried.getLast? = some a ∧
        detectUnit u cands reg b s = finish (a.setWidth 32)
          { (s.setRec u { det := true, init := false, bus := portOf b, addr := a }).setSel (portOf b) (some a) with
            env := s.env.after (portOf b) (probeReads reg tried),
            trace := s.trace ++ s.env.events (portOf b) (probeReads reg tried) }) ∨
      detectUnit u cands reg b s = raise .deviceNotFound
        { (match tried.getLast? with
            | some a => (clearRec u s).setSel (portOf b) (some a)
            | none => clearRec u s) with
          env := s.env.after (portOf b) (probeReads reg tried),
          trace := s.trace ++ s.env.events (portOf b) (probeReads reg tried) })) := by
  have hO : Opened (clearRec u s) b ↔ Opened s b := by simp [Opened]
  by_cases h : Opened s b
  · right
    refine ⟨h, ?_⟩
    obtain ⟨tried, hpre, hst, hsome⟩ := tryCandidates_spec (portOf b) reg cands (clearRec u s)
    refine ⟨tried, hpre, ?_⟩
    simp only [detectUnit, openPort_some (hO.2 h)]
    cases hr : (tryCandidates (portOf b) reg cands (clearRec u s)).1 with
    | some a =>
      left
      have hl := hsome a hr
      refine ⟨a, hl, ?_⟩
      simp only
      rw [hst, hl]
      cases u <;> rfl
    | none =>
      right
      simp only
      rw [hst]
      cases u <;> (cases tried.getLast? <;> rfl)
  · left
    refine ⟨h, ?_⟩
    simp only [detectUnit, openPort_none (fun hh => h (hO.1 hh))]

/-! ### What they leave in the trace -/

/-- The trace after a command that sends writes: those it sent, and all of them when it ends in success. -/
theorem endWrites_trace (p : BusIx) (a : Addr) (msgs : List (List Byte)) (r : Word) (s : State) :
    ∃ sent, sent <+: msgs ∧
      (endWrites r (sendWrites p a msgs s)).trace = s.trace ++ s.env.events p (sent.map (.write a)) ∧
      ((endWrites r (sendWrites p a msgs s)).status = 0#32 → sent = msgs) := by
  obtain ⟨sent, h1, h2, h3⟩ := sendWrites_spec p a msgs s
  refine ⟨sent, h1, ?_, ?_⟩
  · unfold endWrites
    split <;> simp [h2]
  · unfold endWrites
    split
    · next h => exact fun _ => (h3 h).1
    · intro h; simp [statusWord, errorCode] at h

/-- The trace after a unit's command that sends messages. -/
theorem unitWrites_trace (u : Chip) (msgs : List (List Byte)) (r : Word) (s : State) :
    ∃ sent, sent <+: msgs ∧
      (unitWrites u msgs r s).trace =
        s.trace ++ s.env.events (s.unitRec u).bus (sent.map (.write (s.unitRec u).addr)) ∧
      ((unitWrites u msgs r s).status = 0#32 → sent = msgs) :=
  endWrites_trace _ _ _ _ (select u s)

/-- The trace after a display command that sends digits. -/
theorem showDigits_trace (dbuf : Vector Bitmap 4) (msgs : List (List Byte)) (r : Word) (s : State) :
    ∃ sent, sent <+: msgs ∧
      (showDigits dbuf msgs r s).trace = s.trace ++ s.env.events s.recDisp.bus (sent.map (.write s.recDisp.addr)) ∧
      ((showDigits dbuf msgs r s).status = 0#32 → sent = msgs) :=
  unitWrites_trace .disp msgs r { s with dbuf := dbuf }

/-- The trace after INIT: nothing for want of a chip, else the writes sent. -/
theorem initUnit_trace (u : Chip) (msgs : List (List Byte)) (s : State) :
    ((initUnit u msgs s).trace = s.trace ∧ (initUnit u msgs s).status = 2#32) ∨
    (s.unitRec u).det = true ∧ ∃ sent, sent <+: msgs ∧
      (initUnit u msgs s).trace = s.trace ++ s.env.events (s.unitRec u).bus (sent.map (.write (s.unitRec u).addr)) ∧
      ((initUnit u msgs s).status = 0#32 → sent = msgs) := by
  unfold initUnit
  cases hd : (s.unitRec u).det with
  | false => left; simp [statusWord, errorCode]
  | true =>
    right
    refine ⟨rfl, ?_⟩
    obtain ⟨sent, h1, h2, h3⟩ := sendWrites_spec (s.unitRec u).bus (s.unitRec u).addr msgs
      (select u (s.setRec u { s.unitRec u with init := false }))
    rw [if_pos rfl]
    generalize sendWrites (s.unitRec u).bus (s.unitRec u).addr msgs
      (select u (s.setRec u { s.unitRec u with init := false })) = w at h2 h3 ⊢
    simp only
    refine ⟨sent, h1, ?_, ?_⟩
    · split <;> simp [h2]
    · split
      · next h => exact fun _ => (h3 h).1
      · intro h; simp [statusWord, errorCode] at h

end Sys2Proof.Machine
end

