-- ==== Sys2Proof/Laws/Exec.lean ====
section
/-! SUPPORT. Everything a command can answer, said once: one constructor per way a command ends (40_transport to 43_manager).
A proof about every command goes by cases on `Answer`. -/

namespace Sys2Proof.Machine

/-- What command `i` can answer from state `s`. -/
inductive Answer (s : State) : Instr → State → Prop where
  /-- A check fails before anything is done; the code is one of the command's own (R222). -/
  | raised {i : Instr} {e : Error} (hc : (errorCode e).toNat ∈ errorCodes i) (hp : ∀ b, i ≠ .pwmDetect b)
      (hd : ∀ b, i ≠ .dispDetect b) : Answer s i (raise e s)
  /-- BUS_OPEN finds the bus held elsewhere. -/
  | held {b : Byte} : Answer s (.busOpen b) (raise .busUnavailable { s with env := s.env.heldAnswered })
  /-- BUS_OPEN acquires the port. -/
  | opens {b : Byte} (hv : b.toNat < s.cfg.nbus.val) (hc : (s.port (portOf b)).opened = false) :
      Answer s (.busOpen b) (finish 0#32
        (emit (.acquire (portOf b)) ({ s with env := s.env.heldAnswered }.setPort (portOf b) { opened := true, sel := none })))
  /-- BUS_CLOSE of a bus that is not open. -/
  | closesNothing {b : Byte} (h : ¬ Opened s b) : Answer s (.busClose b) (finish 0#32 s)
  /-- BUS_CLOSE of an open bus. -/
  | closes {b : Byte} (h : Opened s b) : Answer s (.busClose b) (finish 0#32 { s.setPort (portOf b) Port.closed with
      trace := s.trace ++ [.release (portOf b)], recPwm := recAfterClose (portOf b) s.recPwm,
      recDisp := recAfterClose (portOf b) s.recDisp })
  /-- SET_ADDR selects. -/
  | selects {b a : Byte} (h : Opened s b) (hlo : 0x03 ≤ a.toNat) (hhi : a.toNat ≤ 0x77) :
      Answer s (.setAddr b a) (finish 0#32 (s.setSel (portOf b) (some (a.setWidth 7))))
  /-- WRITE_BYTE sends its write. -/
  | writesByte {b r v : Byte} {a : Addr} (h : ReadyAt s b a) :
      Answer s (.writeByte b r v) (endWrites 0#32 (sendWrites (portOf b) a [[r, v]] s))
  /-- WRITE_BLOCK sends its write. -/
  | writesBlock {b r n : Byte} {a : Addr} (hn : n.toNat ≤ 32) (h : ReadyAt s b a) :
      Answer s (.writeBlock b r n)
        (endWrites 0#32 (sendWrites (portOf b) a [[r] ++ Memory.readBytes s.data 0 n.toNat] s))
  /-- READ_BYTE is answered. -/
  | readsByte {b r : Byte} {a : Addr} {d : List Byte} (h : ReadyAt s b a)
      (hd : s.env.response (portOf b) (.writeRead a r 1) = .ok d) :
      Answer s (.readByte b r) (finish ((d.getD 0 0#8).setWidth 32) (i2cState (portOf b) (.writeRead a r 1) s))
  /-- READ_BYTE is not answered. -/
  | failsByte {b r : Byte} {a : Addr} (h : ReadyAt s b a)
      (hf : s.env.response (portOf b) (.writeRead a r 1) = .fail) :
      Answer s (.readByte b r) (raise .transportError (i2cState (portOf b) (.writeRead a r 1) s))
  /-- READ_BLOCK is answered. -/
  | readsBlock {b r n : Byte} {a : Addr} {d : List Byte} (h0 : 0 < n.toNat) (hn : n.toNat ≤ 32) (h : ReadyAt s b a)
      (hd : s.env.response (portOf b) (.writeRead a r n.toNat) = .ok d) (hl : d.length = n.toNat) :
      Answer s (.readBlock b r n) (finish (n.setWidth 32)
        { i2cState (portOf b) (.writeRead a r n.toNat) s with data := Memory.writeBytes s.data 0 d, dlen := n })
  /-- READ_BLOCK is not answered. -/
  | failsBlock {b r n : Byte} {a : Addr} (h0 : 0 < n.toNat) (hn : n.toNat ≤ 32) (h : ReadyAt s b a)
      (hf : s.env.response (portOf b) (.writeRead a r n.toNat) = .fail) :
      Answer s (.readBlock b r n) (raise .transportError (i2cState (portOf b) (.writeRead a r n.toNat) s))
  /-- SCAN probes its addresses. -/
  | scans {b first last : Byte} (h : Opened s b) :
      Answer s (.scan b first last) (finish (BitVec.ofNat 32 (s.env.found (portOf b) (scanAddrs first last)).length)
        { s with
          data := Memory.writeBytes s.data 0 ((s.env.found (portOf b) (scanAddrs first last)).map (fun a => a.setWidth 8)),
          env := s.env.after (portOf b) ((scanAddrs first last).map .probe),
          trace := s.trace ++ s.env.events (portOf b) ((scanAddrs first last).map .probe),
          dlen := BitVec.ofNat 8 (s.env.found (portOf b) (scanAddrs first last)).length })
  /-- MGR_CLOSE closes every bus. -/
  | closesAll : Answer s .mgrClose (finish 0#32
      { clearRec .disp (clearRec .pwm (closeBuses s.cfg.nbus.val s)) with dbuf := blankDigits })
  /-- PWM_DETECT. -/
  | pwmDetects {b : Byte} : Answer s (.pwmDetect b) (detectUnit .pwm s.cfg.pwmCandidates s.cfg.pwmMode1 b s)
  /-- DISP_DETECT. -/
  | dispDetects {b : Byte} : Answer s (.dispDetect b) (detectUnit .disp s.cfg.dispCandidates s.cfg.dispProbeReg b s)
  /-- PWM_INIT. -/
  | pwmInits : Answer s .pwmInit (initUnit .pwm (pwmInitMsgs s.cfg) s)
  /-- DISP_INIT. -/
  | dispInits : Answer s .dispInit (initUnit .disp (dispInitMsgs s.cfg) s)
  /-- PWM_SET of one channel or of all. -/
  | setsChannel {ch : Byte} (hn : ch.toNat ≤ 16) (h : s.recPwm.init = true) :
      Answer s (.pwmSet ch) (unitWrites .pwm (pwmSetMsgs s.cfg ch (ticks s.arg0) (ticks s.arg1)) 0#32 s)
  /-- PWM_SET_ALL. -/
  | setsAll (h : s.recPwm.init = true) :
      Answer s .pwmSetAll (unitWrites .pwm (allMsgs s.cfg (ticks s.arg0) (ticks s.arg1)) 0#32 s)
  /-- FAN_SPEED. -/
  | setsFan (h : s.recPwm.init = true) :
      Answer s .fanSpeed
        (unitWrites .pwm (chanMsgs s.cfg s.cfg.fanChannel.val 0#12 (level s.arg0)) ((level s.arg0).setWidth 32) s)
  /-- LED_COLOR. -/
  | setsLed (h : s.recPwm.init = true) :
      Answer s .ledColor (unitWrites .pwm (ledMsgs s.cfg (level s.arg0) (level s.arg1) (level s.arg2)) 0#32 s)
  /-- DISP_CLEAR. -/
  | clears (h : s.recDisp.init = true) :
      Answer s .dispClear (showDigits blankDigits (digitMsgs s.cfg blankDigits) 0#32 s)
  /-- DISP_CHAR_L. -/
  | showsLeft {idx c : Byte} {slot : Fin 4} (hs : slot.val = idx.toNat) (h : s.recDisp.init = true) :
      Answer s (.dispCharL idx c) (showChar slot c s)
  /-- DISP_CHAR_R. -/
  | showsRight {idx c : Byte} {slot : Fin 4} (hs : slot.val + idx.toNat = 3) (h : s.recDisp.init = true) :
      Answer s (.dispCharR idx c) (showChar slot c s)
  /-- DISP_STRING. -/
  | showsText {right : Bool} (hl : s.dlen.toNat ≤ 128) (h : s.recDisp.init = true) :
      Answer s (.dispString right)
        (showDigits (layout s.cfg (Memory.readBytes s.data 0 s.dlen.toNat) right)
          (digitMsgs s.cfg (layout s.cfg (Memory.readBytes s.data 0 s.dlen.toNat) right)) 0#32 s)
  /-- READ_KEY is answered. -/
  | readsKey {d : List Byte} (h : s.recDisp.init = true)
      (hd : s.env.response s.recDisp.bus (.writeRead s.recDisp.addr s.cfg.keyBase (2 * s.cfg.keyRows)) = .ok d) :
      Answer s .readKey (finish (BitVec.ofNat 32 (decodeKey s.cfg d))
        (i2cState s.recDisp.bus (.writeRead s.recDisp.addr s.cfg.keyBase (2 * s.cfg.keyRows)) (select .disp s)))
  /-- READ_KEY is not answered. -/
  | failsKey (h : s.recDisp.init = true)
      (hf : s.env.response s.recDisp.bus (.writeRead s.recDisp.addr s.cfg.keyBase (2 * s.cfg.keyRows)) = .fail) :
      Answer s .readKey (raise .transportError
        (i2cState s.recDisp.bus (.writeRead s.recDisp.addr s.cfg.keyBase (2 * s.cfg.keyRows)) (select .disp s)))

/-- The slot counted from the left. -/
theorem leftSlot_eq_some {idx : Byte} {slot : Fin 4} (h : leftSlot idx = some slot) : slot.val = idx.toNat := by
  unfold leftSlot at h
  split at h
  · cases h; rfl
  · exact absurd h (by simp)

/-- The slot counted from the right. -/
theorem rightSlot_eq_some {idx : Byte} {slot : Fin 4} (h : rightSlot idx = some slot) : slot.val + idx.toNat = 3 := by
  unfold rightSlot at h
  split at h
  · cases h; simp only; omega
  · exact absurd h (by simp)

/-- A flag that a check found set. -/
theorem true_of_not_not {b : Bool} (h : ¬ (!b) = true) : b = true := by simpa using h

/-- Every command answers one of these. -/
theorem exec_answer {i : Instr} {s t : State} (h : exec i s = .next t) : Answer s i t := by
  cases i
  case busOpen b =>
    cases h
    by_cases hv : b.toNat < s.cfg.nbus.val
    · rw [validPort_some hv]
      simp only
      split
      · exact .raised (by simp [errorCode, errorCodes]) (by simp) (by simp)
      · split
        · exact .raised (by simp [errorCode, errorCodes]) (by simp) (by simp)
        · next ho =>
          split
          · exact .held
          · exact .opens hv (by simpa using ho)
    · rw [validPort_none hv]
      exact .raised (by simp [errorCode, errorCodes]) (by simp) (by simp)
  case busClose b =>
    cases h
    by_cases ho : Opened s b
    · rw [validPort_some ho.1]
      simp only [closeBus_opened ho.2]
      exact .closes ho
    · by_cases hv : b.toNat < s.cfg.nbus.val
      · rw [validPort_some hv]
        have hc : (s.port (portOf b)).opened = false := by simpa using fun hh => ho ⟨hv, hh⟩
        simp only [closeBus_closed hc]
        exact .closesNothing ho
      · rw [validPort_none hv]
        exact .closesNothing ho
  case setAddr b a =>
    cases h
    by_cases ho : Opened s b
    · rw [openPort_some ho]
      simp only [Config.scanLo, Config.scanHi]
      split
      · exact .raised (by simp [errorCode, errorCodes]) (by simp) (by simp)
      · exact .selects ho (by omega) (by omega)
    · rw [openPort_none ho]
      exact .raised (by simp [errorCode, errorCodes]) (by simp) (by simp)
  case writeByte b r v =>
    cases h
    split
    · exact .raised (by simp [errorCode, errorCodes]) (by simp) (by simp)
    · next x hx =>
      obtain ⟨hr, hp⟩ := readyTarget_eq_some hx
      rw [hp]
      exact .writesByte hr
  case readByte b r =>
    cases h
    split
    · exact .raised (by simp [errorCode, errorCodes]) (by simp) (by simp)
    · next x hx =>
      obtain ⟨hr, hp⟩ := readyTarget_eq_some hx
      rw [hp]
      split
      · next d hd => exact .readsByte hr hd
      · next hf => exact .failsByte hr hf
  case writeBlock b r n =>
    cases h
    simp only [Config.maxBlock]
    split
    · exact .raised (by simp [errorCode, errorCodes]) (by simp) (by simp)
    · split
      · exact .raised (by simp [errorCode, errorCodes]) (by simp) (by simp)
      · next x hx =>
        obtain ⟨hr, hp⟩ := readyTarget_eq_some hx
        rw [hp]
        exact .writesBlock (by omega) hr
  case readBlock b r n =>
    cases h
    simp only [Config.maxBlock]
    split
    · exact .raised (by simp [errorCode, errorCodes]) (by simp) (by simp)
    · split
      · exact .raised (by simp [errorCode, errorCodes]) (by simp) (by simp)
      · next x hx =>
        obtain ⟨hr, hp⟩ := readyTarget_eq_some hx
        rw [hp]
        split
        · next d hd => exact .readsBlock (by omega) (by omega) hr hd (response_ok_length hd)
        · next hf => exact .failsBlock (by omega) (by omega) hr hf
  case scan b first last =>
    cases h
    by_cases ho : Opened s b
    · rw [openPort_some ho]
      simp only [probeAll_eq, Nat.zero_add]
      exact .scans ho
    · rw [openPort_none ho]
      exact .raised (by simp [errorCode, errorCodes]) (by simp) (by simp)
  case mgrClose => cases h; exact .closesAll
  case pwmDetect => cases h; exact .pwmDetects
  case dispDetect => cases h; exact .dispDetects
  case pwmInit => cases h; exact .pwmInits
  case dispInit => cases h; exact .dispInits
  case pwmSet ch =>
    cases h
    simp only [Config.nChan]
    split
    · exact .raised (by simp [errorCode, errorCodes]) (by simp) (by simp)
    · split
      · exact .raised (by simp [errorCode, errorCodes]) (by simp) (by simp)
      · next hi => exact .setsChannel (by omega) (true_of_not_not hi)
  case pwmSetAll =>
    cases h
    split
    · exact .raised (by simp [errorCode, errorCodes]) (by simp) (by simp)
    · next hi => exact .setsAll (true_of_not_not hi)
  case fanSpeed =>
    cases h
    split
    · exact .raised (by simp [errorCode, errorCodes]) (by simp) (by simp)
    · next hi => exact .setsFan (true_of_not_not hi)
  case ledColor =>
    cases h
    split
    · exact .raised (by simp [errorCode, errorCodes]) (by simp) (by simp)
    · next hi => exact .setsLed (true_of_not_not hi)
  case dispClear =>
    cases h
    split
    · exact .raised (by simp [errorCode, errorCodes]) (by simp) (by simp)
    · next hi => exact .clears (true_of_not_not hi)
  case dispCharL idx c =>
    cases h
    split
    · exact .raised (by simp [errorCode, errorCodes]) (by simp) (by simp)
    · next slot hs =>
      split
      · exact .raised (by simp [errorCode, errorCodes]) (by simp) (by simp)
      · next hi => exact .showsLeft (leftSlot_eq_some hs) (true_of_not_not hi)
  case dispCharR idx c =>
    cases h
    split
    · exact .raised (by simp [errorCode, errorCodes]) (by simp) (by simp)
    · next slot hs =>
      split
      · exact .raised (by simp [errorCode, errorCodes]) (by simp) (by simp)
      · next hi => exact .showsRight (rightSlot_eq_some hs) (true_of_not_not hi)
  case dispString right =>
    cases h
    simp only [Config.dataSize]
    split
    · exact .raised (by simp [errorCode, errorCodes]) (by simp) (by simp)
    · split
      · exact .raised (by simp [errorCode, errorCodes]) (by simp) (by simp)
      · next hi => exact .showsText (by omega) (true_of_not_not hi)
  case readKey =>
    cases h
    split
    · exact .raised (by simp [errorCode, errorCodes]) (by simp) (by simp)
    · next hi =>
      simp only
      split
      · next d hd => exact .readsKey (true_of_not_not hi) hd
      · next hf => exact .failsKey (true_of_not_not hi) hf

/-! ### What the ports become -/

/-- A port number below NBUS is its bus field. -/
theorem toNat_of_portOf {s : State} {b : Byte} {p : BusIx} (h : portOf b = p) (hv : b.toNat < s.cfg.nbus.val) :
    b.toNat = p.toNat := by rw [← h, portOf_toNat hv]

/-- The ports after a unit's command that sends messages. -/
theorem unitWrites_ports (u : Chip) (msgs : List (List Byte)) (r : Word) (s : State) :
    (unitWrites u msgs r s).ports = (s.setSel (s.unitRec u).bus (some (s.unitRec u).addr)).ports := by
  obtain ⟨e, tr, st, re, h⟩ := unitWrites_frame u msgs r s
  rw [h]

/-- The ports after a display command that sends digits. -/
theorem showDigits_ports (dbuf : Vector Bitmap 4) (msgs : List (List Byte)) (r : Word) (s : State) :
    (showDigits dbuf msgs r s).ports = (s.setSel s.recDisp.bus (some s.recDisp.addr)).ports := by
  obtain ⟨e, tr, st, re, h⟩ := showDigits_frame dbuf msgs r s
  rw [h]

/-- The ports after DETECT: a candidate is selected, if any was tried. -/
theorem detectUnit_ports (u : Chip) (cands : List Addr) (reg b : Byte) (s : State) :
    (detectUnit u cands reg b s).ports = s.ports ∨
    (Opened s b ∧ ∃ a ∈ cands, (detectUnit u cands reg b s).ports = (s.setSel (portOf b) (some a)).ports) := by
  rcases detectUnit_cases u cands reg b s with ⟨_, h⟩ | ⟨ho, tried, hp, ⟨a, hl, h⟩ | h⟩
  · left; rw [h]; simp
  · right
    refine ⟨ho, a, hp.subset (List.mem_of_getLast? hl), ?_⟩
    rw [h]; simp [State.setSel, State.setPort, State.port]
  · cases hl : tried.getLast? with
    | none => left; rw [h, hl]; simp
    | some a =>
      right
      refine ⟨ho, a, hp.subset (List.mem_of_getLast? hl), ?_⟩
      rw [h, hl]; simp [State.setSel, State.setPort, State.port]

/-- What a command can do to the ports (R23, R24). -/
theorem exec_ports {i : Instr} {s t : State} (h : exec i s = .next t) :
    t.ports = s.ports ∨
    (i = .mgrClose ∧ t.ports = (closeBuses s.cfg.nbus.val s).ports) ∨
    (∃ b, i = .busOpen b ∧ b.toNat < s.cfg.nbus.val ∧ (s.port (portOf b)).opened = false ∧
      t.ports = (s.setPort (portOf b) ⟨true, none⟩).ports) ∨
    (∃ b, i = .busClose b ∧ Opened s b ∧ t.ports = (s.setPort (portOf b) Port.closed).ports) ∨
    (∃ b, ((∃ a, i = .setAddr b a) ∨ i = .pwmDetect b ∨ i = .dispDetect b) ∧ Opened s b ∧
      ∃ a, (s.cfg.wf = true → Addr.inScanRange a = true) ∧ t.ports = (s.setSel (portOf b) (some a)).ports) ∨
    ((i = .pwmInit ∧ s.recPwm.det = true ∨
      s.recPwm.init = true ∧ ((∃ ch, i = .pwmSet ch) ∨ i = .pwmSetAll ∨ i = .fanSpeed ∨ i = .ledColor)) ∧
      t.ports = (s.setSel s.recPwm.bus (some s.recPwm.addr)).ports) ∨
    ((i = .dispInit ∧ s.recDisp.det = true ∨
      s.recDisp.init = true ∧ (i = .dispClear ∨ (∃ idx c, i = .dispCharL idx c) ∨
      (∃ idx c, i = .dispCharR idx c) ∨ (∃ right, i = .dispString right) ∨ i = .readKey)) ∧
      t.ports = (s.setSel s.recDisp.bus (some s.recDisp.addr)).ports) := by
  cases exec_answer h
  case writesByte | writesBlock => rw [endWrites_frame]; simp
  case closesAll => right; left; simp
  case opens b hv hc => right; right; left; exact ⟨b, rfl, hv, hc, by simp⟩
  case closes b ho => right; right; right; left; exact ⟨b, rfl, ho, by simp⟩
  case selects b a ho h1 h2 => 
    right; right; right; right; left; refine ⟨b, .inl ⟨a, rfl⟩, ho, _, fun _ => ?_, by simp; rfl⟩
    simp [Addr.inScanRange, Config.scanLo, Config.scanHi]; omega
  case pwmDetects b =>
    rcases detectUnit_ports .pwm s.cfg.pwmCandidates s.cfg.pwmMode1 b s with h | ⟨ho, a, ha, h⟩
    · rw [h]; simp
    · right; right; right; right; left; refine ⟨b, by simp, ho, a, fun hw => ?_, h⟩
      exact pwmCandidates_inScanRange hw a ha
  case dispDetects b =>
    rcases detectUnit_ports .disp s.cfg.dispCandidates s.cfg.dispProbeReg b s with h | ⟨ho, a, ha, h⟩
    · rw [h]; simp
    · right; right; right; right; left; refine ⟨b, by simp, ho, a, fun hw => ?_, h⟩
      exact dispCandidates_inScanRange hw a ha
  case pwmInits =>
    rcases initUnit_frame .pwm (pwmInitMsgs s.cfg) s with ⟨h, _⟩ | ⟨b, e, tr, st, re, hd, h⟩
    · left; rw [h]; simp
    · rw [h]; simp at hd; simp [hd]
  case dispInits =>
    rcases initUnit_frame .disp (dispInitMsgs s.cfg) s with ⟨h, _⟩ | ⟨b, e, tr, st, re, hd, h⟩
    · left; rw [h]; simp
    · rw [h]; simp at hd; simp [hd]
  case setsChannel | setsAll | setsFan | setsLed => rw [unitWrites_ports]; simp [*]
  case clears | showsText => rw [showDigits_ports]; simp [*]
  case showsLeft | showsRight  => rw [showChar, showDigits_ports]; simp [*]
  case readsKey | failsKey => right; right; right; right; right; right; refine ⟨by simp [*], ?_⟩; simp [select]
  all_goals simp

end Sys2Proof.Machine
end

