-- ==== Sys2Proof/Laws/HostPort.lean ====
section
/-! SUPPORT. The host map read back (20_memory R51, R52), and what one input can do. -/

namespace Sys2Proof.Machine

/-- Every register is reached at its own offset (R51). -/
theorem hostAccess_regOffset (r : HostReg) : hostAccess (regOffset r) .w4 = .ok r := by
  cases r
  case sel b => revert b; decide
  case data k => revert k; decide
  all_goals decide

/-- The word indexes that name no register (R51). -/
theorem regAtIndex_none {i : Nat} (h : (12 ≤ i ∧ i < 16) ∨ (32 ≤ i ∧ i < 64) ∨ 96 ≤ i) : regAtIndex i = none := by
  have h1 : 12 ≤ i := by omega
  have h2 : ¬ (16 ≤ i ∧ i < 32) := by omega
  have h3 : ¬ (64 ≤ i ∧ i < 96) := by omega
  have hne : ∀ n, n < 12 → i ≠ n := fun n hn => by omega
  simp [regAtIndex, h2, h3, hne]

/-- The word indexes that name a register (R51). -/
theorem regAtIndex_some {i : Nat} (h : i < 12 ∨ (16 ≤ i ∧ i < 32) ∨ (64 ≤ i ∧ i < 96)) :
    ∃ r, regAtIndex i = some r := by
  rcases h with h | h | h
  · interval_cases i <;> exact ⟨_, rfl⟩
  · have hne : ∀ n, n < 12 → i ≠ n := fun n hn => by omega
    exact ⟨.sel (BitVec.ofNat 4 (i - 16)), by simp [regAtIndex, hne, h]⟩
  · have hne : ∀ n, n < 12 → i ≠ n := fun n hn => by omega
    have h2 : ¬ (16 ≤ i ∧ i < 32) := by omega
    exact ⟨.data (BitVec.ofNat 5 (i - 64)), by simp [regAtIndex, hne, h, h2]⟩

/-- Every command answers a next state: no command stops (R62, R224). -/
theorem exec_next (i : Instr) (s : State) : ∃ t, exec i s = .next t := by
  cases i <;> exact ⟨_, rfl⟩

/-- Executing a word answers a next state. -/
theorem execute_next (w : Word) (s : State) : ∃ t, execute w s = .next t := by
  unfold execute
  split
  · exact exec_next _ _
  · exact ⟨_, rfl⟩

/-- Everything one input can do when it is not refused: execute a command or an illegal word after CMD took it, store a
register other than CMD, append one value to what the reads returned, or reset. -/
theorem takeInput_cases {x : Input} {s t : State} (h : takeInput x s = .next t) :
    (∃ w i, decode w = .ok i ∧ exec i { s with cmd := w } = .next t) ∨
    (∃ w, t = raise .illegalCommand { s with cmd := w }) ∨
    (∃ r v, r ≠ .cmd ∧ t = storeReg s r v) ∨
    (∃ r, t = { s with reads := s.reads ++ [readReg s r] }) ∨
    t = platformReset s := by
  cases x with
  | write o width v =>
    simp only [takeInput] at h
    split at h
    · next r hr =>
      by_cases hc : r = .cmd
      · subst hc
        simp only [hostWrite, execute] at h
        split at h
        · next i hi => exact .inl ⟨v, i, hi, h⟩
        · cases h; exact .inr (.inl ⟨v, rfl⟩)
      · have hw : hostWrite r v s = .next (storeReg s r v) := by
          cases r <;> first | exact absurd rfl hc | rfl
        rw [hw] at h
        cases h
        exact .inr (.inr (.inl ⟨r, v, hc, rfl⟩))
    · exact absurd h (by simp)
  | read o width =>
    simp only [takeInput] at h
    split at h
    · next r hr => cases h; exact .inr (.inr (.inr (.inl ⟨r, rfl⟩)))
    · exact absurd h (by simp)
  | reset => cases h; exact .inr (.inr (.inr (.inr rfl)))

end Sys2Proof.Machine
end

