-- ==== Sys2Proof/Laws/HostProgram.lean ====
section
/-! SUPPORT. Detection and initialisation of a unit by the host (43_manager R212) where reference devices answer
(60_exceptions R236). -/

namespace Sys2Proof.Machine

/-! ### Reference devices -/

/-- Nothing is scripted, and reference devices stand exactly where `P` says. -/
def DevicesAt (e : Env) (P : BusIx → Addr → Prop) : Prop :=
  e.script = [] ∧ ∃ ds, e.devs = some ds ∧ ∀ p a, DeviceAt ds p a ↔ P p a

/-- A transaction moves no device. -/
theorem deviceAt_refDevices (b : BusIx) (t : Tx) (ds : List Device) (p : BusIx) (a : Addr) :
    DeviceAt (refDevices b t ds) p a ↔ DeviceAt ds p a := by
  induction ds with
  | nil => simp [refDevices]
  | cons d ds ih =>
    simp only [refDevices, DeviceAt] at ih ⊢
    split
    · simp
    · simp only [List.mem_cons, exists_eq_or_imp, ih]

/-- The device a transaction looks for is found exactly when one stands at its address. -/
theorem find_isDeviceAt_none {ds : List Device} {p : BusIx} {a : Addr} :
    ds.find? (isDeviceAt p a) = none ↔ ¬ DeviceAt ds p a := by
  simp [List.find?_eq_none, isDeviceAt]

variable {e : Env} {P : BusIx → Addr → Prop}

theorem DevicesAt.answered (h : DevicesAt e P) (p : BusIx) (t : Tx) : DevicesAt (e.answered p t) P := by
  obtain ⟨hs, ds, hd, hp⟩ := h
  exact ⟨by simp [Env.answered, hs], refDevices p t ds, by simp [Env.answered, Env.devsAfter, hs, hd],
    fun q a => by rw [deviceAt_refDevices, hp]⟩

theorem DevicesAt.after (h : DevicesAt e P) (p : BusIx) (ts : List Tx) : DevicesAt (e.after p ts) P := by
  induction ts generalizing e with
  | nil => exact h
  | cons t ts ih => exact ih (h.answered p t)

theorem DevicesAt.response_ok (h : DevicesAt e P) {p : BusIx} {t : Tx} (hp : P p (txAddr t)) : ∃ d, e.response p t = .ok d := by
  obtain ⟨hs, ds, hd, hP⟩ := h
  simp only [Env.response, hs, hd, List.head?_nil, refResponse]
  cases hf : ds.find? (isDeviceAt p (txAddr t)) with
  | some d => exact ⟨_, rfl⟩
  | none => exact absurd ((hP _ _).2 hp) (find_isDeviceAt_none.1 hf)

theorem DevicesAt.response_fail (h : DevicesAt e P) {p : BusIx} {t : Tx} (hp : ¬ P p (txAddr t)) : e.response p t = .fail := by
  obtain ⟨hs, ds, hd, hP⟩ := h
  simp only [Env.response, hs, hd, List.head?_nil, refResponse]
  rw [find_isDeviceAt_none.2 (fun hh => hp ((hP _ _).1 hh))]

/-- Writes to a device that is there are all acknowledged. -/
theorem DevicesAt.acks (h : DevicesAt e P) {p : BusIx} {a : Addr} (hp : P p a) (msgs : List (List Byte)) :
    e.acks p (msgs.map (.write a)) = true := by
  induction msgs generalizing e with
  | nil => rfl
  | cons m msgs ih =>
    obtain ⟨d, hd⟩ := h.response_ok (t := .write a m) hp
    simp only [List.map_cons, Env.acks, hd]
    exact ih (h.answered _ _)

/-- Detection reads where no device is all fail. -/
theorem DevicesAt.nacks (h : DevicesAt e P) {p : BusIx} {as : List Addr} (hp : ∀ a ∈ as, ¬ P p a) (reg : Byte) :
    e.nacks p (probeReads reg as) = true := by
  induction as generalizing e with
  | nil => rfl
  | cons a as ih =>
    simp only [probeReads, List.map_cons, Env.nacks, h.response_fail (t := .writeRead a reg 1) (hp a List.mem_cons_self)]
    exact ih (h.answered _ _) (fun x hx => hp x (List.mem_cons_of_mem _ hx))

/-- Detection finds nothing where no candidate is there. -/
theorem DevicesAt.tryCandidates_none {p : BusIx} {reg : Byte} {as : List Addr} {s : State} (h : DevicesAt s.env P)
    (hp : ∀ a ∈ as, ¬ P p a) : (tryCandidates p reg as s).1 = none := by
  induction as generalizing s with
  | nil => rfl
  | cons a as ih =>
    have hr : i2cResponse p (.writeRead a reg 1) (s.setSel p (some a)) = .fail :=
      h.response_fail (t := .writeRead a reg 1) (hp a List.mem_cons_self)
    simp only [tryCandidates, hr]
    exact ih (s := i2cState p _ (s.setSel p (some a))) (h.answered _ _) (fun x hx => hp x (List.mem_cons_of_mem _ hx))

/-! ### A unit's DETECT and INIT, issued by the host -/

/-- The unit's DETECT on a bus. -/
def detectInstr : Chip → Byte → Instr
  | .pwm, b => .pwmDetect b
  | .disp, b => .dispDetect b

/-- The unit's INIT. -/
def initInstr : Chip → Instr
  | .pwm => .pwmInit
  | .disp => .dispInit

/-- The register the unit's DETECT reads (R145, R173). -/
def detectReg (cfg : Params) : Chip → Byte
  | .pwm => cfg.pwmMode1
  | .disp => cfg.dispProbeReg

/-- The messages of the unit's INIT (R146, R174). -/
def initMsgs (cfg : Params) : Chip → List (List Byte)
  | .pwm => pwmInitMsgs cfg
  | .disp => dispInitMsgs cfg

/-- Issuing a command whose word decodes to it runs it. -/
theorem runCommand_eq {i : Instr} (h : decode (encode i) = .ok i) (s : State) :
    runCommand i s = exec i { s with cmd := encode i } := by
  simp only [runCommand, issue, regWrite, takeInput, hostAccess_regOffset, hostWrite, execute, h, storeReg]

/-- Issuing the unit's DETECT. -/
theorem runCommand_detect (u : Chip) (b : Byte) (s : State) :
    runCommand (detectInstr u b) s = .next (detectUnit u (candidates s.cfg u) (detectReg s.cfg u) b
      { s with cmd := encode (detectInstr u b) }) := by
  have h : decode (encode (detectInstr u b)) = .ok (detectInstr u b) := by
    cases u <;> exact decode_wordOf (f := .fa) rfl rfl (by simp [reservedBytes]) (by simp [reservedBytes])
      (by simp [reservedBytes])
  rw [runCommand_eq h]
  cases u <;> rfl

/-- Issuing the unit's INIT. -/
theorem runCommand_init (u : Chip) (s : State) :
    runCommand (initInstr u) s = .next (initUnit u (initMsgs s.cfg u) { s with cmd := encode (initInstr u) }) := by
  rw [runCommand_eq (by cases u <;> decide)]
  cases u <;> rfl

/-- INIT follows a DETECT that left STATUS 0. -/
theorem detectThenInit_detected {u : Chip} {b : Byte} {s t : State} (h : runCommand (detectInstr u b) s = .next t)
    (ht : t.status = 0#32) {cfg : Params} (hc : t.cfg = cfg) :
    detectThenInit (detectInstr u b) (initInstr u) s =
      .next (initUnit u (initMsgs cfg u) { t with cmd := encode (initInstr u) }) := by
  subst hc
  simp only [detectThenInit, h, andThen]
  rw [if_pos (by simp only [readReg, ht]; decide), runCommand_init]

/-- The state between DETECT and INIT where the first candidate that is there is `a`. -/
def detectedState (u : Chip) (b : Byte) (pre : List Addr) (a : Addr) (v : Byte) (s : State) : State :=
  { (({ s with cmd := encode (detectInstr u b) } : State).setRec u
      { det := true, init := false, bus := portOf b, addr := a }).setSel (portOf b) (some a) with
    env := s.env.after (portOf b) (probeReads (detectReg s.cfg u) (pre ++ [a])),
    trace := s.trace ++ pre.map (fun c => .tx (portOf b) (.writeRead c (detectReg s.cfg u) 1) .fail) ++
      [.tx (portOf b) (.writeRead a (detectReg s.cfg u) 1) (.ok [v])],
    status := statusWord okCode, result := a.setWidth 32 }

/-- DETECT where the first candidate that is there is `a`. -/
theorem runCommand_detect_found (u : Chip) {b : Byte} {s : State} (h : DevicesAt s.env P) (ho : Opened s b)
    {pre post : List Addr} {a : Addr} (hc : candidates s.cfg u = pre ++ a :: post) (ha : P (portOf b) a)
    (hn : ∀ c ∈ pre, ¬ P (portOf b) c) :
    ∃ v, runCommand (detectInstr u b) s = .next (detectedState u b pre a v s) := by
  obtain ⟨d, hd⟩ := (h.after (portOf b) (probeReads (detectReg s.cfg u) pre)).response_ok
    (t := .writeRead a (detectReg s.cfg u) 1) ha
  obtain ⟨v, rfl⟩ := List.length_eq_one_iff.1 (response_ok_length hd)
  refine ⟨v, ?_⟩
  have he : (clearRec u { s with cmd := encode (detectInstr u b) }).env = s.env := by cases u <;> rfl
  have hO : Opened (clearRec u { s with cmd := encode (detectInstr u b) }) b := by cases u <;> exact ho
  rw [runCommand_detect, hc]
  simp only [detectUnit, openPort_some hO]
  rw [tryCandidates_found (post := post) (by rw [he]; exact h.nacks hn _) (by rw [he]; exact hd)]
  cases u <;> rfl

/-- DETECT then INIT where the first candidate that is there is `a`: the unit is registered, and the trace gains the reads up to
`a`'s and then the INIT's writes. -/
theorem detectThenInit_found (u : Chip) {b : Byte} {s : State} (h : DevicesAt s.env P) (ho : Opened s b)
    {pre post : List Addr} {a : Addr} (hc : candidates s.cfg u = pre ++ a :: post) (ha : P (portOf b) a)
    (hn : ∀ c ∈ pre, ¬ P (portOf b) c) :
    ∃ t, detectThenInit (detectInstr u b) (initInstr u) s = .next t ∧ DevicesAt t.env P ∧ t.cfg = s.cfg ∧
      t.unitRec u = { det := true, init := true, bus := portOf b, addr := a } ∧
      ∃ v, t.trace = s.trace ++ pre.map (fun c => .tx (portOf b) (.writeRead c (detectReg s.cfg u) 1) .fail) ++
        [.tx (portOf b) (.writeRead a (detectReg s.cfg u) 1) (.ok [v])] ++ okWrites (portOf b) a (initMsgs s.cfg u) := by
  obtain ⟨v, hv⟩ := runCommand_detect_found u h ho hc ha hn
  have hcfg : (detectedState u b pre a v s).cfg = s.cfg := by cases u <;> rfl
  have hrec : (detectedState u b pre a v s).unitRec u = { det := true, init := false, bus := portOf b, addr := a } := by
    cases u <;> rfl
  have hdev : DevicesAt (detectedState u b pre a v s).env P := h.after _ _
  have hq := detectThenInit_detected hv rfl hcfg
  have htr : (detectedState u b pre a v s).trace = s.trace ++ pre.map (fun c => .tx (portOf b) (.writeRead c
      (detectReg s.cfg u) 1) .fail) ++ [.tx (portOf b) (.writeRead a (detectReg s.cfg u) 1) (.ok [v])] := rfl
  generalize detectedState u b pre a v s = d at hq hcfg hrec hdev htr
  have hrec' : ({ d with cmd := encode (initInstr u) } : State).unitRec u =
      { det := true, init := false, bus := portOf b, addr := a } := by
    rw [← hrec]; cases u <;> rfl
  have hw := (writesThen_initUnit u (initMsgs s.cfg u) { d with cmd := encode (initInstr u) } (by rw [hrec'])).1
  rw [hrec'] at hw
  refine ⟨_, hq.trans (hw (by cases u <;> exact hdev.acks ha _)), ?_, ?_, ?_, v, ?_⟩
  · cases u <;> exact hdev.after _ _
  · rw [← hcfg]; cases u <;> rfl
  · cases u <;> rfl
  · rw [← htr]; cases u <;> rfl

/-- DETECT where no candidate is there leaves the unit unregistered, and no INIT follows. -/
theorem detectThenInit_absent (u : Chip) {b : Byte} {s : State} (h : DevicesAt s.env P) (ho : Opened s b)
    (hn : ∀ c ∈ candidates s.cfg u, ¬ P (portOf b) c) :
    ∃ t, detectThenInit (detectInstr u b) (initInstr u) s = .next t ∧ DevicesAt t.env P ∧ t.cfg = s.cfg ∧
      (t.unitRec u).init = false := by
  simp only [detectThenInit, runCommand_detect, andThen]
  have hdev : DevicesAt (clearRec u { s with cmd := encode (detectInstr u b) }).env P := by cases u <;> exact h
  have hO : Opened (clearRec u { s with cmd := encode (detectInstr u b) }) b := by cases u <;> exact ho
  have hcfg : (clearRec u { s with cmd := encode (detectInstr u b) }).cfg = s.cfg := by cases u <;> rfl
  have hrec : ((clearRec u { s with cmd := encode (detectInstr u b) }).unitRec u).init = false := by cases u <;> rfl
  simp only [detectUnit, openPort_some hO, hdev.tryCandidates_none (reg := detectReg s.cfg u) hn]
  rw [if_neg (by simp [readReg, statusErr, statusWord, errorCode, okCode])]
  obtain ⟨tried, _, hst, _⟩ := tryCandidates_spec (portOf b) (detectReg s.cfg u) (candidates s.cfg u)
    (clearRec u { s with cmd := encode (detectInstr u b) })
  generalize clearRec u { s with cmd := encode (detectInstr u b) } = d at hdev hcfg hrec hst
  refine ⟨_, rfl, ?_, ?_, ?_⟩
  all_goals rw [hst]
  · exact hdev.after _ _
  · rw [← hcfg]; cases tried.getLast? <;> rfl
  · rw [← hrec]; cases tried.getLast? <;> cases u <;> rfl

/-! ### `scan_devices`, bus by bus -/

/-- The body of `scan_devices` on one bus, unit by unit. -/
theorem scanDevicesOn_eq (b : Byte) (s : State) :
    scanDevicesOn b s = andThen
      (if s.recPwm.init then .next s else detectThenInit (detectInstr .pwm b) (initInstr .pwm) s)
      (fun t => if t.recDisp.init then .next t else detectThenInit (detectInstr .disp b) (initInstr .disp) t) := by
  have hbit : ∀ r : DevRec, (recView r).getLsbD 1 = r.init := by
    intro r
    simp only [recView, BitVec.getLsbD_append]
    simp
  simp only [scanDevicesOn, readReg, hbit]
  rfl

end Sys2Proof.Machine
end

