-- ==== Sys2Proof/Laws/PerInstr.lean ====
section
/-! SUPPORT. One statement about every command as a word: its encoding matches the mask and the match value of its own row of
the opcode map (30_encoding R82). -/

namespace Sys2Proof.Laws.MatchMask

/-- The word of a well-formed command matches its own row: its opcode has a format, and `(encode i & mask) = match` (R82). -/
def Statement (i : Instr) : Prop :=
  i.wf = true → ∃ f, opcodeFormat (instrOpcode i) = some f ∧ rowMatches (instrOpcode i) f (encode i) = true

/-- A word laid out from its fields matches its row when its reserved bits are 0. -/
theorem ofFields {i : Instr} {f : Format} {o a b c : Byte} (he : encode i = wordOf o a b c) (hf : opcodeFormat o = some f)
    (ha : a &&& (reservedBytes f).1 = 0#8) (hb : b &&& (reservedBytes f).2.1 = 0#8)
    (hc : c &&& (reservedBytes f).2.2 = 0#8) : Statement i := by
  intro _
  refine ⟨f, ?_, ?_⟩
  · rw [instrOpcode, he, fieldOpc_wordOf, hf]
  · rw [instrOpcode, he, fieldOpc_wordOf, rowMatches_wordOf]
    exact decide_eq_true ⟨ha, hb, hc⟩

/-- Format FA. -/
theorem busOpen (b : Byte) : Statement (.busOpen b) := ofFields (f := .fa) rfl rfl
  (by simp [reservedBytes]) (by simp [reservedBytes]) (by simp [reservedBytes])

/-- Format FA. -/
theorem busClose (b : Byte) : Statement (.busClose b) := ofFields (f := .fa) rfl rfl
  (by simp [reservedBytes]) (by simp [reservedBytes]) (by simp [reservedBytes])

/-- Format FAB. -/
theorem setAddr (b a : Byte) : Statement (.setAddr b a) := ofFields (f := .fab) rfl rfl
  (by simp [reservedBytes]) (by simp [reservedBytes]) (by simp [reservedBytes])

/-- Format FABC. -/
theorem writeByte (b r v : Byte) : Statement (.writeByte b r v) := ofFields (f := .fabc) rfl rfl
  (by simp [reservedBytes]) (by simp [reservedBytes]) (by simp [reservedBytes])

/-- Format FAB. -/
theorem readByte (b r : Byte) : Statement (.readByte b r) := ofFields (f := .fab) rfl rfl
  (by simp [reservedBytes]) (by simp [reservedBytes]) (by simp [reservedBytes])

/-- Format FABC. -/
theorem writeBlock (b r n : Byte) : Statement (.writeBlock b r n) := ofFields (f := .fabc) rfl rfl
  (by simp [reservedBytes]) (by simp [reservedBytes]) (by simp [reservedBytes])

/-- Format FABC. -/
theorem readBlock (b r n : Byte) : Statement (.readBlock b r n) := ofFields (f := .fabc) rfl rfl
  (by simp [reservedBytes]) (by simp [reservedBytes]) (by simp [reservedBytes])

/-- Format FABC. -/
theorem scan (b f l : Byte) : Statement (.scan b f l) := ofFields (f := .fabc) rfl rfl
  (by simp [reservedBytes]) (by simp [reservedBytes]) (by simp [reservedBytes])

/-- Format F0. -/
theorem mgrClose : Statement .mgrClose := ofFields (f := .f0) rfl rfl
  (by simp [reservedBytes]) (by simp [reservedBytes]) (by simp [reservedBytes])

/-- Format FA. -/
theorem pwmDetect (b : Byte) : Statement (.pwmDetect b) := ofFields (f := .fa) rfl rfl
  (by simp [reservedBytes]) (by simp [reservedBytes]) (by simp [reservedBytes])

/-- Format F0. -/
theorem pwmInit : Statement .pwmInit := ofFields (f := .f0) rfl rfl
  (by simp [reservedBytes]) (by simp [reservedBytes]) (by simp [reservedBytes])

/-- Format FA. -/
theorem pwmSet (c : Byte) : Statement (.pwmSet c) := ofFields (f := .fa) rfl rfl
  (by simp [reservedBytes]) (by simp [reservedBytes]) (by simp [reservedBytes])

/-- Format F0. -/
theorem pwmSetAll : Statement .pwmSetAll := ofFields (f := .f0) rfl rfl
  (by simp [reservedBytes]) (by simp [reservedBytes]) (by simp [reservedBytes])

/-- Format F0. -/
theorem fanSpeed : Statement .fanSpeed := ofFields (f := .f0) rfl rfl
  (by simp [reservedBytes]) (by simp [reservedBytes]) (by simp [reservedBytes])

/-- Format F0. -/
theorem ledColor : Statement .ledColor := ofFields (f := .f0) rfl rfl
  (by simp [reservedBytes]) (by simp [reservedBytes]) (by simp [reservedBytes])

/-- Format FA. -/
theorem dispDetect (b : Byte) : Statement (.dispDetect b) := ofFields (f := .fa) rfl rfl
  (by simp [reservedBytes]) (by simp [reservedBytes]) (by simp [reservedBytes])

/-- Format F0. -/
theorem dispInit : Statement .dispInit := ofFields (f := .f0) rfl rfl
  (by simp [reservedBytes]) (by simp [reservedBytes]) (by simp [reservedBytes])

/-- Format F0. -/
theorem dispClear : Statement .dispClear := ofFields (f := .f0) rfl rfl
  (by simp [reservedBytes]) (by simp [reservedBytes]) (by simp [reservedBytes])

/-- Format FAB. -/
theorem dispCharL (x c : Byte) : Statement (.dispCharL x c) := ofFields (f := .fab) rfl rfl
  (by simp [reservedBytes]) (by simp [reservedBytes]) (by simp [reservedBytes])

/-- Format FAB. -/
theorem dispCharR (x c : Byte) : Statement (.dispCharR x c) := ofFields (f := .fab) rfl rfl
  (by simp [reservedBytes]) (by simp [reservedBytes]) (by simp [reservedBytes])

/-- Format FA1. -/
theorem dispString (r : Bool) : Statement (.dispString r) := ofFields (f := .fa1) rfl rfl (by cases r <;> decide) (by decide) (by decide)

/-- Format F0. -/
theorem readKey : Statement .readKey := ofFields (f := .f0) rfl rfl
  (by simp [reservedBytes]) (by simp [reservedBytes]) (by simp [reservedBytes])

end Sys2Proof.Laws.MatchMask
end

