-- ==== Sys2Proof/Laws/Step.lean ====
section
/-! SUPPORT. What one step can do, said once (00_scope R12, 30_encoding R86). -/

namespace Sys2Proof.Machine

/-- Everything a step that answers a next state can have done: nothing, for want of an input, or one input of the five kinds
`takeInput_cases` names, taken off the list. -/
theorem step_cases {s t : State} (h : step s = .next t) :
    (s.inputs = [] ∧ t = s) ∨
    ∃ x rest, s.inputs = x :: rest ∧
      ((∃ w i, decode w = .ok i ∧ exec i { s with inputs := rest, cmd := w } = .next t) ∨
      (∃ w, t = raise .illegalCommand { s with inputs := rest, cmd := w }) ∨
      (∃ r v, r ≠ .cmd ∧ t = storeReg { s with inputs := rest } r v) ∨
      (∃ r, t = { s with inputs := rest, reads := s.reads ++ [readReg { s with inputs := rest } r] }) ∨
      t = platformReset { s with inputs := rest }) := by
  unfold step at h
  split at h
  · next hi => cases h; exact .inl ⟨hi, rfl⟩
  · next x rest hi => exact .inr ⟨x, rest, hi, takeInput_cases h⟩

end Sys2Proof.Machine
end

