-- ==== Sys2Proof/Tests/Slice0.lean ====
section
/-! SUPPORT. Small tests, each on one step or one function, with the expected result taken from spec/ (the rule's example, or a
row of 95_test_vectors, named in the docstring); then one witness per premise of the statements. -/

namespace Sys2Proof.Tests

open Sys2Proof.Machine

/-! ### States the tests start from -/

/-- What a command leaves; a stop leaves the state. -/
def after (i : Instr) (s : State) : State :=
  match exec i s with
  | .next t => t
  | .fault _ => s
  | .refused _ => s

/-- What an input leaves; a stop leaves the state. -/
def taken (x : Input) (s : State) : State :=
  match takeInput x s with
  | .next t => t
  | .fault _ => s
  | .refused _ => s

/-- What a step leaves; a stop leaves the state. -/
def stepped (s : State) : State :=
  match step s with
  | .next t => t
  | .fault _ => s
  | .refused _ => s

/-- Why an input is refused, if it is. -/
def refusalOf (x : Input) (s : State) : Option Refusal :=
  match takeInput x s with
  | .next _ => none
  | .fault _ => none
  | .refused e => some e

/-- An environment that answers the next transactions as listed and says that no bus is held. -/
def scripted (answers : List Scripted) : Env := { script := answers, devs := none, held := [false], draws := 0 }

/-- The reference environment (R236) with these devices. -/
def reference (ds : List Device) : Env := { script := [], devs := some ds, held := [], draws := 0 }

/-- After reset, in an environment. -/
def fresh (e : Env) : State := { State.reset with env := e }

/-- "Open": bus 0 open, nothing selected. -/
def openedWith (e : Env) : State := (fresh e).setPort 0#4 { opened := true, sel := none }

/-- Bus 0 open with target 0x40. -/
def readyWith (e : Env) : State := (fresh e).setPort 0#4 { opened := true, sel := some 0x40#7 }

/-- The PWM chip detected at 0x40 on bus 0, initialised or not. -/
def pwmWith (init : Bool) (e : Env) : State :=
  (readyWith e).setRec .pwm { det := true, init := init, bus := 0#4, addr := 0x40#7 }

/-- The display chip detected at 0x70 on bus 0, initialised or not. -/
def dispWith (init : Bool) (e : Env) : State :=
  (readyWith e).setRec .disp { det := true, init := init, bus := 0#4, addr := 0x70#7 }

/-- The messages of the Writes a trace holds. -/
def writes (tr : List Event) : List (List Byte) :=
  tr.filterMap (fun ev => match ev with
    | .tx _ (.write _ m) _ => some m
    | .tx _ (.writeRead _ _ _) _ => none
    | .tx _ (.probe _) _ => none
    | .acquire _ => none
    | .release _ => none)

/-! ### Well-formedness: one ill-formed term for each check (R6) -/

theorem test_wf_default : defaultParams.wf = true := by decide
theorem test_wf_nbus : Params.nbusOk { defaultParams with nbus := 0 } = false := by decide
theorem test_wf_pwm_candidates_empty : Params.pwmCandidatesOk { defaultParams with pwmCandidates := [] } = false := by decide
theorem test_wf_pwm_candidates_range : Params.pwmCandidatesOk { defaultParams with pwmCandidates := [0x78#7] } = false := by
  decide
theorem test_wf_disp_candidates_empty : Params.dispCandidatesOk { defaultParams with dispCandidates := [] } = false := by
  decide
theorem test_wf_disp_candidates_range : Params.dispCandidatesOk { defaultParams with dispCandidates := [0x02#7] } = false := by
  decide
theorem test_wf_pwm_led0 : Params.pwmLed0Ok { defaultParams with pwmLed0 := 0xC1#8 } = false := by decide
theorem test_wf_pwm_all : Params.pwmAllOk { defaultParams with pwmAll := 0xFD#8 } = false := by decide
theorem test_wf_pwm_init_seq : Params.pwmInitSeqOk { defaultParams with pwmInitSeq := [] } = false := by decide
theorem test_wf_key_rows : Params.keyRowsOk { defaultParams with keyRows := 17 } = false := by decide
theorem test_wf_key_rows_zero : Params.keyRowsOk { defaultParams with keyRows := 0 } = false := by decide
theorem test_wf_key_cols : Params.keyColsOk { defaultParams with keyCols := 0 } = false := by decide
/-- R61: the high byte of a digit would stand at 0x100. -/
theorem test_wf_digit_reg : Params.digitRegOk { defaultParams with digitReg := #v[0#8, 2#8, 4#8, 0xFF#8] } = false := by
  decide
/-- R61: the third row's high byte would stand at 0x100. -/
theorem test_wf_key_base : Params.keyBaseOk { defaultParams with keyBase := 0xFB#8 } = false := by decide
/-- R61: the last registers that fit. -/
theorem test_wf_last_registers :
    Params.wf { defaultParams with digitReg := #v[0#8, 2#8, 4#8, 0xFE#8], keyBase := 0xFA#8 } = true := by decide
theorem test_wf_whole : Params.wf { defaultParams with keyCols := 17 } = false := by decide

/-! ### Decoding: a word for each row, its bytes OPC, A, B, C written out from R80 and R82 -/

/-- R102's example. -/
theorem test_decode_busOpen : decode 0x01000000#32 = .ok (.busOpen 0x00#8) := by decide
/-- L2.2: `BUS_CLOSE bus=5`. -/
theorem test_decode_busClose : decode 0x02050000#32 = .ok (.busClose 0x05#8) := by decide
/-- L2.2: `SET_ADDR bus=1, addr=0x05`. -/
theorem test_decode_setAddr : decode 0x03010500#32 = .ok (.setAddr 0x01#8 0x05#8) := by decide
/-- R105's example. -/
theorem test_decode_writeByte : decode 0x0400065A#32 = .ok (.writeByte 0x00#8 0x06#8 0x5A#8) := by decide
/-- L2.3: `READ_BYTE bus=0, reg=1`. -/
theorem test_decode_readByte : decode 0x05000100#32 = .ok (.readByte 0x00#8 0x01#8) := by decide
/-- L2.3: `WRITE_BLOCK bus=1, reg=0, len=33`. -/
theorem test_decode_writeBlock : decode 0x06010021#32 = .ok (.writeBlock 0x01#8 0x00#8 0x21#8) := by decide
/-- L2.3: `READ_BLOCK bus=0, reg=0xFF, len=2`. -/
theorem test_decode_readBlock : decode 0x0700FF02#32 = .ok (.readBlock 0x00#8 0xFF#8 0x02#8) := by decide
/-- L2.4: `SCAN bus=1, start=0x03, end=0x77`. -/
theorem test_decode_scan : decode 0x08010377#32 = .ok (.scan 0x01#8 0x03#8 0x77#8) := by decide
/-- R210's example. -/
theorem test_decode_mgrClose : decode 0x09000000#32 = .ok .mgrClose := by decide
/-- L2.5: `PWM_DETECT bus=1`. -/
theorem test_decode_pwmDetect : decode 0x10010000#32 = .ok (.pwmDetect 0x01#8) := by decide
/-- R146's example. -/
theorem test_decode_pwmInit : decode 0x11000000#32 = .ok .pwmInit := by decide
/-- L2.6: `PWM_SET ch=15`. -/
theorem test_decode_pwmSet : decode 0x120F0000#32 = .ok (.pwmSet 0x0F#8) := by decide
/-- L2.6. -/
theorem test_decode_pwmSetAll : decode 0x13000000#32 = .ok .pwmSetAll := by decide
/-- L1.2. -/
theorem test_decode_fanSpeed : decode 0x14000000#32 = .ok .fanSpeed := by decide
/-- L2.7. -/
theorem test_decode_ledColor : decode 0x15000000#32 = .ok .ledColor := by decide
/-- R173's example. -/
theorem test_decode_dispDetect : decode 0x20000000#32 = .ok (.dispDetect 0x00#8) := by decide
/-- R174's example. -/
theorem test_decode_dispInit : decode 0x21000000#32 = .ok .dispInit := by decide
/-- R175's example. -/
theorem test_decode_dispClear : decode 0x22000000#32 = .ok .dispClear := by decide
/-- L2.8: `DISP_CHAR_L idx=4, chr='A'`. -/
theorem test_decode_dispCharL : decode 0x23044100#32 = .ok (.dispCharL 0x04#8 0x41#8) := by decide
/-- L2.8: `DISP_CHAR_R idx=3, chr='0'`. -/
theorem test_decode_dispCharR : decode 0x24033000#32 = .ok (.dispCharR 0x03#8 0x30#8) := by decide
/-- L1.3: `DISP_STRING "12", right`. -/
theorem test_decode_dispString_right : decode 0x25010000#32 = .ok (.dispString true) := by decide
/-- L1.3: `DISP_STRING "12", left`. -/
theorem test_decode_dispString_left : decode 0x25000000#32 = .ok (.dispString false) := by decide
/-- L2.10. -/
theorem test_decode_readKey : decode 0x26000000#32 = .ok .readKey := by decide

/-- L2.1: the unassigned opcodes. -/
theorem test_decode_unassigned :
    decode 0x00000000#32 = .error (.unassignedOpcode 0x00#8) ∧ decode 0x0A000000#32 = .error (.unassignedOpcode 0x0A#8) ∧
    decode 0x1F000000#32 = .error (.unassignedOpcode 0x1F#8) ∧ decode 0xFF000000#32 = .error (.unassignedOpcode 0xFF#8) := by
  decide

/-- L2.1: the reserved fields. -/
theorem test_decode_reserved :
    decode 0x0100FF00#32 = .error (.reservedField 0x01#8) ∧ decode 0x09000001#32 = .error (.reservedField 0x09#8) ∧
    decode 0x22800000#32 = .error (.reservedField 0x22#8) ∧ decode 0x25020000#32 = .error (.reservedField 0x25#8) := by
  decide

/-- L2.1: an illegal word ends in ERR 6. -/
theorem test_step_illegal :
    (stepped (State.reset.withFetchWord 32 0x01000001)).status = 6#32 ∧
    (stepped (State.reset.withFetchWord 32 0x01000001)).cmd = 0x01000001#32 := by decide

/-- R86: the command placed at the host port runs in the next step; L2.1's last row. -/
theorem test_step_fetch :
    (stepped (State.reset.withFetchWord 32 0x25010000)).status = 3#32 ∧
    (stepped (State.reset.withFetchWord 32 0x25010000)).inputs = [] := by decide

/-- R12: with no host access to take, the block does nothing. -/
theorem test_step_idle : step State.reset = .next State.reset := rfl

/-! ### The I2C master -/

/-- R102's example. -/
theorem test_busOpen : (after (.busOpen 0#8) (fresh (scripted []))).trace = [.acquire 0#4] := by decide
/-- L2.2: `BUS_OPEN bus=2` with NBUS 2. -/
theorem test_busOpen_beyond : (after (.busOpen 2#8) (fresh (scripted []))).status = 1#32 := by decide
/-- L1.7: a close of an open bus. -/
theorem test_busClose : (after (.busClose 0#8) (openedWith (scripted []))).trace = [.release 0#4] := by decide
/-- L2.2: "Up", then `BUS_CLOSE bus=0`: DISPREC is 0. -/
theorem test_busClose_record : (after (.busClose 0#8) (dispWith true (scripted []))).recDisp = DevRec.cleared := by decide
/-- L2.2: SEL[0] is 0xF7 after `SET_ADDR bus=0, addr=0x77`. -/
theorem test_setAddr : readReg (after (.setAddr 0#8 0x77#8) (openedWith (scripted []))) (.sel 0#4) = 0xF7#32 := by decide
/-- R104's example: `SET_ADDR bus=0, addr=0x78` leaves SEL[0] at 0xC0. -/
theorem test_setAddr_range :
    readReg (after (.setAddr 0#8 0x78#8) (readyWith (scripted []))) (.sel 0#4) = 0xC0#32 := by decide
/-- R105's example. -/
theorem test_writeByte :
    (after (.writeByte 0#8 0x06#8 0x5A#8) (readyWith (scripted [.ok []]))).trace =
      [.tx 0#4 (.write 0x40#7 [0x06#8, 0x5A#8]) (.ok [])] := by decide
/-- L2.3: a write that is not acknowledged. -/
theorem test_writeByte_fail : (after (.writeByte 0#8 1#8 2#8) (readyWith (reference []))).status = 5#32 := by decide
/-- R106's example. -/
theorem test_readByte :
    (after (.readByte 0#8 0#8) (readyWith (reference [{ bus := 0#4, addr := 0x40#7, regs := [(0, 0x11#8)] }]))).result =
      0x11#32 := by decide
/-- L2.3: `READ_BYTE` with no target selected. -/
theorem test_readByte_no_target : (after (.readByte 0#8 0#8) (openedWith (scripted [.ok []]))).status = 1#32 := by decide
/-- R107's example: DATA[0..3] = 00 10 00 08. -/
theorem test_writeBlock :
    writes (after (.writeBlock 0#8 0x06#8 4#8)
      { readyWith (scripted [.ok []]) with data := [(1, 0x10#8), (3, 0x08#8)] }).trace =
      [[0x06#8, 0x00#8, 0x10#8, 0x00#8, 0x08#8]] := by decide
/-- L2.3: the operand check comes before the bus check. -/
theorem test_writeBlock_len : (after (.writeBlock 1#8 0#8 33#8) (fresh (scripted []))).status = 4#32 := by decide
/-- R108's example: bits 31:16 of DATA word 0 are unchanged. -/
theorem test_readBlock :
    readReg (after (.readBlock 0#8 0x10#8 2#8)
      { readyWith (scripted [.ok [0xAA#8, 0xBB#8]]) with data := [(0, 1#8), (3, 0x77#8)] }) (.data 0#5) =
      0x7700BBAA#32 := by decide
/-- L2.3: `READ_BLOCK` of no bytes. -/
theorem test_readBlock_len : (after (.readBlock 0#8 0#8 0#8) (readyWith (scripted [.ok []]))).status = 4#32 := by decide
/-- R109, after its example: two devices on bus 0, and a range that holds one of them. -/
theorem test_scan :
    (after (.scan 0#8 0x3E#8 0x41#8) (openedWith (reference
      [{ bus := 0#4, addr := 0x40#7, regs := [] }, { bus := 0#4, addr := 0x70#7, regs := [] }]))).data =
      [(0, 0x40#8)] := by decide
/-- L2.4: a range that is empty once it is cut to 0x03..0x77. -/
theorem test_scan_empty : (after (.scan 0#8 0x78#8 0x80#8) (openedWith (scripted [.ok []]))).trace = [] := by decide
/-- R210's example, from buses 0 and 1 open. -/
theorem test_mgrClose :
    (after .mgrClose ((openedWith (scripted [])).setPort 1#4 { opened := true, sel := none })).trace =
      [.release 0#4, .release 1#4] := by decide

/-! ### The PWM unit -/

/-- R145's example. -/
theorem test_pwmDetect :
    readReg (after (.pwmDetect 0#8) (openedWith (scripted [.ok [0#8]]))) .pwmRec = 0x00004001#32 := by decide
/-- L2.5: no chip at the candidate: ERR 2, and the candidate stays selected. -/
theorem test_pwmDetect_none :
    readReg (after (.pwmDetect 0#8) (openedWith (scripted [.fail]))) (.sel 0#4) = 0xC0#32 := by decide
/-- R146's example. -/
theorem test_pwmInit :
    readReg (after .pwmInit (pwmWith false (scripted [.ok [], .ok []]))) .pwmRec = 0x00004003#32 := by decide
/-- L2.5: the second transaction of PWM_INIT fails. -/
theorem test_pwmInit_fail :
    readReg (after .pwmInit (pwmWith true (scripted [.ok [], .fail]))) .pwmRec = 0x00004001#32 := by decide
/-- L2.6: `PWM_SET ch=15` with ARG0 = 0x1234 and ARG1 = -1. -/
theorem test_pwmSet :
    writes (after (.pwmSet 15#8) { pwmWith true (scripted [.ok [], .ok [], .ok [], .ok []]) with
      arg0 := 0x1234#32, arg1 := 0xFFFFFFFF#32 }).trace =
      [[0x42#8, 0xFF#8], [0x43#8, 0x0F#8], [0x44#8, 0x00#8], [0x45#8, 0x00#8]] := by decide
/-- L1.6: `PWM_SET ch=17` from reset. -/
theorem test_pwmSet_channel : (after (.pwmSet 17#8) (fresh (scripted []))).status = 4#32 := by decide
/-- R148's example. -/
theorem test_pwmSetAll :
    writes (after .pwmSetAll { pwmWith true (scripted [.ok []]) with arg1 := 4095#32 }).trace =
      [[0xFA#8, 0x00#8, 0x00#8, 0xFF#8, 0x0F#8]] := by decide
/-- L2.7: `FAN_SPEED` at 30. -/
theorem test_fanSpeed :
    (after .fanSpeed { pwmWith true (scripted [.ok [], .ok [], .ok [], .ok []]) with arg0 := 30#32 }).result =
      1229#32 := by decide
/-- L1.2: `FAN_SPEED` at -5. -/
theorem test_fanSpeed_negative :
    writes (after .fanSpeed { pwmWith true (scripted [.ok [], .ok [], .ok [], .ok []]) with arg0 := 0xFFFFFFFB#32 }).trace =
      [[0x06#8, 0x00#8], [0x07#8, 0x00#8], [0x08#8, 0x00#8], [0x09#8, 0x00#8]] := by decide
/-- L2.7: `LED_COLOR` whose fifth transaction fails. -/
theorem test_ledColor :
    writes (after .ledColor { pwmWith true (scripted [.ok [], .ok [], .ok [], .ok [], .fail]) with
      arg0 := 100#32, arg2 := 50#32 }).trace =
      [[0x0A#8, 0x00#8], [0x0B#8, 0x00#8], [0x0C#8, 0xFF#8], [0x0D#8, 0x0F#8], [0x0E#8, 0x00#8]] := by decide
/-- L1.1's table at 30, 50 and 70. -/
theorem test_level : level 30#32 = 1229#12 ∧ level 50#32 = 2048#12 ∧ level 70#32 = 2867#12 := by decide
/-- L2.6's table of ticks. -/
theorem test_ticks : ticks 0x80000000#32 = 0#12 ∧ ticks 0x1234#32 = 4095#12 ∧ ticks 4095#32 = 4095#12 := by decide

/-! ### The display and keypad unit -/

/-- L1.5: only 0x72 answers. -/
theorem test_dispDetect :
    readReg (after (.dispDetect 0#8) (openedWith (scripted [.fail, .fail, .ok [0#8]]))) .dispRec = 0x00007201#32 := by decide
/-- R174's example. -/
theorem test_dispInit :
    writes (after .dispInit (dispWith false (scripted [.ok [], .ok []]))).trace = [[0x21#8], [0x81#8]] := by decide
/-- L1.4: the second write of `DISP_CLEAR` fails, and the buffer is blank all the same. -/
theorem test_dispClear :
    (after .dispClear { dispWith true (scripted [.ok [], .fail]) with dbuf := #v[1#16, 2#16, 3#16, 4#16] }).dbuf =
      #v[0#16, 0#16, 0#16, 0#16] := by decide
/-- R176's example. -/
theorem test_dispCharL :
    writes (after (.dispCharL 0#8 0x37#8) (dispWith true (scripted [.ok []]))).trace =
      [[0x00#8, 0x07#8, 0x00#8]] := by decide
/-- L2.8: the operand check comes first. -/
theorem test_dispCharL_index : (after (.dispCharL 4#8 0#8) (openedWith (scripted []))).status = 4#32 := by decide
/-- L2.8: `DISP_CHAR_R idx=3, chr='0'` shows in slot 0. -/
theorem test_dispCharR :
    writes (after (.dispCharR 3#8 0x30#8) (dispWith true (scripted [.ok []]))).trace =
      [[0x00#8, 0x3F#8, 0x0C#8]] := by decide
/-- R177's example: `idx=0` is slot 3. -/
theorem test_dispCharR_last :
    (after (.dispCharR 0#8 0x41#8) (dispWith true (scripted [.ok []]))).dbuf = #v[0#16, 0#16, 0#16, 0x00F7#16] := by decide
/-- R179's example: "12", right. -/
theorem test_dispString :
    readReg (after (.dispString true) { dispWith true (scripted [.ok [], .ok [], .ok [], .ok []]) with
      data := [(0, 0x31#8), (1, 0x32#8)], dlen := 2#8 }) .dbuf23 = 0x00DB0006#32 := by decide
/-- L1.8: "123456", left, shows "1234". -/
theorem test_layout_left :
    layout defaultParams [0x31#8, 0x32#8, 0x33#8, 0x34#8, 0x35#8, 0x36#8] false =
      #v[0x0006#16, 0x00DB#16, 0x00CF#16, 0x00E6#16] := by decide
/-- L2.10: row 1, column 2. -/
theorem test_readKey :
    (after .readKey (dispWith true (scripted [.ok [0#8, 0#8, 4#8, 0#8, 0#8, 0#8]]))).result = 16#32 := by decide
/-- L2.10: two keys pressed, and bits from KEY_COLS up. -/
theorem test_decodeKey :
    decodeKey defaultParams [0x20#8, 0#8, 1#8, 0#8, 0#8, 0#8] = 6 ∧
    decodeKey defaultParams [0#8, 0xE0#8, 0#8, 0#8, 0#8, 0#8] = 0 ∧
    decodeKey defaultParams [0#8, 0#8, 0#8, 0#8, 0#8, 0x10#8] = 39 := by decide
/-- L2.8's spot checks of CHARMAP. -/
theorem test_charmap :
    charBitmap defaultParams 0x42#8 = 0x128F#16 ∧ charBitmap defaultParams 0x4B#8 = 0x2470#16 ∧
    charBitmap defaultParams 0x57#8 = 0x2836#16 ∧ charBitmap defaultParams 0xFF#8 = 0#16 := by decide

/-! ### The host interface -/

/-- R53: a DATA word is little-endian; L1.3's `W DATA[0], 0x34333231`. -/
theorem test_data_write :
    Memory.readBytes (taken (regWrite (.data 0#5) 0x34333231#32) State.reset).data 0 4 =
      [0x31#8, 0x32#8, 0x33#8, 0x34#8] := by decide
/-- R34: DLEN keeps bits 7:0 of what is written. -/
theorem test_dlen_write : (taken (regWrite .dlen 0x1234#32) State.reset).dlen = 0x34#8 := by decide
/-- R52: an access of 2 bytes is refused. -/
theorem test_access_width : refusalOf (.read 0x010#12 .w2) State.reset = some .accessWidth := by decide
/-- R51, R52: 0x030 is a reserved offset. -/
theorem test_access_reserved : refusalOf (.write 0x030#12 .w4 0#32) State.reset = some .accessReserved := by decide
/-- R36: BUSOPEN, a host read. -/
theorem test_busOpen_view : (taken (regRead .busOpen) (openedWith (scripted []))).reads = [1#32] := by decide
/-- R88: `TEXT "12"` and the command of `DISP_STRING "12", right` (L1.3). -/
theorem test_expand :
    expand (.dispString [0x31#8, 0x32#8] true) =
      [regWrite (.data 0#5) 0x00003231#32, regWrite .dlen 2#32, regWrite .cmd 0x25010000#32] := by decide

/-! ## Witnesses: for each statement with premises, states and operands that meet all of them together, clause by clause,
at the ends of the ranges its clauses name -/

/-- The premise of the first half of `WritesThen`: every message is acknowledged. -/
abbrev AllSent (s : State) (p : BusIx) (a : Addr) (msgs : List (List Byte)) : Prop :=
  s.env.acks p (msgs.map (.write a)) = true

/-- The premises of the second half of `WritesThen`: `m` is the first message that fails. -/
abbrev FailsAt (s : State) (p : BusIx) (a : Addr) (msgs pre : List (List Byte)) (m : List Byte)
    (post : List (List Byte)) : Prop :=
  msgs = pre ++ m :: post ∧ s.env.acks p (pre.map (.write a)) = true ∧
  (s.env.after p (pre.map (.write a))).response p (.write a m) = .fail

/-- Every premise "exec i s answers a next state" is met. -/
theorem exec_after (i : Instr) (s : State) : exec i s = .next (after i s) := by
  obtain ⟨t, h⟩ := exec_next i s
  simp [after, h]

/-- Every premise "step s answers a next state" is met where the next input is a write to CMD. -/
theorem step_fetched (s : State) (n w : Nat) : step (s.withFetchWord n w) = .next (stepped (s.withFetchWord n w)) := by
  have ha : hostAccess (regOffset .cmd) .w4 = .ok .cmd := by decide
  obtain ⟨t, h⟩ := execute_next (BitVec.ofNat 32 w) s
  have hs : step (s.withFetchWord n w) = .next t := by
    simp only [step, State.withFetchWord, takeInput, commandWrite, ha, hostWrite]
    exact h
  simp [stepped, hs]

/-! ### Encoding -/

theorem witness_DecodeOfEncodeIsTheCommand : (Instr.scan 0x00#8 0xFF#8 0x80#8).wf = true := by decide

/-- Each arm of the disjunction. -/
theorem witness_EveryWordIsOneCommandOrIllegal :
    decode 0x0500FF00#32 = .ok (.readByte 0#8 0xFF#8) ∧ decode 0x0500FF01#32 = .error (.reservedField 0x05#8) := by decide

/-- An opcode outside the table: below, inside a gap, above. -/
theorem witness_UnassignedAndReservedWordsAreIllegal_opcode :
    ∀ w ∈ [0x00FFFFFF#32, 0x0A000000#32, 0x27000000#32, 0xFFFFFFFF#32],
    w.toNat / 2 ^ 24 ∉ [0x01, 0x02, 0x03, 0x04, 0x05, 0x06, 0x07, 0x08, 0x09, 0x10, 0x11, 0x12, 0x13, 0x14, 0x15, 0x20, 0x21,
      0x22, 0x23, 0x24, 0x25, 0x26] := by simp
/-- Format F0: the lowest and the highest reserved bit. -/
theorem witness_UnassignedAndReservedWordsAreIllegal_f0 : ∀ w ∈ [0x09000001#32, 0x26800000#32],
    w.toNat / 2 ^ 24 ∈ [0x09, 0x11, 0x13, 0x14, 0x15, 0x21, 0x22, 0x26] ∧ w.toNat % 2 ^ 24 ≠ 0 := by simp
/-- Format FA. -/
theorem witness_UnassignedAndReservedWordsAreIllegal_fa : ∀ w ∈ [0x01000001#32, 0x20008000#32],
    w.toNat / 2 ^ 24 ∈ [0x01, 0x02, 0x10, 0x12, 0x20] ∧ w.toNat % 2 ^ 16 ≠ 0 := by simp
/-- Format FAB. -/
theorem witness_UnassignedAndReservedWordsAreIllegal_fab : ∀ w ∈ [0x03000001#32, 0x24000080#32],
    w.toNat / 2 ^ 24 ∈ [0x03, 0x05, 0x23, 0x24] ∧ w.toNat % 2 ^ 8 ≠ 0 := by simp
/-- Format FA1. -/
theorem witness_UnassignedAndReservedWordsAreIllegal_fa1 : ∀ w ∈ [0x25000001#32, 0x25020000#32, 0x25800000#32],
    w.toNat / 2 ^ 24 = 0x25 ∧ w &&& 0x00FEFFFF#32 ≠ 0#32 := by simp

/-! ### The step and the host interface -/

theorem witness_CommandWriteExecutesTheDecodedCommand :
    (State.reset.withFetchWord 32 0x12100000).inputs = commandWrite 0x12100000#32 :: [] ∧
    (Instr.pwmSet 16#8).wf = true ∧ decode 0x12100000#32 = .ok (.pwmSet 16#8) := by decide

theorem witness_CommandWriteExecutesTheDecodedCommand_illegal :
    (State.reset.withFetchWord 32 0x12100001).inputs = commandWrite 0x12100001#32 :: [] ∧
    decode 0x12100001#32 = .error (.reservedField 0x12#8) := by decide

theorem witness_CommandWritesAlwaysComplete :
    (State.reset.withFetchWord 32 0x26000000).inputs = commandWrite 0x26000000#32 :: [] := by decide

/-- Each reason for a refusal, at the ends of its range; then the offsets next to the reserved ranges. -/
theorem witness_OnlyAlignedWordAccessesAreTaken :
    Width.w2 ≠ .w4 ∧ (0x001#12).toNat % 4 ≠ 0 ∧
    (∀ o ∈ [0x030#12, 0x03C#12], 0x030 ≤ o.toNat ∧ o.toNat < 0x040) ∧
    (∀ o ∈ [0x080#12, 0x0FC#12], 0x080 ≤ o.toNat ∧ o.toNat < 0x100) ∧ (∀ o ∈ [0x180#12, 0xFFC#12], 0x180 ≤ o.toNat) ∧
    (∀ o ∈ [0x000#12, 0x02C#12, 0x040#12, 0x07C#12, 0x100#12, 0x17C#12], ¬ (Width.w4 ≠ .w4 ∨ o.toNat % 4 ≠ 0 ∨
      (0x030 ≤ o.toNat ∧ o.toNat < 0x040) ∨ (0x080 ≤ o.toNat ∧ o.toNat < 0x100) ∨ 0x180 ≤ o.toNat)) := by simp

/-- A read-only register, the bytes on either side of a DATA word, and a write that is done twice. -/
theorem witness_HostReadsAndWritesHaveNoSideEffect :
    HostReg.sel 15#4 ∈ [HostReg.status, .result, .busOpen, .pwmRec, .dispRec, .dbuf01, .dbuf23, .sel 15#4] ∧
    (∀ a ∈ [3, 8], a < 4 * (1#5).toNat ∨ 4 * (1#5).toNat + 4 ≤ a) ∧
    (DataOk State.reset ∧ HostReg.data 31#5 ≠ .cmd ∧
      takeInput (regWrite (.data 31#5) 5#32) State.reset = .next (taken (regWrite (.data 31#5) 5#32) State.reset)) :=
  ⟨by decide, by decide, by decide, by decide, rfl⟩

/-- The first and the last byte of word 1, and the bytes on either side of it. -/
theorem witness_DataWordsAreLittleEndian :
    DataOk { State.reset with data := [(0, 1#8), (127, 2#8)] } ∧ (0 < 4 ∧ 3 < 4) ∧
    (3 < 4 * (1#5).toNat ∧ 4 * (1#5).toNat + 4 ≤ 8) := by decide

/-- The last port and the bit above it; a port from NBUS up, one with no target, one with a target; the records; a view. -/
theorem witness_ReadOnlyViewsShowTheState :
    (15 < 16 ∧ 16 ≤ 16) ∧ ¬ (2#4).toNat < State.reset.cfg.nbus.val ∧
    ((1#4).toNat < State.reset.cfg.nbus.val ∧ (State.reset.port 1#4).sel = none) ∧
    ((0#4).toNat < (readyWith (scripted [])).cfg.nbus.val ∧ ((readyWith (scripted [])).port 0#4).sel = some 0x40#7) ∧
    (HostReg.pwmRec = .pwmRec ∧ DevRec.cleared = State.reset.recPwm) ∧
    (HostReg.dispRec = .dispRec ∧ DevRec.cleared = State.reset.recDisp) ∧
    (HostReg.dbuf23 ∈ [HostReg.busOpen, .pwmRec, .dispRec, .dbuf01, .dbuf23] ∧ ∃ b, HostReg.sel 15#4 = .sel b) := by
  refine ⟨by decide, by decide, by decide, by decide, by decide, by decide, by decide, 15#4, rfl⟩

theorem witness_ResetLeavesTheSpecValues :
    ({ pwmWith true (scripted []) with inputs := [.reset] } : State).inputs = .reset :: [] := by decide

/-! ### The I2C master -/

/-- Bus 2 with NBUS 2; bus 1 missing; bus 0 open; bus 1 held; bus 1 free. -/
theorem witness_BusOpenAcquiresThePort :
    ¬ (2#8).toNat < State.reset.cfg.nbus.val ∧
    ((1#8).toNat < ({ State.reset with cfg := { defaultParams with busPresent := Vector.replicate 16 false } } : State).cfg.nbus.val ∧
      ({ State.reset with cfg := { defaultParams with busPresent := Vector.replicate 16 false } } : State).cfg.busPresent[
        (portOf 1#8).toFin] = false) ∧
    ((0#8).toNat < (openedWith (scripted [])).cfg.nbus.val ∧ ((openedWith (scripted [])).port (portOf 0#8)).opened = true) ∧
    ((1#8).toNat < (fresh { scripted [] with held := [true] }).cfg.nbus.val ∧
      (fresh { scripted [] with held := [true] }).cfg.busPresent[(portOf 1#8).toFin] = true ∧
      ((fresh { scripted [] with held := [true] }).port (portOf 1#8)).opened = false ∧
      (fresh { scripted [] with held := [true] }).env.isHeld = true) ∧
    ((1#8).toNat < (fresh (scripted [])).cfg.nbus.val ∧ (fresh (scripted [])).cfg.busPresent[(portOf 1#8).toFin] = true ∧
      ((fresh (scripted [])).port (portOf 1#8)).opened = false ∧ (fresh (scripted [])).env.isHeld = false) := by decide

theorem witness_BusCloseReleasesThePort :
    ¬ Opened (openedWith (scripted [])) 1#8 ∧ ¬ Opened (openedWith (scripted [])) 16#8 ∧
    Opened (openedWith (scripted [])) 0#8 := by decide

theorem witness_SetAddrSelectsTheTarget :
    ¬ Opened (openedWith (scripted [])) 1#8 ∧ (Opened (openedWith (scripted [])) 0#8 ∧ (0x02#8).toNat < 0x03) ∧
    (Opened (openedWith (scripted [])) 0#8 ∧ 0x77 < (0x78#8).toNat) ∧
    (Opened (openedWith (scripted [])) 0#8 ∧ 0x03 ≤ (0x03#8).toNat ∧ (0x03#8).toNat ≤ 0x77) ∧
    (Opened (openedWith (scripted [])) 0#8 ∧ 0x03 ≤ (0x77#8).toNat ∧ (0x77#8).toNat ≤ 0x77) := by decide

/-- A bus that is open and has no target is not ready. -/
theorem not_ready (e : Env) : ∀ a, ¬ ReadyAt (openedWith e) 0#8 a := by
  intro a h
  exact absurd h.2 (by simp [openedWith, portOf])

theorem witness_WriteByteSendsOneWrite :
    (∀ a, ¬ ReadyAt (openedWith (scripted [])) 0#8 a) ∧
    (ReadyAt (readyWith (scripted [.ok []])) 0#8 0x40#7 ∧
      AllSent (readyWith (scripted [.ok []])) (portOf 0#8) 0x40#7 [[0xFF#8, 0#8]]) ∧
    (ReadyAt (readyWith (scripted [.fail])) 0#8 0x40#7 ∧
      FailsAt (readyWith (scripted [.fail])) (portOf 0#8) 0x40#7 [[0xFF#8, 0#8]] [] [0xFF#8, 0#8] []) :=
  ⟨not_ready _, by decide, by decide⟩

theorem witness_ReadByteReturnsTheByte :
    (∀ a, ¬ ReadyAt (openedWith (scripted [])) 0#8 a) ∧
    (ReadyAt (readyWith (scripted [.ok [0x11#8]])) 0#8 0x40#7 ∧
      (readyWith (scripted [.ok [0x11#8]])).env.response (portOf 0#8) (.writeRead 0x40#7 0#8 1) = .ok [0x11#8]) ∧
    (ReadyAt (readyWith (scripted [.fail])) 0#8 0x40#7 ∧
      (readyWith (scripted [.fail])).env.response (portOf 0#8) (.writeRead 0x40#7 0#8 1) = .fail) :=
  ⟨not_ready _, by decide, by decide⟩

/-- Lengths 33, 32 and 0. -/
theorem witness_WriteBlockSendsTheDataBytes :
    32 < (33#8).toNat ∧ ((32#8).toNat ≤ 32 ∧ ∀ a, ¬ ReadyAt (openedWith (scripted [])) 0#8 a) ∧
    ((32#8).toNat ≤ 32 ∧ ReadyAt (readyWith (scripted [.ok []])) 0#8 0x40#7 ∧
      AllSent (readyWith (scripted [.ok []])) (portOf 0#8) 0x40#7
        [5#8 :: (List.range (32#8).toNat).map (fun k => Memory.read (readyWith (scripted [.ok []])).data k)]) ∧
    ((0#8).toNat ≤ 32 ∧ ReadyAt (readyWith (scripted [.fail])) 0#8 0x40#7 ∧
      FailsAt (readyWith (scripted [.fail])) (portOf 0#8) 0x40#7
        [5#8 :: (List.range (0#8).toNat).map (fun k => Memory.read (readyWith (scripted [.fail])).data k)] [] [5#8] []) :=
  ⟨by decide, ⟨by decide, not_ready _⟩, by decide, by decide⟩

/-- Lengths 0, 33, 1 and 32. -/
theorem witness_ReadBlockStoresTheReply :
    (0#8).toNat = 0 ∧ 32 < (33#8).toNat ∧
    (0 < (1#8).toNat ∧ (1#8).toNat ≤ 32 ∧ ∀ a, ¬ ReadyAt (openedWith (scripted [])) 0#8 a) ∧
    (0 < (32#8).toNat ∧ (32#8).toNat ≤ 32 ∧ ReadyAt (readyWith (scripted [.ok (List.replicate 32 7#8)])) 0#8 0x40#7 ∧
      (readyWith (scripted [.ok (List.replicate 32 7#8)])).env.response (portOf 0#8) (.writeRead 0x40#7 0#8 (32#8).toNat) =
        .ok (List.replicate 32 7#8) ∧ DataOk (readyWith (scripted [.ok (List.replicate 32 7#8)]))) ∧
    (0 < (1#8).toNat ∧ (1#8).toNat ≤ 32 ∧ ReadyAt (readyWith (scripted [.fail])) 0#8 0x40#7 ∧
      (readyWith (scripted [.fail])).env.response (portOf 0#8) (.writeRead 0x40#7 0#8 (1#8).toNat) = .fail) :=
  ⟨by decide, by decide, ⟨by decide, by decide, not_ready _⟩, by decide, by decide⟩

theorem witness_ScanListsTheAcknowledgedAddresses :
    ¬ Opened (openedWith (scripted [])) 1#8 ∧ (Opened (openedWith (reference [])) 0#8 ∧ DataOk (openedWith (reference []))) := by
  decide

/-! ### The PWM unit -/

/-- A bus that is not open; the only candidate answers; it fails. -/
theorem witness_PwmDetectFindsTheFirstCandidate :
    ¬ Opened (openedWith (scripted [])) 1#8 ∧
    (Opened (openedWith (scripted [.ok [9#8]])) 0#8 ∧ (openedWith (scripted [.ok [9#8]])).cfg.pwmCandidates = [] ++ 0x40#7 :: [] ∧
      (openedWith (scripted [.ok [9#8]])).env.nacks (portOf 0#8) (probeReads 0#8 []) = true ∧
      ((openedWith (scripted [.ok [9#8]])).env.after (portOf 0#8) (probeReads 0#8 [])).response (portOf 0#8)
        (.writeRead 0x40#7 0#8 1) = .ok [9#8]) ∧
    (Opened (openedWith (scripted [.fail])) 0#8 ∧ (openedWith (scripted [.fail])).cfg.pwmCandidates = [] ++ [0x40#7] ∧
      (openedWith (scripted [.fail])).env.nacks (portOf 0#8)
        (probeReads 0#8 (openedWith (scripted [.fail])).cfg.pwmCandidates) = true) := by decide

/-- The PWM chip's two MODE1 writes, all acknowledged; the second fails. -/
theorem witness_PwmInitWritesTheModeSequence :
    State.reset.recPwm.det = false ∧
    ((pwmWith false (scripted [.ok [], .ok []])).recPwm.det = true ∧
      AllSent (pwmWith false (scripted [.ok [], .ok []])) 0#4 0x40#7 (defaultParams.pwmInitSeq.map (fun v => [defaultParams.pwmMode1, v]))) ∧
    ((pwmWith true (scripted [.ok [], .fail])).recPwm.det = true ∧
      FailsAt (pwmWith true (scripted [.ok [], .fail])) 0#4 0x40#7
        (defaultParams.pwmInitSeq.map (fun v => [defaultParams.pwmMode1, v])) [[0#8, 0#8]] [0#8, 0x20#8] []) := by decide

/-- Channel 17; channel 16 without init; channel 16 and channel 15 with init, all acknowledged and one failing. -/
theorem witness_PwmSetWritesOneChannel :
    16 < (17#8).toNat ∧ ((16#8).toNat ≤ 16 ∧ State.reset.recPwm.init = false) ∧
    ((pwmWith true (scripted [.ok []])).recPwm.init = true ∧ (16#8).toNat = 16 ∧
      AllSent (pwmWith true (scripted [.ok []])) 0#4 0x40#7 [broadcastWrite defaultParams 0#12 4095#12]) ∧
    ((pwmWith true (scripted [.fail])).recPwm.init = true ∧ (16#8).toNat = 16 ∧
      FailsAt (pwmWith true (scripted [.fail])) 0#4 0x40#7 [broadcastWrite defaultParams 0#12 4095#12] []
        (broadcastWrite defaultParams 0#12 4095#12) []) ∧
    ((pwmWith true (scripted [.ok [], .ok [], .ok [], .ok []])).recPwm.init = true ∧ (15#8).toNat < 16 ∧
      AllSent (pwmWith true (scripted [.ok [], .ok [], .ok [], .ok []])) 0#4 0x40#7
        (channelWrites defaultParams (15#8).toNat 4095#12 0#12)) ∧
    ((pwmWith true (scripted [.ok [], .ok [], .ok [], .fail])).recPwm.init = true ∧ (15#8).toNat < 16 ∧
      FailsAt (pwmWith true (scripted [.ok [], .ok [], .ok [], .fail])) 0#4 0x40#7
        (channelWrites defaultParams (15#8).toNat 4095#12 0#12)
        [[0x42#8, 0xFF#8], [0x43#8, 0x0F#8], [0x44#8, 0x00#8]] [0x45#8, 0x00#8] []) := by decide

theorem witness_PwmSetAllSendsOneBurst :
    State.reset.recPwm.init = false ∧
    ((pwmWith true (scripted [.ok []])).recPwm.init = true ∧
      AllSent (pwmWith true (scripted [.ok []])) 0#4 0x40#7 [broadcastWrite defaultParams 0#12 0#12]) ∧
    ((pwmWith true (scripted [.fail])).recPwm.init = true ∧
      FailsAt (pwmWith true (scripted [.fail])) 0#4 0x40#7 [broadcastWrite defaultParams 0#12 0#12] []
        (broadcastWrite defaultParams 0#12 0#12) []) := by decide

theorem witness_FanSpeedWritesTheFanChannel :
    State.reset.recPwm.init = false ∧
    ((pwmWith true (scripted [.ok [], .ok [], .ok [], .ok []])).recPwm.init = true ∧
      AllSent (pwmWith true (scripted [.ok [], .ok [], .ok [], .ok []])) 0#4 0x40#7 (channelWrites defaultParams 0 0#12 0#12)) ∧
    ((pwmWith true (scripted [.fail])).recPwm.init = true ∧
      FailsAt (pwmWith true (scripted [.fail])) 0#4 0x40#7 (channelWrites defaultParams 0 0#12 0#12) [] [0x06#8, 0#8]
        [[0x07#8, 0#8], [0x08#8, 0#8], [0x09#8, 0#8]]) := by decide

/-- Twelve writes to a reference device; the fifth fails (L2.7). -/
theorem witness_LedColorWritesThreeChannels :
    State.reset.recPwm.init = false ∧
    ((pwmWith true (reference [{ bus := 0#4, addr := 0x40#7, regs := [] }])).recPwm.init = true ∧
      AllSent (pwmWith true (reference [{ bus := 0#4, addr := 0x40#7, regs := [] }])) 0#4 0x40#7
        (channelWrites defaultParams 1 0#12 0#12 ++ channelWrites defaultParams 2 0#12 0#12 ++
          channelWrites defaultParams 3 0#12 0#12)) ∧
    ((pwmWith true (scripted [.ok [], .ok [], .ok [], .ok [], .fail])).recPwm.init = true ∧
      FailsAt (pwmWith true (scripted [.ok [], .ok [], .ok [], .ok [], .fail])) 0#4 0x40#7
        (channelWrites defaultParams 1 0#12 0#12 ++ channelWrites defaultParams 2 0#12 0#12 ++
          channelWrites defaultParams 3 0#12 0#12)
        (channelWrites defaultParams 1 0#12 0#12) [0x0E#8, 0#8]
        ([[0x0F#8, 0#8], [0x10#8, 0#8], [0x11#8, 0#8]] ++ channelWrites defaultParams 3 0#12 0#12)) := by decide

theorem witness_TicksClampTheOperand :
    (0x80000000#32).toInt ≤ 0 ∧ (0#32).toInt ≤ 0 ∧ (0 ≤ (0#32).toInt ∧ (0#32).toInt ≤ 4095) ∧
    (0 ≤ (4095#32).toInt ∧ (4095#32).toInt ≤ 4095) ∧ 4095 ≤ (4095#32).toInt ∧ 4095 ≤ (0x7FFFFFFF#32).toInt := by decide

theorem witness_LevelRoundsHalfUp :
    ((30 : Nat) : Int) = min (max (30#32).toInt 0) 100 ∧ ((0 : Nat) : Int) = min (max (0xFFFFFFFB#32).toInt 0) 100 ∧
    ((100 : Nat) : Int) = min (max (150#32).toInt 0) 100 := by decide

theorem witness_LevelProperties :
    (0 ≤ (0#32).toInt ∧ (0#32).toInt ≤ (100#32).toInt ∧ (100#32).toInt ≤ 100) ∧ (0xFFFFFFFF#32).toInt < 0 ∧
    100 < (101#32).toInt := by decide

/-! ### The display and keypad unit -/

/-- A bus that is not open; the last of eight candidates answers; none does. -/
theorem witness_DispDetectFindsTheFirstCandidate :
    ¬ Opened (openedWith (reference [])) 1#8 ∧
    (Opened (openedWith (reference [{ bus := 0#4, addr := 0x77#7, regs := [] }])) 0#8 ∧
      (openedWith (reference [{ bus := 0#4, addr := 0x77#7, regs := [] }])).cfg.dispCandidates =
        [0x70#7, 0x71#7, 0x72#7, 0x73#7, 0x74#7, 0x75#7, 0x76#7] ++ 0x77#7 :: [] ∧
      (openedWith (reference [{ bus := 0#4, addr := 0x77#7, regs := [] }])).env.nacks (portOf 0#8)
        (probeReads 0#8 [0x70#7, 0x71#7, 0x72#7, 0x73#7, 0x74#7, 0x75#7, 0x76#7]) = true ∧
      ((openedWith (reference [{ bus := 0#4, addr := 0x77#7, regs := [] }])).env.after (portOf 0#8)
        (probeReads 0#8 [0x70#7, 0x71#7, 0x72#7, 0x73#7, 0x74#7, 0x75#7, 0x76#7])).response (portOf 0#8)
        (.writeRead 0x77#7 0#8 1) = .ok [0#8]) ∧
    (Opened (openedWith (reference [])) 0#8 ∧ (openedWith (reference [])).cfg.dispCandidates =
        [0x70#7, 0x71#7, 0x72#7, 0x73#7, 0x74#7, 0x75#7, 0x76#7] ++ [0x77#7] ∧
      (openedWith (reference [])).env.nacks (portOf 0#8)
        (probeReads 0#8 (openedWith (reference [])).cfg.dispCandidates) = true) := by decide

theorem witness_DispInitSendsTheStartUpBytes :
    State.reset.recDisp.det = false ∧
    ((dispWith false (scripted [.ok [], .ok []])).recDisp.det = true ∧
      AllSent (dispWith false (scripted [.ok [], .ok []])) 0#4 0x70#7 [[defaultParams.dispStandbyOff], [defaultParams.dispDisplayOn]]) ∧
    ((dispWith true (scripted [.ok [], .fail])).recDisp.det = true ∧
      FailsAt (dispWith true (scripted [.ok [], .fail])) 0#4 0x70#7
        [[defaultParams.dispStandbyOff], [defaultParams.dispDisplayOn]] [[0x21#8]] [0x81#8] []) := by decide

theorem witness_DispClearBlanksTheDigits :
    State.reset.recDisp.init = false ∧
    ((dispWith true (scripted [.ok [], .ok [], .ok [], .ok []])).recDisp.init = true ∧
      AllSent (dispWith true (scripted [.ok [], .ok [], .ok [], .ok []])) 0#4 0x70#7
        [[0#8, 0#8, 0#8], [2#8, 0#8, 0#8], [4#8, 0#8, 0#8], [6#8, 0#8, 0#8]]) ∧
    ((dispWith true (scripted [.ok [], .fail])).recDisp.init = true ∧
      FailsAt (dispWith true (scripted [.ok [], .fail])) 0#4 0x70#7
        [[0#8, 0#8, 0#8], [2#8, 0#8, 0#8], [4#8, 0#8, 0#8], [6#8, 0#8, 0#8]] [[0#8, 0#8, 0#8]] [2#8, 0#8, 0#8]
        [[4#8, 0#8, 0#8], [6#8, 0#8, 0#8]]) := by decide

/-- Index 4; index 3 without init; indexes 0 and 3 with init, the digit acknowledged and failing. -/
theorem witness_DispCharLeftWritesTheSlot :
    3 < (4#8).toNat ∧ ((3#8).toNat ≤ 3 ∧ State.reset.recDisp.init = false) ∧
    ((dispWith true (scripted [.ok []])).recDisp.init = true ∧ (0 : Fin 4).val = (0#8).toNat ∧
      AllSent (dispWith true (scripted [.ok []])) 0#4 0x70#7 [digitWrite defaultParams 0 0x0007#16]) ∧
    ((dispWith true (scripted [.fail])).recDisp.init = true ∧ (3 : Fin 4).val = (3#8).toNat ∧
      FailsAt (dispWith true (scripted [.fail])) 0#4 0x70#7 [digitWrite defaultParams 3 0x0007#16] []
        (digitWrite defaultParams 3 0x0007#16) []) := by decide

theorem witness_DispCharRightWritesTheSlot :
    3 < (4#8).toNat ∧ ((3#8).toNat ≤ 3 ∧ State.reset.recDisp.init = false) ∧
    ((dispWith true (scripted [.ok []])).recDisp.init = true ∧ (3 : Fin 4).val + (0#8).toNat = 3 ∧
      AllSent (dispWith true (scripted [.ok []])) 0#4 0x70#7 [digitWrite defaultParams 3 0x00F7#16]) ∧
    ((dispWith true (scripted [.fail])).recDisp.init = true ∧ (0 : Fin 4).val + (3#8).toNat = 3 ∧
      FailsAt (dispWith true (scripted [.fail])) 0#4 0x70#7 [digitWrite defaultParams 0 0x00F7#16] []
        (digitWrite defaultParams 0 0x00F7#16) []) := by decide

/-- Texts of four, three and no bytes, and the slots on either side of each end. -/
theorem witness_LayoutAlignsAndCuts :
    4 ≤ [1#8, 2#8, 3#8, 4#8].length ∧
    ([1#8, 2#8, 3#8].length < 4 ∧ (0 : Fin 4).val < 4 - [1#8, 2#8, 3#8].length) ∧
    ([1#8, 2#8, 3#8].length < 4 ∧ 4 - [1#8, 2#8, 3#8].length ≤ (1 : Fin 4).val ∧
      (1 : Fin 4).val - (4 - [1#8, 2#8, 3#8].length) < [1#8, 2#8, 3#8].length) ∧
    ([1#8, 2#8, 3#8].length < 4 ∧ (2 : Fin 4).val < [1#8, 2#8, 3#8].length) ∧
    ([1#8, 2#8, 3#8].length < 4 ∧ [1#8, 2#8, 3#8].length ≤ (3 : Fin 4).val) ∧
    (([] : List Byte).length < 4 ∧ ([] : List Byte).length ≤ (0 : Fin 4).val) := by decide

/-- Lengths 129, 128 without init, and 0 with init, the digits acknowledged and the third failing. -/
theorem witness_DispStringShowsTheLayout :
    128 < ({ State.reset with dlen := 129#8 } : State).dlen.toNat ∧
    (({ State.reset with dlen := 128#8 } : State).dlen.toNat ≤ 128 ∧
      ({ State.reset with dlen := 128#8 } : State).recDisp.init = false) ∧
    ((dispWith true (scripted [.ok [], .ok [], .ok [], .ok []])).dlen.toNat ≤ 128 ∧
      (dispWith true (scripted [.ok [], .ok [], .ok [], .ok []])).recDisp.init = true ∧
      AllSent (dispWith true (scripted [.ok [], .ok [], .ok [], .ok []])) 0#4 0x70#7
        [digitWrite defaultParams 0 0#16, digitWrite defaultParams 1 0#16, digitWrite defaultParams 2 0#16,
          digitWrite defaultParams 3 0#16]) ∧
    ((dispWith true (scripted [.ok [], .ok [], .fail])).dlen.toNat ≤ 128 ∧
      (dispWith true (scripted [.ok [], .ok [], .fail])).recDisp.init = true ∧
      FailsAt (dispWith true (scripted [.ok [], .ok [], .fail])) 0#4 0x70#7
        [digitWrite defaultParams 0 0#16, digitWrite defaultParams 1 0#16, digitWrite defaultParams 2 0#16,
          digitWrite defaultParams 3 0#16]
        [digitWrite defaultParams 0 0#16, digitWrite defaultParams 1 0#16] (digitWrite defaultParams 2 0#16)
        [digitWrite defaultParams 3 0#16]) := by decide

/-- No key pressed; keys (1, 0) and (2, 12) pressed, (1, 0) the lowest. -/
theorem witness_KeyDecodeTakesTheLowestKey :
    (∀ r < defaultParams.keyRows, ∀ c < defaultParams.keyCols,
      (([0#8, 0#8, 0#8, 0#8, 0#8, 0#8].getD (2 * r) 0#8).toNat +
        256 * ([0#8, 0#8, 0#8, 0#8, 0#8, 0#8].getD (2 * r + 1) 0#8).toNat).testBit c = false) ∧
    (1 < defaultParams.keyRows ∧ 0 < defaultParams.keyCols ∧
      (([0#8, 0#8, 1#8, 0#8, 0#8, 0x10#8].getD (2 * 1) 0#8).toNat +
        256 * ([0#8, 0#8, 1#8, 0#8, 0#8, 0x10#8].getD (2 * 1 + 1) 0#8).toNat).testBit 0 = true ∧
      ∀ r < defaultParams.keyRows, ∀ c < defaultParams.keyCols,
        (([0#8, 0#8, 1#8, 0#8, 0#8, 0x10#8].getD (2 * r) 0#8).toNat +
          256 * ([0#8, 0#8, 1#8, 0#8, 0#8, 0x10#8].getD (2 * r + 1) 0#8).toNat).testBit c = true →
        1 * defaultParams.keyCols + 0 ≤ r * defaultParams.keyCols + c) := by decide

theorem witness_ReadKeyDecodesTheKeypad :
    State.reset.recDisp.init = false ∧
    ((dispWith true (scripted [.ok [1#8, 0#8, 0#8, 0#8, 0#8, 0#8]])).recDisp.init = true ∧
      (dispWith true (scripted [.ok [1#8, 0#8, 0#8, 0#8, 0#8, 0#8]])).env.response 0#4
        (.writeRead 0x70#7 defaultParams.keyBase (2 * defaultParams.keyRows)) = .ok [1#8, 0#8, 0#8, 0#8, 0#8, 0#8]) ∧
    ((dispWith true (scripted [.fail])).recDisp.init = true ∧
      (dispWith true (scripted [.fail])).env.response 0#4
        (.writeRead 0x70#7 defaultParams.keyBase (2 * defaultParams.keyRows)) = .fail) := by decide

/-- The bytes at the ends of the ranges. -/
theorem witness_DefaultCharacterMapBlanksTheRest :
    (∀ c ∈ [0x00#8, 0x2C#8, 0x2E#8, 0x2F#8, 0x3A#8, 0x40#8, 0x5B#8, 0xFF#8],
      c.toNat ≠ 0x2D ∧ (c.toNat < 0x30 ∨ (0x3A ≤ c.toNat ∧ c.toNat ≤ 0x40) ∨ 0x5A < c.toNat)) ∧
    (∀ c ∈ [0x61#8, 0x7A#8], 0x61 ≤ c.toNat ∧ c.toNat ≤ 0x7A) := by decide

/-! ### Frames -/

theorem witness_CommandsLeaveTheOperandRegisters :
    exec .ledColor (pwmWith true (scripted [])) = .next (after .ledColor (pwmWith true (scripted []))) := exec_after _ _

/-- A command of neither kind, a READ_BLOCK that succeeds, and one that fails. -/
theorem witness_OnlyReadBlockAndScanWriteData :
    (exec .readKey State.reset = .next (after .readKey State.reset) ∧ (∀ b r n, Instr.readKey ≠ .readBlock b r n) ∧
      ∀ b first last, Instr.readKey ≠ .scan b first last) ∧
    (exec (.readBlock 0#8 0#8 1#8) (readyWith (scripted [.ok [5#8]])) =
        .next (after (.readBlock 0#8 0#8 1#8) (readyWith (scripted [.ok [5#8]]))) ∧
      (after (.readBlock 0#8 0#8 1#8) (readyWith (scripted [.ok [5#8]]))).dlen.toNat ≤ 1 ∧
      (after (.readBlock 0#8 0#8 1#8) (readyWith (scripted [.ok [5#8]]))).status = 0#32) ∧
    (exec (.readBlock 0#8 0#8 1#8) (readyWith (scripted [.fail])) =
        .next (after (.readBlock 0#8 0#8 1#8) (readyWith (scripted [.fail]))) ∧
      (after (.readBlock 0#8 0#8 1#8) (readyWith (scripted [.fail]))).status ≠ 0#32) :=
  ⟨⟨exec_after _ _, by simp, by simp⟩, ⟨exec_after _ _, by decide, by decide⟩, exec_after _ _, by decide⟩

theorem witness_OnlyDisplayWritesChangeTheBuffer :
    exec .readKey State.reset = .next (after .readKey State.reset) ∧ Instr.readKey ≠ .dispClear ∧ Instr.readKey ≠ .mgrClose ∧
    (∀ i c, Instr.readKey ≠ .dispCharL i c) ∧ (∀ i c, Instr.readKey ≠ .dispCharR i c) ∧ ∀ r, Instr.readKey ≠ .dispString r :=
  ⟨exec_after _ _, by simp, by simp, by simp, by simp, by simp⟩

theorem witness_RecordsChangeOnlyByDetectInitAndClose :
    exec .readKey State.reset = .next (after .readKey State.reset) ∧ Instr.readKey ≠ .mgrClose ∧
    (∀ b, Instr.readKey ≠ .busClose b) ∧ (∀ b, Instr.readKey ≠ .pwmDetect b) ∧ Instr.readKey ≠ .pwmInit ∧
    (∀ b, Instr.readKey ≠ .dispDetect b) ∧ Instr.readKey ≠ .dispInit :=
  ⟨exec_after _ _, by simp, by simp, by simp, by simp, by simp, by simp⟩

/-- A port that opens, and a port that closes. -/
theorem witness_PortsOpenAndCloseOnlyByTheirCommands :
    (exec (.busOpen 1#8) (fresh (scripted [])) = .next (after (.busOpen 1#8) (fresh (scripted []))) ∧
      ((fresh (scripted [])).port 1#4).opened = false ∧ ((after (.busOpen 1#8) (fresh (scripted []))).port 1#4).opened = true) ∧
    (exec .mgrClose (openedWith (scripted [])) = .next (after .mgrClose (openedWith (scripted []))) ∧
      ((openedWith (scripted [])).port 0#4).opened = true ∧
      ((after .mgrClose (openedWith (scripted []))).port 0#4).opened = false) :=
  ⟨⟨exec_after _ _, by decide, by decide⟩, exec_after _ _, by decide, by decide⟩

theorem witness_TargetsChangeOnlyByTheirCommands :
    exec .readKey (dispWith true (scripted [.fail])) = .next (after .readKey (dispWith true (scripted [.fail]))) ∧
    ((after .readKey (dispWith true (scripted [.fail]))).port 0#4).sel ≠ ((dispWith true (scripted [.fail])).port 0#4).sel :=
  ⟨exec_after _ _, by decide⟩

/-- READ_KEY's unit where the keypad's last register is 0xFF. -/
def lastKeyRegister : State := { dispWith true (scripted [.fail]) with cfg := { defaultParams with keyBase := 0xFA#8 } }

/-- A step that runs READ_KEY on an initialised unit, and the command itself where the keypad's last register is 0xFF. -/
theorem witness_TraceIsAppendOnly :
    step ((dispWith true (scripted [.fail])).withFetchWord 32 0x26000000) =
      .next (stepped ((dispWith true (scripted [.fail])).withFetchWord 32 0x26000000)) ∧
    (lastKeyRegister.cfg.wf = true ∧ (∀ b r n, Instr.readKey ≠ .writeBlock b r n) ∧
      (∀ b r n, Instr.readKey ≠ .readBlock b r n) ∧
      exec .readKey lastKeyRegister = .next (after .readKey lastKeyRegister)) :=
  ⟨step_fetched _ _ _, by decide, by simp, by simp, exec_after _ _⟩

/-! ### Invariants -/

theorem witness_StepKeepsDataCanonical :
    DataOk ((readyWith (scripted [.ok [5#8]])).withFetchWord 32 0x07000001) ∧
    step ((readyWith (scripted [.ok [5#8]])).withFetchWord 32 0x07000001) =
      .next (stepped ((readyWith (scripted [.ok [5#8]])).withFetchWord 32 0x07000001)) :=
  ⟨by decide, step_fetched _ _ _⟩

theorem witness_StepKeepsPortsAndRecords :
    PortsOk ((dispWith true (scripted [])).withFetchWord 32 0x02000000) ∧
    RecOk ((dispWith true (scripted [])).withFetchWord 32 0x02000000) .pwm ∧
    RecOk ((dispWith true (scripted [])).withFetchWord 32 0x02000000) .disp ∧
    step ((dispWith true (scripted [])).withFetchWord 32 0x02000000) =
      .next (stepped ((dispWith true (scripted [])).withFetchWord 32 0x02000000)) :=
  ⟨by decide, by decide, by decide, step_fetched _ _ _⟩

theorem witness_StepKeepsTheOutcome :
    OutcomeOk ((dispWith true (scripted [.fail])).withFetchWord 32 0x26000000) ∧
    step ((dispWith true (scripted [.fail])).withFetchWord 32 0x26000000) =
      .next (stepped ((dispWith true (scripted [.fail])).withFetchWord 32 0x26000000)) :=
  ⟨by decide, step_fetched _ _ _⟩

/-- Only target 0x40 is selected in the states the tests start from. -/
theorem sel_dispWith (e : Env) (p : BusIx) (a : Addr) (h : ((dispWith true e).port p).sel = some a) : a = 0x40#7 := by
  simp only [dispWith, readyWith, port_setRec, port_setPort] at h
  split at h
  · simpa using h.symm
  · simp [fresh, State.port, State.reset, Port.closed] at h

theorem witness_StepKeepsSoundness :
    Sound ((dispWith true (scripted [.ok [1#8, 0#8, 0#8, 0#8, 0#8, 0#8]])).withFetchWord 32 0x26000000) ∧
    step ((dispWith true (scripted [.ok [1#8, 0#8, 0#8, 0#8, 0#8, 0#8]])).withFetchWord 32 0x26000000) =
      .next (stepped ((dispWith true (scripted [.ok [1#8, 0#8, 0#8, 0#8, 0#8, 0#8]])).withFetchWord 32 0x26000000)) := by
  refine ⟨⟨by decide, by decide, by decide, by decide, by decide, by decide, by decide,
    ⟨fun p a h => ?_, by decide, by decide⟩, fun _ h => absurd h List.not_mem_nil⟩, step_fetched _ _ _⟩
  rw [sel_dispWith _ p a h]
  decide

theorem witness_StepKeepsTheParameters :
    step (State.reset.withFetchWord 32 0x09000000) = .next (stepped (State.reset.withFetchWord 32 0x09000000)) :=
  step_fetched _ _ _

/-! ### Whole-machine rules -/

theorem witness_CommandsEndWithTheirListedCodes :
    exec .dispInit State.reset = .next (after .dispInit State.reset) := exec_after _ _

theorem witness_SuccessfulCommandsIssueTheListedTransactions :
    exec .readKey (dispWith true (scripted [.ok [1#8, 0#8, 0#8, 0#8, 0#8, 0#8]])) =
      .next (after .readKey (dispWith true (scripted [.ok [1#8, 0#8, 0#8, 0#8, 0#8, 0#8]]))) ∧
    (after .readKey (dispWith true (scripted [.ok [1#8, 0#8, 0#8, 0#8, 0#8, 0#8]]))).status = 0#32 :=
  ⟨exec_after _ _, by decide⟩

/-- A response of each shape. -/
theorem witness_EveryAnswerOfItsShapeIsDrawn :
    Response.fail = .fail ∧ (Response.ok [1#8, 2#8] = .ok [1#8, 2#8] ∧ [1#8, 2#8].length = 2) ∧
    (Response.ok [] = .ok [] ∧ ([] : List Byte).length = 0) := by decide

/-- A reference device whose last register is not 0. -/
def lastRegDevice : Device := { bus := 0#4, addr := 0x40#7, regs := [(255, 1#8)] }

/-- Nothing scripted, a device that is there and one that is not, its registers in canonical form, no holder laid down; a Write
that wraps from register 255 to register 0 and leaves register 1; and transactions to another bus and to another address. -/
theorem witness_ReferenceEnvironmentAnswers :
    ((reference [lastRegDevice]).script = [] ∧ (reference [lastRegDevice]).devs = some [lastRegDevice] ∧
      (reference [lastRegDevice]).held = []) ∧
    [lastRegDevice].find? (fun d => decide (d.bus = 1#4 ∧ d.addr = txAddr (.probe 0x40#7))) = none ∧
    ([lastRegDevice].find? (fun d => decide (d.bus = 0#4 ∧ d.addr = txAddr (.write 0x40#7 [255#8, 2#8, 3#8]))) =
      some lastRegDevice ∧ Memory.wf 256 lastRegDevice.regs = true) ∧
    (∀ k, k < [2#8, 3#8].length → ∀ j, j < [2#8, 3#8].length → k < j →
      ((255#8).toNat + j) % 256 ≠ ((255#8).toNat + k) % 256) ∧
    (∀ k, k < [2#8, 3#8].length → ((255#8).toNat + k) % 256 ≠ (1#8).toNat) ∧
    ((1#4 : BusIx) ≠ 0#4 ∧ txAddr (.probe 0x41#7) ≠ txAddr (.write 0x40#7 [255#8, 2#8, 3#8])) := by decide

/-- A DETECT; each unit without and with init, an operand at the end of its range. -/
theorem witness_DetectDropsTheUnitAndCommandsReselect :
    exec (.pwmDetect 0#8) State.reset = .next (after (.pwmDetect 0#8) State.reset) ∧
    exec (.dispDetect 0#8) State.reset = .next (after (.dispDetect 0#8) State.reset) ∧
    (State.reset.recPwm.init = false ∧ ∃ ch : Byte, ch.toNat ≤ 16 ∧ Instr.pwmSet 16#8 = .pwmSet ch) ∧
    (State.reset.recDisp.init = false ∧ ∃ idx c : Byte, idx.toNat ≤ 3 ∧ Instr.dispCharL 3#8 0#8 = .dispCharL idx c) ∧
    (exec .fanSpeed (pwmWith true (scripted [.fail])) = .next (after .fanSpeed (pwmWith true (scripted [.fail]))) ∧
      (pwmWith true (scripted [.fail])).recPwm.init = true) ∧
    (exec (.dispString true) (dispWith true (scripted [.fail])) =
        .next (after (.dispString true) (dispWith true (scripted [.fail]))) ∧
      (dispWith true (scripted [.fail])).recDisp.init = true ∧ (dispWith true (scripted [.fail])).dlen.toNat ≤ 128) :=
  ⟨exec_after _ _, exec_after _ _, ⟨by decide, 16#8, by decide, rfl⟩, ⟨by decide, 3#8, 0#8, by decide, rfl⟩,
    ⟨exec_after _ _, by decide⟩, exec_after _ _, by decide, by decide⟩

theorem witness_ScanBusesOpensEveryFreeBus :
    (fresh (reference [])).env.devs = some [] ∧ (fresh (reference [])).env.held = [] := by decide

/-- What `scan_devices` leaves; a stop leaves the state. -/
def scanned (s : State) : State :=
  match scanDevices s with
  | .next t => t
  | .fault _ => s
  | .refused _ => s

/-- A PWM chip at 0x40 and a display chip at 0x71 on bus 0, one of each kind on bus 1 besides. -/
def fourChips : List Device :=
  [{ bus := 0#4, addr := 0x40#7, regs := [] }, { bus := 0#4, addr := 0x71#7, regs := [] },
    { bus := 1#4, addr := 0x40#7, regs := [] }, { bus := 1#4, addr := 0x70#7, regs := [] }]

/-- Bus 0 open with both chips there and no unit registered. -/
def scanStart : State := openedWith (reference fourChips)

/-- Only bus 0 is open in it. -/
theorem openBus_scanStart (p : BusIx) : OpenBus scanStart p ↔ p = 0#4 := by
  have h : ∀ q : Fin (2 ^ 4), OpenBus scanStart (BitVec.ofFin q) ↔ BitVec.ofFin q = 0#4 := by decide
  exact h p.toFin

/-- Buses 0 and 1 open, and a PWM chip on bus 1 alone. -/
def scanSecond : State :=
  (openedWith (reference [{ bus := 1#4, addr := 0x40#7, regs := [] }])).setPort 1#4 { opened := true, sel := none }

/-- Both units registered; one registered and not the other; none, with bus 0 the one open bus, the second display candidate the
first that is there; and a chip on the second open bus alone. -/
theorem witness_ScanDevicesKeepsRegisteredUnits :
    (((pwmWith true (scripted [])).setRec .disp { det := true, init := true, bus := 0#4, addr := 0x70#7 }).recPwm.init = true ∧
      ((pwmWith true (scripted [])).setRec .disp { det := true, init := true, bus := 0#4, addr := 0x70#7 }).recDisp.init =
        true) ∧
    (scanDevices (pwmWith true (reference fourChips)) = .next (scanned (pwmWith true (reference fourChips))) ∧
      (pwmWith true (reference fourChips)).recPwm.init = true ∧ (pwmWith true (reference fourChips)).recDisp.init = false) ∧
    (scanStart.env.script = [] ∧ scanStart.env.devs = some fourChips ∧ scanDevices scanStart = .next (scanned scanStart) ∧
      scanStart.recPwm.init = false ∧ scanStart.recDisp.init = false) ∧
    ((∀ q, OpenBus scanStart q ↔ q = 0#4) ∧
      (scanStart.cfg.pwmCandidates = [] ++ 0x40#7 :: [] ∧ DeviceAt fourChips 0#4 0x40#7) ∧
      (scanStart.cfg.dispCandidates = [0x70#7] ++ 0x71#7 :: [0x72#7, 0x73#7, 0x74#7, 0x75#7, 0x76#7, 0x77#7] ∧
        DeviceAt fourChips 0#4 0x71#7 ∧ ∀ c ∈ [0x70#7], ¬ DeviceAt fourChips 0#4 c)) ∧
    (scanSecond.env.script = [] ∧ scanSecond.env.devs = some [{ bus := 1#4, addr := 0x40#7, regs := [] }] ∧
      scanDevices scanSecond = .next (scanned scanSecond) ∧ (scanSecond.unitRec .pwm).init = false ∧ OpenBus scanSecond 1#4 ∧
      candidates scanSecond.cfg .pwm = [] ++ 0x40#7 :: [] ∧ DeviceAt [{ bus := 1#4, addr := 0x40#7, regs := [] }] 1#4 0x40#7 ∧
      ∀ q : BusIx, q.toNat < (1#4).toNat → OpenBus scanSecond q →
        ∀ c ∈ candidates scanSecond.cfg .pwm, ¬ DeviceAt [{ bus := 1#4, addr := 0x40#7, regs := [] }] q c) := by
  refine
  ⟨by decide, ⟨rfl, by decide, by decide⟩, ⟨by decide, by decide, rfl, by decide, by decide⟩,
    ⟨openBus_scanStart, by decide, by decide⟩, by decide, by decide, rfl, by decide, by decide, by decide, by decide, ?_⟩
  rintro q hq _ c _ ⟨d, hd, rfl, _⟩
  rw [List.mem_singleton.1 hd] at hq
  exact absurd hq (by decide)

end Sys2Proof.Tests
end

/-! ## The parameters over a step (00_scope R6) -/

namespace Sys2Proof.Machine

/-! ### What the shared operations leave of the parameters -/

@[simp] theorem endWrites_sendWrites_cfg (p : BusIx) (a : Addr) (msgs : List (List Byte)) (r : Word) (s : State) :
    (endWrites r (sendWrites p a msgs s)).cfg = s.cfg := by
  rw [endWrites_frame]

@[simp] theorem unitWrites_cfg (u : Chip) (msgs : List (List Byte)) (r : Word) (s : State) :
    (unitWrites u msgs r s).cfg = s.cfg := by
  simp [unitWrites]

@[simp] theorem showDigits_cfg (dbuf : Vector Bitmap 4) (msgs : List (List Byte)) (r : Word) (s : State) :
    (showDigits dbuf msgs r s).cfg = s.cfg := by
  simp [showDigits]

@[simp] theorem showChar_cfg (slot : Fin 4) (c : Byte) (s : State) : (showChar slot c s).cfg = s.cfg := by
  simp [showChar]

@[simp] theorem initUnit_cfg (u : Chip) (msgs : List (List Byte)) (s : State) : (initUnit u msgs s).cfg = s.cfg := by
  rcases initUnit_frame u msgs s with ⟨h, _⟩ | ⟨b, e, tr, st, re, _, h⟩
  · rw [h, raise_cfg]
  · simp [h]

@[simp] theorem detectUnit_cfg (u : Chip) (cands : List Addr) (reg b : Byte) (s : State) :
    (detectUnit u cands reg b s).cfg = s.cfg := by
  rcases detectUnit_cases u cands reg b s with ⟨_, h⟩ | ⟨_, tried, _, ⟨a, _, h⟩ | h⟩
  · simp [h]
  · simp [h]
  · cases hl : tried.getLast? <;> simp [h, hl]

@[simp] theorem closeBuses_cfg (n : Nat) (s : State) : (closeBuses n s).cfg = s.cfg := by
  rw [closeBuses_frame]

@[simp] theorem storeReg_cfg (s : State) (r : HostReg) (v : Word) : (storeReg s r v).cfg = s.cfg := by
  cases r <;> rfl

/-! ### Every command, every step -/

/-- No command changes a parameter. -/
theorem exec_cfg {i : Instr} {s t : State} (h : exec i s = .next t) : t.cfg = s.cfg := by
  cases exec_answer h <;> simp

/-- No step changes a parameter. -/
theorem step_cfg {s t : State} (h : step s = .next t) : t.cfg = s.cfg := by
  rcases step_cases h with ⟨_, rfl⟩ | ⟨x, rest, _, ⟨w, i, _, he⟩ | ⟨w, rfl⟩ | ⟨r, v, _, rfl⟩ | ⟨r, rfl⟩ | rfl⟩
  · rfl
  · exact (exec_cfg he).trans rfl
  · rfl
  · exact storeReg_cfg _ r v
  · rfl
  · rfl

/-- Settles O53: whatever `step_cases` says a step did, the parameters stand as before. -/
theorem stepKeepsTheParameters : Obligations.StepKeepsTheParameters :=
  fun _ _ h => step_cfg h

end Sys2Proof.Machine

/-! ## Soundness over a step (10_state R23, R26, R28, R30; 20_memory R56, R57)

`Sound` is taken apart port by port and record by record. Each operation that changes a port, a record, the outcome, DATA or
the trace has one rule that says when it keeps soundness; the commands are then followed operation by operation. -/

namespace Sys2Proof.Machine

/-! ### Soundness, port by port and record by record -/

/-- What soundness asks of port `p` when it holds `v` (R23, R26, R56). -/
structure PortSound (cfg : Params) (p : BusIx) (v : Port) : Prop where
  closed : v.opened = false → v.sel = none
  within : v.opened = true → p.toNat < cfg.nbus.val
  target : ∀ a, v.sel = some a → Addr.inScanRange a = true

/-- What soundness asks of a device record beside the ports of `s` (R28, R56). -/
structure RecSound (s : State) (r : DevRec) : Prop where
  init : r.init = true → r.det = true
  opened : r.det = true → (s.port r.bus).opened = true
  blank : r.det = false → r.bus = 0#4 ∧ r.addr = 0#7 ∧ r.init = false
  address : r.det = true → Addr.inScanRange r.addr = true

section
variable {s : State}

theorem Sound.portSound (h : Sound s) (p : BusIx) : PortSound s.cfg p (s.port p) :=
  ⟨h.ports p, h.within p, h.targets.1 p⟩

theorem Sound.recSound (h : Sound s) : ∀ u, RecSound s (s.unitRec u)
  | .pwm => ⟨h.pwm.1, h.pwm.2.1, h.pwm.2.2, h.targets.2.1⟩
  | .disp => ⟨h.disp.1, h.disp.2.1, h.disp.2.2, h.targets.2.2⟩

theorem Sound.of_parts (hcfg : s.cfg.wf = true) (hport : ∀ p, PortSound s.cfg p (s.port p))
    (hrec : ∀ u, RecSound s (s.unitRec u)) (hout : OutcomeOk s) (hdata : DataOk s) (htrace : TraceOk s) : Sound s where
  cfg := hcfg
  ports p := (hport p).closed
  within p := (hport p).within
  pwm := ⟨(hrec .pwm).init, (hrec .pwm).opened, (hrec .pwm).blank⟩
  disp := ⟨(hrec .disp).init, (hrec .disp).opened, (hrec .disp).blank⟩
  outcome := hout
  data := hdata
  targets := ⟨fun p => (hport p).target, (hrec .pwm).address, (hrec .disp).address⟩
  trace := htrace

end

/-- A closed port with no target, as a close and a reset leave it. -/
theorem PortSound.ofClosed (cfg : Params) (p : BusIx) : PortSound cfg p Port.closed where
  closed _ := rfl
  within h := absurd h (by decide)
  target _ h := absurd h (by simp [Port.closed])

/-! ### Records -/

section
variable {s t : State} {r : DevRec}

/-- A record is judged by the ports alone. -/
theorem RecSound.of_ports (h : RecSound s r) (hp : t.ports = s.ports) : RecSound t r :=
  { h with opened := fun hd => by rw [port_congr hp]; exact h.opened hd }

theorem RecSound.cleared (s : State) : RecSound s DevRec.cleared where
  init h := absurd h (by decide)
  opened h := absurd h (by decide)
  blank _ := by decide
  address h := absurd h (by decide)

/-- A detected record may have `init` set or dropped. -/
theorem RecSound.withInit (h : RecSound s r) (hd : r.det = true) (b : Bool) : RecSound s { r with init := b } where
  init _ := hd
  opened := h.opened
  blank hn := absurd (hd.symm.trans hn) (by decide)
  address := h.address

theorem RecSound.afterClose (h : RecSound s r) (p : BusIx) : RecSound s (recAfterClose p r) := by
  unfold recAfterClose
  split
  · exact .cleared s
  · exact h

/-- After a close no detected record is bound to the closed bus. -/
theorem recAfterClose_bus_ne {p : BusIx} (hd : (recAfterClose p r).det = true) : (recAfterClose p r).bus ≠ p := by
  unfold recAfterClose at hd ⊢
  split at hd
  · exact absurd hd (by decide)
  · next hn =>
    rw [if_neg hn]
    simpa [hd] using hn

end

/-! ### One rule per kind of change -/

section
variable {s : State} (h : Sound s)
include h

/-- The fields that soundness does not speak of may change freely. -/
theorem Sound.withOthers {dbuf : Vector Bitmap 4} {cmd arg0 arg1 arg2 : Word} {dlen : BitVec 8} {env : Env}
    {inputs : List Input} {reads : List Word} :
    Sound { s with
      dbuf := dbuf, cmd := cmd, arg0 := arg0, arg1 := arg1, arg2 := arg2, dlen := dlen, env := env, inputs := inputs,
      reads := reads } :=
  ⟨h.cfg, h.ports, h.within, h.pwm, h.disp, h.outcome, h.data, h.targets, h.trace⟩

/-- DATA may take any canonical contents (R35). -/
theorem Sound.withData {m : List Host.Cell} (hm : Memory.wf Config.dataSize m = true) : Sound { s with data := m } :=
  ⟨h.cfg, h.ports, h.within, h.pwm, h.disp, h.outcome, hm, h.targets, h.trace⟩

/-- The trace may take any events of R57's shape. -/
theorem Sound.withTrace {tr : List Event} (htr : ∀ ev ∈ tr, eventOk ev = true) : Sound { s with trace := tr } :=
  ⟨h.cfg, h.ports, h.within, h.pwm, h.disp, h.outcome, h.data, h.targets, htr⟩

/-- STATUS may take any code, with RESULT 0 beside an error (R30, R31). -/
theorem Sound.withOutcome {st re : Word} (hst : st.toNat ≤ 6) (hre : st ≠ 0#32 → re = 0#32) :
    Sound { s with status := st, result := re } :=
  ⟨h.cfg, h.ports, h.within, h.pwm, h.disp, ⟨hst, hre⟩, h.data, h.targets, h.trace⟩

/-- A record may take any contents that suit the ports (R28, R56). -/
theorem Sound.setRec (u : Chip) {r : DevRec} (hr : RecSound s r) : Sound (s.setRec u r) := by
  refine .of_parts (by simpa using h.cfg) (fun p => by simpa using h.portSound p) (fun v => ?_)
    (by simpa [OutcomeOk] using h.outcome) (by simpa [DataOk] using h.data) (by simpa [TraceOk] using h.trace)
  refine RecSound.of_ports (s := s) ?_ (setRec_ports s u r)
  cases u <;> cases v
  case pwm.pwm | disp.disp => exact hr
  case pwm.disp => exact h.recSound .disp
  case disp.pwm => exact h.recSound .pwm

/-- A port may take a sound value that keeps it open where a detected record is bound to it. -/
theorem Sound.setPort {p : BusIx} {v : Port} (hv : PortSound s.cfg p v)
    (hbound : ∀ u, (s.unitRec u).det = true → (s.unitRec u).bus = p → v.opened = true) : Sound (s.setPort p v) := by
  refine .of_parts h.cfg (fun q => ?_) (fun u => ?_) h.outcome h.data h.trace
  · rw [port_setPort]
    split
    · next hq => exact hq ▸ hv
    · exact h.portSound q
  · have hr := h.recSound u
    have hu : (s.setPort p v).unitRec u = s.unitRec u := by cases u <;> rfl
    rw [hu]
    refine { hr with opened := fun hd => ?_ }
    rw [port_setPort]
    split
    · next hp => exact hbound u hd hp.symm
    · exact hr.opened hd

end

/-! ### The shared operations -/

section
variable {s : State} (h : Sound s)
include h

theorem Sound.finish (r : Word) : Sound (finish r s) := h.withOutcome (by decide) (fun hne => absurd rfl hne)

theorem Sound.raise (e : Error) : Sound (raise e s) := h.withOutcome (by cases e <;> decide) (fun _ => rfl)

/-- Transactions the block may send leave a sound trace, whatever the environment answers. -/
theorem Sound.trace_append_events (p : BusIx) {ts : List Tx} (hts : ∀ t ∈ ts, txOk t = true) :
    ∀ ev ∈ s.trace ++ s.env.events p ts, eventOk ev = true := by
  intro ev hev
  rcases List.mem_append.mp hev with hev | hev
  · exact h.trace ev hev
  · exact events_ok _ p ts hts ev hev

theorem Sound.i2cState (p : BusIx) {t : Tx} (ht : txOk t = true) : Sound (i2cState p t s) :=
  (h.withTrace (h.trace_append_events p (ts := [t]) (by simpa using ht))).withOthers

/-- An event of R57's shape may be appended; Acquire and Release are two. -/
theorem Sound.emit {ev : Event} (hev : eventOk ev = true) : Sound (emit ev s) := by
  refine h.withTrace fun e he => ?_
  rcases List.mem_append.mp he with he | he
  · exact h.trace e he
  · rw [List.mem_singleton.mp he]; exact hev

theorem Sound.setSel {p : BusIx} {a : Addr} (ho : (s.port p).opened = true) (ha : Addr.inScanRange a = true) :
    Sound (s.setSel p (some a)) := by
  refine h.setPort ⟨fun hc => ?_, fun _ => h.within p ho, fun b hb => ?_⟩ (fun _ _ _ => ho)
  · exact absurd (ho.symm.trans hc) (by decide)
  · cases hb; exact ha

/-- The device of a detected unit may be selected: its bus is open and its address is in range. -/
theorem Sound.select {u : Chip} (hd : (s.unitRec u).det = true) : Sound (select u s) :=
  h.setSel ((h.recSound u).opened hd) ((h.recSound u).address hd)

/-- Closing a bus clears the records bound to it first, so that no detected record is left on a closed port. -/
theorem Sound.closeBus (p : BusIx) : Sound (closeBus p s) := by
  cases ho : (s.port p).opened with
  | false => rw [closeBus_closed ho]; exact h
  | true =>
    have hpwm := h.setRec .pwm ((h.recSound .pwm).afterClose p)
    have hrecs := hpwm.setRec .disp ((hpwm.recSound .disp).afterClose p)
    rw [closeBus_opened ho]
    refine (hrecs.setPort (.ofClosed _ p) fun u hd hb => ?_).emit (ev := .release p) rfl
    cases u with
    | pwm => exact absurd hb (recAfterClose_bus_ne hd)
    | disp => exact absurd hb (recAfterClose_bus_ne hd)

theorem Sound.closeBuses (n : Nat) : Sound (closeBuses n s) := by
  induction n with
  | zero => exact h
  | succ n ih => exact ih.closeBus _

theorem Sound.sendWrites (p : BusIx) {a : Addr} {msgs : List (List Byte)} (ha : Addr.inScanRange a = true)
    (hm : ∀ m ∈ msgs, m ≠ []) : Sound (sendWrites p a msgs s).2 := by
  obtain ⟨sent, hpre, hst, _⟩ := sendWrites_spec p a msgs s
  rw [hst]
  refine (h.withTrace (h.trace_append_events p fun t ht => ?_)).withOthers
  obtain ⟨m, hms, rfl⟩ := List.mem_map.mp ht
  simp [txOk, ha, hm m (hpre.subset hms)]

theorem Sound.endWrites (p : BusIx) {a : Addr} {msgs : List (List Byte)} (r : Word) (ha : Addr.inScanRange a = true)
    (hm : ∀ m ∈ msgs, m ≠ []) : Sound (endWrites r (Machine.sendWrites p a msgs s)) := by
  have hw := h.sendWrites p ha hm
  unfold Machine.endWrites
  split
  · exact hw.finish r
  · exact hw.raise _

/-! ### The units -/

theorem Sound.unitWrites {u : Chip} {msgs : List (List Byte)} (r : Word) (hi : (s.unitRec u).init = true)
    (hm : ∀ m ∈ msgs, m ≠ []) : Sound (unitWrites u msgs r s) :=
  have hd := (h.recSound u).init hi
  (h.select hd).endWrites _ r ((h.recSound u).address hd) hm

theorem Sound.showDigits (dbuf : Vector Bitmap 4) {msgs : List (List Byte)} (r : Word) (hi : s.recDisp.init = true)
    (hm : ∀ m ∈ msgs, m ≠ []) : Sound (showDigits dbuf msgs r s) :=
  (h.withOthers (dbuf := dbuf)).unitWrites (u := .disp) r hi hm

theorem Sound.showChar (slot : Fin 4) (c : Byte) (hi : s.recDisp.init = true) : Sound (showChar slot c s) :=
  h.showDigits _ _ hi (by simp [digitMsg])

/-- INIT drops `init` of a detected record, and sets it again where every write went well. -/
theorem Sound.initUnit (u : Chip) {msgs : List (List Byte)} (hm : ∀ m ∈ msgs, m ≠ []) : Sound (initUnit u msgs s) := by
  unfold Machine.initUnit
  split
  · next hd =>
    have hr := h.recSound u
    have hdrop := h.setRec u (hr.withInit hd false)
    have hw := (hdrop.select (u := u) (by simpa using hd)).sendWrites (s.unitRec u).bus (hr.address hd) hm
    simp only
    split
    · refine (hw.setRec u ((hw.recSound u).withInit ?_ true)).finish _
      rw [sendWrites_frame]
      cases u <;> exact hd
    · exact hw.raise _
  · exact h.raise _

/-- DETECT records a candidate only on an open bus, and every candidate it reads is in range. -/
theorem Sound.detectUnit (u : Chip) {cands : List Addr} (reg b : Byte) (hc : ∀ a ∈ cands, Addr.inScanRange a = true) :
    Sound (detectUnit u cands reg b s) := by
  have hclear : Sound (clearRec u s) := h.setRec u (.cleared s)
  rcases detectUnit_cases u cands reg b s with ⟨_, he⟩ | ⟨⟨_, ho⟩, tried, hpre, hcase⟩
  · rw [he]; exact hclear.raise _
  · have hlast : ∀ a, tried.getLast? = some a → Addr.inScanRange a = true :=
      fun a ha => hc a (hpre.subset (List.mem_of_getLast? ha))
    have htr : ∀ ev ∈ s.trace ++ s.env.events (portOf b) (probeReads reg tried), eventOk ev = true := by
      refine h.trace_append_events _ fun t ht => ?_
      obtain ⟨a, ha, rfl⟩ := List.mem_map.mp ht
      simp [txOk, hc a (hpre.subset ha)]
    rcases hcase with ⟨a, ha, he⟩ | he
    · rw [he]
      have hrec : RecSound s { det := true, init := false, bus := portOf b, addr := a } :=
        ⟨fun _ => rfl, fun _ => ho, fun hn => absurd hn (by simp), fun _ => hlast a ha⟩
      exact (((h.setRec u hrec).setSel (by simpa using ho) (hlast a ha)).withTrace htr).withOthers.finish _
    · rw [he]
      refine (Sound.withTrace ?_ htr).withOthers.raise _
      cases ha : tried.getLast? with
      | none => exact hclear
      | some a => exact hclear.setSel (by simpa using ho) (hlast a ha)

end

/-! ### Every command -/

/-! Every message a unit sends has at least its register or command byte (R57). -/

theorem chanMsgs_ne_nil (cfg : Params) (ch : Nat) (on off : Ticks) : ∀ m ∈ chanMsgs cfg ch on off, m ≠ [] := by
  simp [chanMsgs]

theorem allMsgs_ne_nil (cfg : Params) (on off : Ticks) : ∀ m ∈ allMsgs cfg on off, m ≠ [] := by
  simp [allMsgs]

theorem pwmSetMsgs_ne_nil (cfg : Params) (ch : Byte) (on off : Ticks) : ∀ m ∈ pwmSetMsgs cfg ch on off, m ≠ [] := by
  unfold pwmSetMsgs
  split
  · exact allMsgs_ne_nil cfg on off
  · exact chanMsgs_ne_nil cfg ch.toNat on off

theorem ledMsgs_ne_nil (cfg : Params) (r g b : Ticks) : ∀ m ∈ ledMsgs cfg r g b, m ≠ [] := by
  intro m hm
  simp only [ledMsgs, List.mem_append] at hm
  rcases hm with (hm | hm) | hm
  all_goals exact chanMsgs_ne_nil _ _ _ _ m hm

theorem digitMsgs_ne_nil (cfg : Params) (dbuf : Vector Bitmap 4) : ∀ m ∈ digitMsgs cfg dbuf, m ≠ [] := by
  simp [digitMsgs, digitMsg]

/-- The 7-bit address that a byte in 0x03..0x77 holds is in range (R104). -/
theorem inScanRange_setWidth {a : Byte} (hlo : 0x03 ≤ a.toNat) (hhi : a.toNat ≤ 0x77) :
    Addr.inScanRange (a.setWidth 7) = true := by
  simp only [Addr.inScanRange, Config.scanLo, Config.scanHi, BitVec.toNat_setWidth, Bool.and_eq_true, decide_eq_true_eq]
  omega

/-- Well-formed parameters have a keypad row (R6). -/
theorem keyRows_pos {cfg : Params} (h : cfg.wf = true) : 0 < cfg.keyRows := by
  simp only [Params.wf, Params.keyRowsOk, Bool.and_eq_true, decide_eq_true_eq] at h
  omega

section
variable {s : State} (h : Sound s)
include h

/-- The target of a ready bus is in range. -/
theorem Sound.readyAt_inScanRange {b : Byte} {a : Addr} (hr : ReadyAt s b a) : Addr.inScanRange a = true :=
  h.targets.1 _ a hr.2

/-- The read of the keypad leaves a sound state. -/
theorem Sound.readsKeypad (hi : s.recDisp.init = true) :
    Sound (Machine.i2cState s.recDisp.bus (.writeRead s.recDisp.addr s.cfg.keyBase (2 * s.cfg.keyRows))
      (Machine.select .disp s)) := by
  have hd : s.recDisp.det = true := (h.recSound .disp).init hi
  have ha : Addr.inScanRange s.recDisp.addr = true := (h.recSound .disp).address hd
  exact (h.select (u := .disp) hd).i2cState _ (by simp [txOk, ha, keyRows_pos h.cfg])

/-- Every command keeps soundness. -/
theorem Sound.exec {i : Instr} {t : State} (he : exec i s = .next t) : Sound t := by
  cases exec_answer he
  case raised => exact h.raise _
  case held => exact h.withOthers.raise _
  case opens b hv hc =>
    have hopen : PortSound s.cfg (portOf b) { opened := true, sel := none } :=
      ⟨fun hn => absurd hn (by decide), fun _ => by rwa [portOf_toNat hv], fun _ hn => absurd hn (by simp)⟩
    have hasked : Sound { s with env := s.env.heldAnswered } := h.withOthers
    exact ((hasked.setPort hopen fun _ _ _ => rfl).emit (ev := .acquire _) rfl).finish _
  case closesNothing => exact h.finish _
  case closes ho => rw [← closeBus_opened ho.2]; exact (h.closeBus _).finish _
  case selects ho hlo hhi => exact (h.setSel ho.2 (inScanRange_setWidth hlo hhi)).finish _
  case writesByte r v a hr => exact h.endWrites _ (msgs := [[r, v]]) _ (h.readyAt_inScanRange hr) (by simp)
  case writesBlock r n a hn hr =>
    exact h.endWrites _ (msgs := [[r] ++ Memory.readBytes s.data 0 n.toNat]) _ (h.readyAt_inScanRange hr) (by simp)
  case readsByte hr _ => exact (h.i2cState _ (by simp [txOk, h.readyAt_inScanRange hr])).finish _
  case failsByte hr _ => exact (h.i2cState _ (by simp [txOk, h.readyAt_inScanRange hr])).raise _
  case readsBlock b r n a d h0 hn hr hd hl =>
    have ht := h.i2cState (portOf b) (t := .writeRead a r n.toNat) (by simp [txOk, h.readyAt_inScanRange hr, h0])
    have hm := wf_writeBytes d (a := 0) h.data (by simp [hl, Config.dataSize]; omega)
    exact (ht.withData hm).withOthers.finish _
  case failsBlock h0 _ hr _ => exact (h.i2cState _ (by simp [txOk, h.readyAt_inScanRange hr, h0])).raise _
  case scans b first last ho =>
    have htr := h.trace_append_events (portOf b) (ts := (scanAddrs first last).map .probe) (by
      simpa [txOk] using fun a => scanAddrs_inRange)
    have hlen := (found_length s.env (portOf b) (scanAddrs first last)).trans (scanAddrs_length first last)
    have hm := wf_writeBytes ((s.env.found (portOf b) (scanAddrs first last)).map (fun a => a.setWidth 8)) (a := 0) h.data
      (by simp [Config.dataSize]; omega)
    exact ((h.withTrace htr).withData hm).withOthers.finish _
  case closesAll =>
    have hc := h.closeBuses s.cfg.nbus.val
    have hpwm := hc.setRec .pwm (.cleared _)
    exact (hpwm.setRec .disp (.cleared _)).withOthers.finish _
  case pwmDetects => exact h.detectUnit _ _ _ (pwmCandidates_inScanRange h.cfg)
  case dispDetects => exact h.detectUnit _ _ _ (dispCandidates_inScanRange h.cfg)
  case pwmInits => exact h.initUnit _ (by simp [pwmInitMsgs])
  case dispInits => exact h.initUnit _ (by simp [dispInitMsgs])
  case setsChannel hi => exact h.unitWrites _ hi (pwmSetMsgs_ne_nil _ _ _ _)
  case setsAll hi => exact h.unitWrites _ hi (allMsgs_ne_nil _ _ _)
  case setsFan hi => exact h.unitWrites _ hi (chanMsgs_ne_nil _ _ _ _)
  case setsLed hi => exact h.unitWrites _ hi (ledMsgs_ne_nil _ _ _ _)
  case clears hi => exact h.showDigits _ _ hi (digitMsgs_ne_nil _ _)
  case showsLeft hi | showsRight hi => exact h.showChar _ _ hi
  case showsText hi => exact h.showDigits _ _ hi (digitMsgs_ne_nil _ _)
  case readsKey hi _ => exact (h.readsKeypad hi).finish _
  case failsKey hi _ => exact (h.readsKeypad hi).raise _

/-! ### Every step -/

theorem Sound.storeReg (r : HostReg) (v : Word) : Sound (storeReg s r v) := by
  cases r
  case data k => exact h.withData (wf_writeDataWord h.data k.isLt)
  case cmd | arg0 | arg1 | arg2 | dlen => exact h.withOthers
  all_goals exact h

/-- Reset closes every port and clears the records, and keeps the parameters and the trace. -/
theorem Sound.platformReset : Sound (platformReset s) := by
  refine .of_parts h.cfg (fun p => ?_) (fun u => ?_) ⟨Nat.zero_le 6, fun _ => rfl⟩ rfl h.trace
  · have hp : (Machine.platformReset s).port p = Port.closed := by simp [State.port, Machine.platformReset, State.reset]
    rw [hp]
    exact .ofClosed _ p
  · cases u <;> exact .cleared _

/-- Every step keeps soundness. -/
theorem Sound.step {t : State} (hs : step s = .next t) : Sound t := by
  rcases step_cases hs with ⟨_, rfl⟩ | ⟨x, rest, _, ⟨w, i, _, he⟩ | ⟨w, rfl⟩ | ⟨r, v, _, rfl⟩ | ⟨r, rfl⟩ | rfl⟩
  · exact h
  · exact h.withOthers.exec he
  · exact h.withOthers.raise _
  · exact h.withOthers.storeReg r v
  · exact h.withOthers
  · exact h.withOthers.platformReset

end

/-- Settles O51: a step takes one input, and each operation a command is made of keeps soundness. -/
theorem stepKeepsSoundness : Obligations.StepKeepsSoundness :=
  fun _ _ h hs => h.step hs

end Sys2Proof.Machine

/-! ## The read-only views (10_state R36) -/

namespace Sys2Proof.Machine

/-! ### What each view shows, field by field -/

theorem busOpenView_getLsbD {s : State} {b : Nat} (hb : b < 16) :
    (busOpenView s).getLsbD b = (decide (b < s.cfg.nbus.val) && (s.port (BitVec.ofNat 4 b)).opened) := by
  have hport : s.port (BitVec.ofNat 4 b) = s.ports[b] := by simp [State.port, Nat.mod_eq_of_lt hb]
  rw [busOpenView, BitVec.getLsbD_setWidth, BitVec.getLsbD_ofFnLE, dif_pos hb, hport,
    decide_eq_true (show b < 32 by omega), Bool.true_and]
  rfl

theorem busOpenView_getLsbD_high {s : State} {b : Nat} (hb : 16 ≤ b) : (busOpenView s).getLsbD b = false := by
  rw [busOpenView, BitVec.getLsbD_setWidth, BitVec.getLsbD_of_ge _ _ hb, Bool.and_false]

theorem selView_of_ge {s : State} {b : BusIx} (hb : ¬ b.toNat < s.cfg.nbus.val) : selView s b = 0#32 :=
  if_neg hb

theorem selView_none {s : State} {b : BusIx} (h : (s.port b).sel = none) : selView s b = 0#32 := by
  unfold selView
  rw [h, ite_self]

theorem selView_some {s : State} {b : BusIx} {a : Addr} (hb : b.toNat < s.cfg.nbus.val) (h : (s.port b).sel = some a) :
    (selView s b).toNat = 0x80 + a.toNat := by
  have hword : selView s b = 0#24 ++ (1#1 ++ a) := by
    unfold selView
    rw [if_pos hb, h]
  rw [hword, BitVec.toNat_append, BitVec.toNat_append, ← Nat.shiftLeft_add_eq_or_of_lt a.isLt]
  simp [Nat.shiftLeft_eq]

section
variable (r : DevRec)

theorem recView_det : (recView r).getLsbD 0 = r.det := by
  simp only [recView, BitVec.getLsbD_append]
  simp

theorem recView_init : (recView r).getLsbD 1 = r.init := by
  simp only [recView, BitVec.getLsbD_append]
  simp

theorem recView_reserved : (recView r).extractLsb' 2 2 = 0#2 := by
  simp (disch := decide) only [recView, BitVec.extractLsb'_append_eq_of_add_le, BitVec.extractLsb'_append_eq_of_le]
  exact BitVec.extractLsb'_eq_self

theorem recView_bus : (recView r).extractLsb' 4 4 = r.bus := by
  simp (disch := decide) only [recView, BitVec.extractLsb'_append_eq_of_add_le, BitVec.extractLsb'_append_eq_of_le]
  exact BitVec.extractLsb'_eq_self

theorem recView_addr : (recView r).extractLsb' 8 7 = r.addr := by
  simp (disch := decide) only [recView, BitVec.extractLsb'_append_eq_of_add_le, BitVec.extractLsb'_append_eq_of_le]
  exact BitVec.extractLsb'_eq_self

theorem recView_high : (recView r).extractLsb' 15 17 = 0#17 := by
  simp (disch := decide) only [recView, BitVec.extractLsb'_append_eq_of_le]
  exact BitVec.extractLsb'_eq_self

end

theorem dbufView_low (low high : Bitmap) : (dbufView low high).extractLsb' 0 16 = low := by
  rw [dbufView, BitVec.extractLsb'_append_eq_of_add_le (by decide), BitVec.extractLsb'_eq_self]

theorem dbufView_high (low high : Bitmap) : (dbufView low high).extractLsb' 16 16 = high := by
  rw [dbufView, BitVec.extractLsb'_append_eq_of_le (by decide)]
  exact BitVec.extractLsb'_eq_self

/-! ### Host accesses to a view -/

/-- An aligned host write to a register is not refused (R52). -/
theorem takeInput_regWrite (r : HostReg) (v : Word) (s : State) : takeInput (regWrite r v) s = hostWrite r v s := by
  simp only [takeInput, regWrite, hostAccess_regOffset]

/-- An aligned host read of a register answers its value (R52, R55). -/
theorem takeInput_regRead (r : HostReg) (s : State) :
    takeInput (regRead r) s = .next { s with reads := s.reads ++ [readReg s r] } := by
  simp only [takeInput, regRead, hostAccess_regOffset, hostRead]

/-- A host write to a view changes nothing (R36, R55). -/
theorem hostWrite_view {r : HostReg} (hr : r ∈ [HostReg.busOpen, .pwmRec, .dispRec, .dbuf01, .dbuf23] ∨ ∃ b, r = .sel b)
    (v : Word) (s : State) : hostWrite r v s = .next s := by
  rcases hr with hr | ⟨b, rfl⟩
  · simp only [List.mem_cons, List.not_mem_nil, or_false] at hr
    rcases hr with rfl | rfl | rfl | rfl | rfl <;> rfl
  · rfl

/-- Settles O11: each view's fields by the lemmas above, and the two host accesses. -/
theorem readOnlyViewsShowTheState : Obligations.ReadOnlyViewsShowTheState := by
  intro s
  refine ⟨fun _ => busOpenView_getLsbD, fun _ => busOpenView_getLsbD_high, fun _ => selView_of_ge,
    fun _ _ => selView_none, fun _ _ => selView_some, fun r d hr => ?_, ⟨dbufView_low _ _, dbufView_high _ _⟩,
    ⟨dbufView_low _ _, dbufView_high _ _⟩, fun r v hr => ⟨?_, takeInput_regRead r s⟩⟩
  · have hview : readReg s r = recView d := by rcases hr with ⟨rfl, rfl⟩ | ⟨rfl, rfl⟩ <;> rfl
    rw [hview]
    exact ⟨recView_det d, recView_init d, recView_reserved d, recView_bus d, recView_addr d, recView_high d⟩
  · rw [takeInput_regWrite, hostWrite_view hr]

end Sys2Proof.Machine

/-! ## Reset (10_state R40) -/

namespace Sys2Proof.Machine

theorem platformReset_port (s : State) (p : BusIx) : (platformReset s).port p = Port.closed := by
  simp [State.port, platformReset, State.reset]

theorem platformReset_unitRec (s : State) (u : Chip) : (platformReset s).unitRec u = DevRec.cleared := by
  cases u <;> rfl

/-- Settles O12: the step is `platformReset`, whose every field is R40's. -/
theorem resetLeavesTheSpecValues : Obligations.ResetLeavesTheSpecValues := by
  intro s rest hin
  refine ⟨platformReset { s with inputs := rest }, by simp only [step, hin]; rfl, fun p => ?_, fun u => ?_, fun i => ?_,
    rfl, rfl, rfl, rfl, rfl, rfl, rfl, fun _ => rfl, rfl, rfl⟩
  · rw [platformReset_port]; exact ⟨rfl, rfl⟩
  · rw [platformReset_unitRec]; exact ⟨rfl, rfl, rfl, rfl⟩
  · simp [platformReset, State.reset]

theorem reset_port (p : BusIx) : State.reset.port p = Port.closed := platformReset_port State.reset p

/-- Settles O52: the default parameters are well-formed, and nothing is open, detected, stored or traced. -/
theorem resetStateIsSound : Obligations.ResetStateIsSound := by
  refine .of_parts (by decide) (fun p => ?_) (fun u => ?_) ⟨Nat.zero_le 6, fun _ => rfl⟩ rfl (fun ev hev => ?_)
  · rw [reset_port]; exact .ofClosed _ p
  · cases u <;> exact .cleared _
  · exact absurd hev List.not_mem_nil

end Sys2Proof.Machine

/-! ## Registers and buffers over a command (10_state R29, R32 to R35) -/

namespace Sys2Proof.Machine

/-- The fields that no selection, transaction, record change or outcome touches. -/
structure Kept where
  cmd : Word
  arg0 : Word
  arg1 : Word
  arg2 : Word
  dlen : BitVec 8
  data : List Host.Cell
  dbuf : Vector Bitmap 4
  cfg : Params
  inputs : List Input
  reads : List Word

def State.kept (s : State) : Kept where
  cmd := s.cmd
  arg0 := s.arg0
  arg1 := s.arg1
  arg2 := s.arg2
  dlen := s.dlen
  data := s.data
  dbuf := s.dbuf
  cfg := s.cfg
  inputs := s.inputs
  reads := s.reads

theorem endWrites_sendWrites_kept (p : BusIx) (a : Addr) (msgs : List (List Byte)) (r : Word) (s : State) :
    (endWrites r (sendWrites p a msgs s)).kept = s.kept := by
  rw [endWrites_frame]; rfl

theorem unitWrites_kept (u : Chip) (msgs : List (List Byte)) (r : Word) (s : State) :
    (unitWrites u msgs r s).kept = s.kept :=
  endWrites_sendWrites_kept _ _ _ _ (select u s)

theorem showDigits_kept (dbuf : Vector Bitmap 4) (msgs : List (List Byte)) (r : Word) (s : State) :
    (showDigits dbuf msgs r s).kept = { s.kept with dbuf := dbuf } :=
  unitWrites_kept _ _ _ { s with dbuf := dbuf }

theorem setRec_kept (s : State) (u : Chip) (r : DevRec) : (s.setRec u r).kept = s.kept := by
  cases u <;> rfl

theorem initUnit_kept (u : Chip) (msgs : List (List Byte)) (s : State) : (initUnit u msgs s).kept = s.kept := by
  rcases initUnit_frame u msgs s with ⟨h, _⟩ | ⟨b, e, tr, st, re, _, h⟩
  · rw [h]; rfl
  · rw [h]; exact setRec_kept _ u _

theorem detectUnit_kept (u : Chip) (cands : List Addr) (reg b : Byte) (s : State) :
    (detectUnit u cands reg b s).kept = s.kept := by
  rcases detectUnit_cases u cands reg b s with ⟨_, h⟩ | ⟨_, tried, _, ⟨a, _, h⟩ | h⟩
  · rw [h]; exact setRec_kept s u _
  · rw [h]; exact setRec_kept s u _
  · rw [h]
    cases tried.getLast? with
    | none => exact setRec_kept s u _
    | some a => exact setRec_kept s u _

/-- What a command can do to the registers and buffers: nothing, a rewrite of DATA and DLEN that ends in success, or a
rewrite of the display buffer. -/
theorem exec_kept {i : Instr} {s t : State} (h : exec i s = .next t) :
    t.kept = s.kept ∨
    (((∃ b r n, i = .readBlock b r n) ∨ ∃ b first last, i = .scan b first last) ∧ t.status = 0#32 ∧
      ∃ vs : List Byte, vs.length ≤ Config.dataSize ∧
        t.kept = { s.kept with data := Memory.writeBytes s.data 0 vs, dlen := BitVec.ofNat 8 vs.length }) ∨
    ((i = .mgrClose ∨ i = .dispClear ∨ (∃ idx c, i = .dispCharL idx c) ∨ (∃ idx c, i = .dispCharR idx c) ∨
      ∃ right, i = .dispString right) ∧ ∃ dbuf, t.kept = { s.kept with dbuf := dbuf }) := by
  cases exec_answer h
  case readsBlock b r n a d h0 hn hr hd hl =>
    have hn' : n = BitVec.ofNat 8 d.length := by rw [hl, BitVec.ofNat_toNat, BitVec.setWidth_eq]
    refine .inr (.inl ⟨.inl ⟨b, r, n, rfl⟩, rfl, d, by rw [hl, Config.dataSize]; omega, ?_⟩)
    rw [← hn']; rfl
  case scans b first last ho =>
    have hlen := (found_length s.env (portOf b) (scanAddrs first last)).trans (scanAddrs_length first last)
    refine .inr (.inl ⟨.inr ⟨b, first, last, rfl⟩, rfl,
      (s.env.found (portOf b) (scanAddrs first last)).map (fun a => a.setWidth 8), ?_, ?_⟩)
    · rw [List.length_map, Config.dataSize]; omega
    · rw [List.length_map]; rfl
  case closesAll => exact .inr (.inr ⟨.inl rfl, blankDigits, by rw [closeBuses_frame]; rfl⟩)
  case clears | showsLeft | showsRight | showsText => exact .inr (.inr ⟨by simp, _, showDigits_kept _ _ _ s⟩)
  case writesByte | writesBlock => exact .inl (endWrites_sendWrites_kept _ _ _ _ s)
  case pwmDetects | dispDetects => exact .inl (detectUnit_kept _ _ _ _ s)
  case pwmInits | dispInits => exact .inl (initUnit_kept _ _ s)
  case setsChannel | setsAll | setsFan | setsLed => exact .inl (unitWrites_kept _ _ _ s)
  all_goals exact .inl rfl

/-- Settles O41: whichever of the three things `exec_kept` names a command does, these seven fields stand. -/
theorem commandsLeaveTheOperandRegisters : Obligations.CommandsLeaveTheOperandRegisters := by
  intro i s t h
  rcases exec_kept h with hk | ⟨_, _, _, _, hk⟩ | ⟨_, _, hk⟩
  all_goals
    injection hk with hcmd harg0 harg1 harg2 _ _ _ hcfg hinputs hreads
    exact ⟨harg0, harg1, harg2, hcmd, hcfg, hinputs, hreads⟩

/-- DATA and DLEN over a command: untouched, or rewritten from DATA[0] up to the new DLEN by READ_BLOCK or SCAN in success. -/
theorem exec_data {i : Instr} {s t : State} (h : exec i s = .next t) :
    (t.dlen = s.dlen ∧ t.data = s.data) ∨
    (((∃ b r n, i = .readBlock b r n) ∨ ∃ b first last, i = .scan b first last) ∧ t.status = 0#32 ∧
      ∃ vs : List Byte, vs.length ≤ Config.dataSize ∧ t.dlen.toNat = vs.length ∧ t.data = Memory.writeBytes s.data 0 vs) := by
  rcases exec_kept h with hk | ⟨hi, hst, vs, hvs, hk⟩ | ⟨_, _, hk⟩
  · exact .inl ⟨congrArg Kept.dlen hk, congrArg Kept.data hk⟩
  · have hd : t.dlen = BitVec.ofNat 8 vs.length := congrArg Kept.dlen hk
    refine .inr ⟨hi, hst, vs, hvs, ?_, congrArg Kept.data hk⟩
    rw [hd, BitVec.toNat_ofNat]
    exact Nat.mod_eq_of_lt (hvs.trans_lt (by decide))
  · exact .inl ⟨congrArg Kept.dlen hk, congrArg Kept.data hk⟩

/-- Settles O42: a command that touches DATA writes it from 0 up to the new DLEN and succeeds. -/
theorem onlyReadBlockAndScanWriteData : Obligations.OnlyReadBlockAndScanWriteData := by
  intro i s t h
  rcases exec_data h with ⟨hl, hd⟩ | ⟨hi, hst, vs, _, hl, hd⟩
  · have same : t.dlen = s.dlen ∧ ∀ a, Memory.read t.data a = Memory.read s.data a := ⟨hl, fun a => by rw [hd]⟩
    exact ⟨fun _ _ => same, fun _ a _ _ => same.2 a, fun _ => same⟩
  · refine ⟨fun hr hs => ?_, fun _ a ha _ => ?_, fun hne => absurd hst hne⟩
    · rcases hi with ⟨b, r, n, he⟩ | ⟨b, first, last, he⟩
      · exact absurd he (hr b r n)
      · exact absurd he (hs b first last)
    · rw [hd]
      exact read_writeBytes_out vs s.data (.inr (by omega))

/-- Settles O48: what a command or a host write puts into DATA lies within its 128 bytes, and reset empties it. -/
theorem stepKeepsDataCanonical : Obligations.StepKeepsDataCanonical := by
  intro s t h hs
  rcases step_cases hs with ⟨_, rfl⟩ | ⟨x, rest, _, ⟨w, i, _, he⟩ | ⟨w, rfl⟩ | ⟨r, v, _, rfl⟩ | ⟨r, rfl⟩ | rfl⟩
  · exact h
  · rcases exec_data he with ⟨_, hd⟩ | ⟨_, _, vs, hvs, _, hd⟩
    · rw [DataOk, hd]; exact h
    · rw [DataOk, hd]; exact wf_writeBytes vs h (by omega)
  · exact h
  · cases r with
    | data k => exact wf_writeDataWord h k.isLt
    | _ => exact h
  · exact h
  · rfl

/-- Settles O43: of what `exec_kept` names only the rewrite of the display buffer touches it. -/
theorem onlyDisplayWritesChangeTheBuffer : Obligations.OnlyDisplayWritesChangeTheBuffer := by
  intro i s t h hclear hmgr hleft hright htext
  rcases exec_kept h with hk | ⟨_, _, _, _, hk⟩ | ⟨hi, _⟩
  · exact congrArg Kept.dbuf hk
  · exact congrArg Kept.dbuf hk
  · rcases hi with hi | hi | ⟨idx, c, hi⟩ | ⟨idx, c, hi⟩ | ⟨right, hi⟩
    · exact absurd hi hmgr
    · exact absurd hi hclear
    · exact absurd hi (hleft idx c)
    · exact absurd hi (hright idx c)
    · exact absurd hi (htext right)

end Sys2Proof.Machine

/-! ## Ports and device records over a command (10_state R23, R24, R26 to R28)

`PortAfter` and `RecAfter` say once what each command can leave in a port and in a device record; the statements about
single commands and the invariants R26 and R28 are read off them. -/

namespace Sys2Proof.Machine

/-- The unit's DETECT (R145, R173). -/
def Chip.detectCmd : Chip → Byte → Instr
  | .pwm, b => .pwmDetect b
  | .disp, b => .dispDetect b

/-- The unit's INIT (R146, R174). -/
def Chip.initCmd : Chip → Instr
  | .pwm => .pwmInit
  | .disp => .dispInit

/-- The unit's commands that select its device on the bus of its record (R101). -/
def Chip.Drives : Chip → Instr → Prop
  | .pwm, i => i = .pwmInit ∨ (∃ ch, i = .pwmSet ch) ∨ i = .pwmSetAll ∨ i = .fanSpeed ∨ i = .ledColor
  | .disp, i => i = .dispInit ∨ i = .dispClear ∨ (∃ idx c, i = .dispCharL idx c) ∨ (∃ idx c, i = .dispCharR idx c) ∨
      (∃ right, i = .dispString right) ∨ i = .readKey

/-- What port `p` of `s` can hold after command `i`. -/
inductive PortAfter (s : State) (p : BusIx) : Instr → Port → Prop where
  | untouched {i : Instr} : PortAfter s p i (s.port p)
  | mgrClosed : PortAfter s p .mgrClose Port.closed
  | opened {b : Byte} (hb : b.toNat = p.toNat) : PortAfter s p (.busOpen b) { opened := true, sel := none }
  | closed {b : Byte} (hb : b.toNat = p.toNat) (ho : Opened s b) : PortAfter s p (.busClose b) Port.closed
  | named {i : Instr} {b : Byte} {a : Addr} (hb : b.toNat = p.toNat)
      (hi : (∃ a, i = .setAddr b a) ∨ i = .pwmDetect b ∨ i = .dispDetect b) (ho : (s.port p).opened = true) :
      PortAfter s p i { opened := (s.port p).opened, sel := some a }
  | driven {i : Instr} (u : Chip) {a : Addr} (hi : u.Drives i) (hp : p = (s.unitRec u).bus)
      (hd : (s.unitRec u).det = true ∨ (s.unitRec u).init = true) :
      PortAfter s p i { opened := (s.port p).opened, sel := some a }

/-- Every command leaves one of these in a port. -/
theorem exec_port {i : Instr} {s t : State} (h : exec i s = .next t) (p : BusIx) : PortAfter s p i (t.port p) := by
  rcases exec_ports h with hp | ⟨rfl, hp⟩ | ⟨b, rfl, hv, hc, hp⟩ | ⟨b, rfl, ho, hp⟩ | ⟨b, hi, ho, a, _, hp⟩ | ⟨hi, hp⟩ |
    ⟨hi, hp⟩
  · rw [port_congr hp]; exact .untouched
  · rw [port_congr hp, closeBuses_port _ (by omega)]
    split
    · exact .mgrClosed
    · exact .untouched
  · rw [port_congr hp, port_setPort]
    split
    · next hb => exact .opened (toNat_of_portOf hb hv)
    · exact .untouched
  · rw [port_congr hp, port_setPort]
    split
    · next hb => exact .closed (toNat_of_portOf hb ho.1) ho
    · exact .untouched
  · rw [port_congr hp, port_setSel]
    split
    · next hb => subst hb; exact .named (portOf_toNat ho.1).symm hi ho.2
    · exact .untouched
  · rw [port_congr hp, port_setSel]
    split
    · next hb =>
      subst hb
      rcases hi with ⟨hi, hd⟩ | ⟨hd, hi⟩
      · exact .driven .pwm (.inl hi) rfl (.inl hd)
      · exact .driven .pwm (.inr hi) rfl (.inr hd)
    · exact .untouched
  · rw [port_congr hp, port_setSel]
    split
    · next hb =>
      subst hb
      rcases hi with ⟨hi, hd⟩ | ⟨hd, hi⟩
      · exact .driven .disp (.inl hi) rfl (.inl hd)
      · exact .driven .disp (.inr hi) rfl (.inr hd)
    · exact .untouched

section
variable {s : State} {p : BusIx} {i : Instr} {v : Port} (h : PortAfter s p i v)
include h

/-- Only its BUS_OPEN opens a port. -/
theorem PortAfter.opens (hc : (s.port p).opened = false) (ho : v.opened = true) :
    ∃ b : Byte, i = .busOpen b ∧ b.toNat = p.toNat := by
  cases h with
  | opened hb => exact ⟨_, rfl, hb⟩
  | mgrClosed | closed => exact absurd ho (by decide)
  | untouched | named | driven => exact absurd (hc.symm.trans ho) (by decide)

/-- Only its BUS_CLOSE and MGR_CLOSE close a port. -/
theorem PortAfter.closes (ho : (s.port p).opened = true) (hc : v.opened = false) :
    i = .mgrClose ∨ ∃ b : Byte, i = .busClose b ∧ b.toNat = p.toNat ∧ Opened s b := by
  cases h with
  | mgrClosed => exact .inl rfl
  | closed hb hob => exact .inr ⟨_, rfl, hb, hob⟩
  | opened => exact absurd hc (by decide)
  | untouched | named | driven => exact absurd (hc.symm.trans ho) (by decide)

end

/-- Settles O45: among what `exec_port` names, only BUS_OPEN opens and only the two closes close. -/
theorem portsOpenAndCloseOnlyByTheirCommands : Obligations.PortsOpenAndCloseOnlyByTheirCommands := by
  intro i s t p h
  refine ⟨(exec_port h p).opens, fun ho hc => ?_⟩
  rcases (exec_port h p).closes ho hc with hm | ⟨b, hi, hb, _⟩
  · exact .inl hm
  · exact .inr ⟨b, hi, hb⟩

/-- Settles O46: each way `exec_port` names to change a target is one of the statement's. -/
theorem targetsChangeOnlyByTheirCommands : Obligations.TargetsChangeOnlyByTheirCommands := by
  intro i s t p h hne
  have hport := exec_port h p
  generalize t.port p = v at hport hne
  cases hport with
  | untouched => exact absurd rfl hne
  | mgrClosed => exact .inl rfl
  | opened hb => exact .inr (.inl ⟨_, hb, .inr (.inl rfl)⟩)
  | closed hb _ => exact .inr (.inl ⟨_, hb, .inr (.inr (.inl rfl))⟩)
  | named hb hi _ =>
    refine .inr (.inl ⟨_, hb, ?_⟩)
    rcases hi with hi | hi | hi
    · exact .inl hi
    · exact .inr (.inr (.inr (.inl hi)))
    · exact .inr (.inr (.inr (.inr hi)))
  | driven u hi hp _ =>
    cases u with
    | pwm => exact .inr (.inr (.inl ⟨hp, hi⟩))
    | disp => exact .inr (.inr (.inr ⟨hp, hi⟩))

/-! ### Records -/

/-- What the record of unit `u` in `s` can become by command `i`. -/
inductive RecAfter (s : State) (u : Chip) : Instr → DevRec → Prop where
  | untouched {i : Instr} (hm : i ≠ .mgrClose) (hb : ∀ b, i = .busClose b → ¬ Opened s b) :
      RecAfter s u i (s.unitRec u)
  | mgrClosed : RecAfter s u .mgrClose DevRec.cleared
  | closed {b : Byte} (ho : Opened s b) : RecAfter s u (.busClose b) (recAfterClose (portOf b) (s.unitRec u))
  | cleared {b : Byte} : RecAfter s u (u.detectCmd b) DevRec.cleared
  | detected {b : Byte} {a : Addr} (ho : Opened s b) :
      RecAfter s u (u.detectCmd b) { det := true, init := false, bus := portOf b, addr := a }
  | inited (f : Bool) (hd : (s.unitRec u).det = true) : RecAfter s u u.initCmd { s.unitRec u with init := f }

theorem unitRec_congr {s t : State} (hp : t.recPwm = s.recPwm) (hd : t.recDisp = s.recDisp) (u : Chip) :
    t.unitRec u = s.unitRec u := by
  cases u
  · exact hp
  · exact hd

theorem RecAfter.of_eq {s t : State} {u : Chip} {i : Instr} (h : t.unitRec u = s.unitRec u) (hm : i ≠ .mgrClose)
    (hb : ∀ b, i ≠ .busClose b) : RecAfter s u i (t.unitRec u) :=
  h ▸ .untouched hm fun b hi => absurd hi (hb b)

theorem endWrites_sendWrites_unitRec (p : BusIx) (a : Addr) (msgs : List (List Byte)) (r : Word) (s : State) (u : Chip) :
    (endWrites r (sendWrites p a msgs s)).unitRec u = s.unitRec u := by
  rw [endWrites_frame]; exact unitRec_congr rfl rfl u

theorem unitWrites_unitRec (v : Chip) (msgs : List (List Byte)) (r : Word) (s : State) (u : Chip) :
    (unitWrites v msgs r s).unitRec u = s.unitRec u :=
  (endWrites_sendWrites_unitRec _ _ _ _ (select v s) u).trans (unitRec_select v s u)

theorem showDigits_unitRec (dbuf : Vector Bitmap 4) (msgs : List (List Byte)) (r : Word) (s : State) (u : Chip) :
    (showDigits dbuf msgs r s).unitRec u = s.unitRec u :=
  (unitWrites_unitRec _ _ _ { s with dbuf := dbuf } u).trans (unitRec_congr rfl rfl u)

theorem unitRec_setRec_ne {u v : Chip} (h : v ≠ u) (s : State) (r : DevRec) : (s.setRec v r).unitRec u = s.unitRec u := by
  cases u <;> cases v
  case pwm.pwm | disp.disp => exact absurd rfl h
  all_goals rfl

/-- INIT of a unit leaves its own record or changes its `init`, and leaves the other unit's. -/
theorem initUnit_recAfter (v : Chip) (msgs : List (List Byte)) (s : State) (u : Chip) :
    RecAfter s u v.initCmd ((initUnit v msgs s).unitRec u) := by
  have hm : v.initCmd ≠ .mgrClose := by cases v <;> simp [Chip.initCmd]
  have hb : ∀ b, v.initCmd ≠ .busClose b := by cases v <;> simp [Chip.initCmd]
  rcases initUnit_frame v msgs s with ⟨h, _⟩ | ⟨f, e, tr, st, re, hd, h⟩
  · rw [h]; exact .of_eq (unitRec_congr rfl rfl u) hm hb
  · rw [h]
    by_cases huv : v = u
    · subst huv
      cases v <;> exact .inited f hd
    · refine .of_eq ?_ hm hb
      exact (unitRec_congr rfl rfl u).trans ((unitRec_setRec_ne huv _ _).trans (unitRec_setSel _ _ _ u))

/-- DETECT of a unit clears or fills its own record, and leaves the other unit's. -/
theorem detectUnit_recAfter (v : Chip) (cands : List Addr) (reg b : Byte) (s : State) (u : Chip) :
    RecAfter s u (v.detectCmd b) ((detectUnit v cands reg b s).unitRec u) := by
  have hm : v.detectCmd b ≠ .mgrClose := by cases v <;> simp [Chip.detectCmd]
  have hb : ∀ c, v.detectCmd b ≠ .busClose c := by cases v <;> simp [Chip.detectCmd]
  by_cases huv : v = u
  · subst huv
    rcases detectUnit_cases v cands reg b s with ⟨_, h⟩ | ⟨ho, tried, _, ⟨a, _, h⟩ | h⟩
    · rw [h]; cases v <;> exact .cleared
    · rw [h]; cases v <;> exact .detected ho
    · rw [h]
      cases tried.getLast? <;> cases v <;> exact .cleared
  · refine .of_eq ?_ hm hb
    have hne := unitRec_setRec_ne huv s
    rcases detectUnit_cases v cands reg b s with ⟨_, h⟩ | ⟨ho, tried, _, ⟨a, _, h⟩ | h⟩
    · rw [h]; exact (unitRec_congr rfl rfl u).trans (hne _)
    · rw [h]; exact (unitRec_congr rfl rfl u).trans (hne _)
    · rw [h]
      cases tried.getLast? <;> exact (unitRec_congr rfl rfl u).trans (hne _)

/-- Every command leaves one of these in a unit's record. -/
theorem exec_unitRec {i : Instr} {s t : State} (h : exec i s = .next t) (u : Chip) : RecAfter s u i (t.unitRec u) := by
  cases exec_answer h
  case raised hc _ _ =>
    refine .of_eq (unitRec_congr rfl rfl u) ?_ ?_
    · rintro rfl; simp [errorCodes] at hc
    · rintro b rfl; simp [errorCodes] at hc
  case closesNothing b hn =>
    have hb : ∀ c, Instr.busClose b = .busClose c → ¬ Opened s c := by rintro _ ⟨⟩; exact hn
    cases u <;> exact .untouched (by simp) hb
  case closes ho => cases u <;> exact .closed ho
  case closesAll => cases u <;> exact .mgrClosed
  case pwmDetects => exact detectUnit_recAfter .pwm _ _ _ s u
  case dispDetects => exact detectUnit_recAfter .disp _ _ _ s u
  case pwmInits => exact initUnit_recAfter .pwm _ s u
  case dispInits => exact initUnit_recAfter .disp _ s u
  case writesByte | writesBlock => exact .of_eq (endWrites_sendWrites_unitRec _ _ _ _ s u) (by simp) (by simp)
  case setsChannel | setsAll | setsFan | setsLed => exact .of_eq (unitWrites_unitRec _ _ _ s u) (by simp) (by simp)
  case clears | showsText | showsLeft | showsRight =>
    exact .of_eq (showDigits_unitRec _ _ _ s u) (by simp) (by simp)
  all_goals exact .of_eq (unitRec_congr rfl rfl u) (by simp) (by simp)

/-- A record changes only by the four kinds of command. -/
theorem RecAfter.eq_of_ne {s : State} {u : Chip} {i : Instr} {r : DevRec} (h : RecAfter s u i r) (hm : i ≠ .mgrClose)
    (hc : ∀ b, i ≠ .busClose b) (hd : ∀ b, i ≠ u.detectCmd b) (hi : i ≠ u.initCmd) : r = s.unitRec u := by
  cases h with
  | untouched => rfl
  | mgrClosed => exact absurd rfl hm
  | closed => exact absurd rfl (hc _)
  | cleared | detected => exact absurd rfl (hd _)
  | inited => exact absurd rfl hi

/-- Settles O44: every other change `exec_unitRec` names is by a close or by the unit's own DETECT or INIT. -/
theorem recordsChangeOnlyByDetectInitAndClose : Obligations.RecordsChangeOnlyByDetectInitAndClose :=
  fun _ _ _ h hm hc => ⟨(exec_unitRec h .pwm).eq_of_ne hm hc, (exec_unitRec h .disp).eq_of_ne hm hc⟩

/-! ### The invariants R26 and R28 -/

/-- R26 over a command: a target is selected only on an open port, a unit's device by R28 too. -/
theorem portsOk_exec {i : Instr} {s t : State} (h : exec i s = .next t) (hp : PortsOk s) (hr : ∀ u, RecOk s u) :
    PortsOk t := by
  intro p hc
  have hport := exec_port h p
  generalize t.port p = v at hport hc ⊢
  cases hport with
  | untouched => exact hp p hc
  | mgrClosed | closed => rfl
  | opened => exact absurd hc (by decide)
  | named _ _ ho => exact absurd (hc.symm.trans ho) (by decide)
  | driven u _ hb hd =>
    obtain ⟨hinit, hopen, _⟩ := hr u
    have ho : (s.port p).opened = true := hb ▸ hopen (hd.elim id hinit)
    exact absurd (hc.symm.trans ho) (by decide)

/-- A port stays open over a command that is no close of it. -/
theorem exec_stays_open {i : Instr} {s t : State} (h : exec i s = .next t) {p : BusIx} (ho : (s.port p).opened = true)
    (hm : i ≠ .mgrClose) (hb : ∀ b, i = .busClose b → Opened s b → portOf b ≠ p) : (t.port p).opened = true := by
  by_contra hn
  rcases (exec_port h p).closes ho (by simpa using hn) with hi | ⟨b, hi, hbp, hob⟩
  · exact hm hi
  · exact hb b hi hob (BitVec.eq_of_toNat_eq ((portOf_toNat hob.1).trans hbp))

/-- R28 of one record beside the ports of `s`: what `RecOk` asks, by the record's value. -/
abbrev RecFits (s : State) (r : DevRec) : Prop :=
  (r.init = true → r.det = true) ∧ (r.det = true → (s.port r.bus).opened = true) ∧
  (r.det = false → r.bus = 0#4 ∧ r.addr = 0#7 ∧ r.init = false)

theorem recFits_cleared (s : State) : RecFits s DevRec.cleared :=
  ⟨fun h => absurd h (by decide), fun h => absurd h (by decide), fun _ => by decide⟩

/-- A close clears a record or leaves one that is not bound to the closed bus. -/
theorem recAfterClose_eq_cleared_or (p : BusIx) (r : DevRec) :
    recAfterClose p r = DevRec.cleared ∨ recAfterClose p r = r ∧ (r.det = true → r.bus ≠ p) := by
  unfold recAfterClose
  split
  · exact .inl rfl
  · next hn => exact .inr ⟨rfl, by simpa using hn⟩

/-- R28 over a command: a bus is closed only together with the records bound to it. -/
theorem recOk_exec {i : Instr} {s t : State} {u : Chip} (h : exec i s = .next t) (hr : RecOk s u) : RecOk t u := by
  obtain ⟨hinit, hopen, hblank⟩ := hr
  have hrec := exec_unitRec h u
  change RecFits t (t.unitRec u)
  generalize t.unitRec u = r at hrec ⊢
  cases hrec with
  | untouched hm hb =>
    exact ⟨hinit, fun hd => exec_stays_open h (hopen hd) hm fun b hi ho => absurd ho (hb b hi), hblank⟩
  | mgrClosed | cleared => exact recFits_cleared t
  | @closed b ho =>
    rcases recAfterClose_eq_cleared_or (portOf b) (s.unitRec u) with hc | ⟨hsame, hne⟩
    · rw [hc]; exact recFits_cleared t
    · rw [hsame]
      refine ⟨hinit, fun hd => exec_stays_open h (hopen hd) (by simp) ?_, hblank⟩
      rintro _ ⟨⟩ _
      exact (hne hd).symm
  | detected ho =>
    refine ⟨fun _ => rfl, fun _ => exec_stays_open h ho.2 ?_ ?_, fun hn => absurd hn (by simp)⟩
    · cases u <;> simp [Chip.detectCmd]
    · cases u <;> simp [Chip.detectCmd]
  | inited f hd =>
    refine ⟨fun _ => hd, fun _ => exec_stays_open h (hopen hd) ?_ ?_, fun hn => absurd (hd.symm.trans hn) (by decide)⟩
    · cases u <;> simp [Chip.initCmd]
    · cases u <;> simp [Chip.initCmd]

/-- Settles O49: a command keeps each of R26 and R28 by `portsOk_exec` and `recOk_exec`; reset closes and clears all; no
other input touches a port or a record. -/
theorem stepKeepsPortsAndRecords : Obligations.StepKeepsPortsAndRecords := by
  intro s t hp hpwm hdisp hs
  rcases step_cases hs with ⟨_, rfl⟩ | ⟨x, rest, _, ⟨w, i, _, he⟩ | ⟨w, rfl⟩ | ⟨r, v, _, rfl⟩ | ⟨r, rfl⟩ | rfl⟩
  · exact ⟨hp, hpwm, hdisp⟩
  · exact ⟨portsOk_exec he hp (fun | .pwm => hpwm | .disp => hdisp), recOk_exec he hpwm, recOk_exec he hdisp⟩
  · exact ⟨hp, hpwm, hdisp⟩
  · cases r <;> exact ⟨hp, hpwm, hdisp⟩
  · exact ⟨hp, hpwm, hdisp⟩
  · exact ⟨fun p _ => by rw [platformReset_port]; rfl, recFits_cleared _, recFits_cleared _⟩

end Sys2Proof.Machine

/-! ## The trace over a step (10_state R38, 20_memory R61) -/

namespace Sys2Proof.Machine

/-! ### Messages within the device's registers -/

theorem chanMsgs_inRegisters (cfg : Params) (ch : Nat) (on off : Ticks) (a : Addr) :
    ∀ m ∈ chanMsgs cfg ch on off, txInRegisters (.write a m) = true := by
  intro m hm
  refine shortWrite_inRegisters ?_ a
  simp only [chanMsgs, List.mem_cons, List.not_mem_nil, or_false] at hm
  rcases hm with rfl | rfl | rfl | rfl <;> exact Nat.le_refl 2

theorem pwmSetMsgs_inRegisters {cfg : Params} (h : cfg.wf = true) (ch : Byte) (on off : Ticks) (a : Addr) :
    ∀ m ∈ pwmSetMsgs cfg ch on off, txInRegisters (.write a m) = true := by
  unfold pwmSetMsgs
  split
  · exact fun m hm => allMsgs_inRegisters h on off hm a
  · exact chanMsgs_inRegisters cfg _ on off a

theorem ledMsgs_inRegisters (cfg : Params) (r g b : Ticks) (a : Addr) :
    ∀ m ∈ ledMsgs cfg r g b, txInRegisters (.write a m) = true := by
  intro m hm
  simp only [ledMsgs, List.mem_append] at hm
  rcases hm with (hm | hm) | hm
  all_goals exact chanMsgs_inRegisters cfg _ _ _ a m hm

theorem digitMsgs_inRegisters {cfg : Params} (h : cfg.wf = true) (dbuf : Vector Bitmap 4) (a : Addr) :
    ∀ m ∈ digitMsgs cfg dbuf, txInRegisters (.write a m) = true := by
  intro m hm
  simp only [digitMsgs, List.mem_cons, List.not_mem_nil, or_false] at hm
  rcases hm with rfl | rfl | rfl | rfl
  all_goals exact digitMsg_inRegisters h dbuf _ a

theorem pwmInitMsgs_inRegisters (cfg : Params) (a : Addr) :
    ∀ m ∈ pwmInitMsgs cfg, txInRegisters (.write a m) = true := by
  intro m hm
  obtain ⟨v, _, rfl⟩ := List.mem_map.mp hm
  exact shortWrite_inRegisters (by simp) a

theorem dispInitMsgs_inRegisters (cfg : Params) (a : Addr) :
    ∀ m ∈ dispInitMsgs cfg, txInRegisters (.write a m) = true := by
  intro m hm
  simp only [dispInitMsgs, List.mem_cons, List.not_mem_nil, or_false] at hm
  rcases hm with rfl | rfl <;> exact shortWrite_inRegisters (by simp) a

/-- Any one-byte read stays within the device's registers. -/
theorem byteRead_inRegisters (a : Addr) (r : Byte) : txInRegisters (.writeRead a r 1) = true :=
  decide_eq_true (show r.toNat + 1 ≤ 0xFF + 1 by have := r.isLt; omega)

/-! ### What a command appends -/

/-- `t` has the trace of `s` with some events appended, none past register 0xFF where `P` holds. -/
def Appends (P : Prop) (s t : State) : Prop :=
  ∃ evs, t.trace = s.trace ++ evs ∧ (P → ∀ ev ∈ evs, eventInRegisters ev = true)

section
variable {P : Prop} {s t : State} {p : BusIx}

theorem Appends.nothing (h : t.trace = s.trace) : Appends P s t :=
  ⟨[], by rw [h, List.append_nil], by simp⟩

theorem Appends.events {ts : List Tx} (h : t.trace = s.trace ++ s.env.events p ts)
    (hts : P → ∀ x ∈ ts, txInRegisters x = true) : Appends P s t := by
  refine ⟨_, h, fun hP ev hev => ?_⟩
  obtain ⟨x, hx, r, rfl⟩ := mem_events hev
  exact hts hP x hx

/-- Of the messages a command is to send, those it sent. -/
theorem Appends.writes {a : Addr} {msgs : List (List Byte)} {Q : List (List Byte) → Prop}
    (h : ∃ sent, sent <+: msgs ∧ t.trace = s.trace ++ s.env.events p (sent.map (.write a)) ∧ Q sent)
    (hm : P → ∀ m ∈ msgs, txInRegisters (.write a m) = true) : Appends P s t := by
  obtain ⟨sent, hpre, htr, _⟩ := h
  refine .events htr fun hP x hx => ?_
  obtain ⟨m, hms, rfl⟩ := List.mem_map.mp hx
  exact hm hP m (hpre.subset hms)

theorem initUnit_appends (u : Chip) {msgs : List (List Byte)}
    (hm : P → ∀ m ∈ msgs, txInRegisters (.write (s.unitRec u).addr m) = true) : Appends P s (initUnit u msgs s) := by
  rcases initUnit_trace u msgs s with ⟨h, _⟩ | ⟨_, h⟩
  · exact .nothing h
  · exact .writes h hm

theorem detectUnit_appends (u : Chip) (cands : List Addr) (reg b : Byte) :
    Appends P s (detectUnit u cands reg b s) := by
  have hreads : ∀ tried, ∀ x ∈ probeReads reg tried, txInRegisters x = true := by
    intro tried x hx
    obtain ⟨a, _, rfl⟩ := List.mem_map.mp hx
    exact byteRead_inRegisters a reg
  rcases detectUnit_cases u cands reg b s with ⟨_, h⟩ | ⟨_, tried, _, ⟨a, _, h⟩ | h⟩
  · rw [h]; exact .nothing (clearRec_trace u s)
  · rw [h]; exact .events rfl fun _ => hreads tried
  · rw [h]; exact .events rfl fun _ => hreads tried

end

/-- R61's premises: well-formed parameters and a command that is neither of the raw block transfers. -/
def BoundedTransfers (i : Instr) (cfg : Params) : Prop :=
  cfg.wf = true ∧ (∀ b r n, i ≠ .writeBlock b r n) ∧ ∀ b r n, i ≠ .readBlock b r n

/-- Every command appends to the trace, and within R61's premises appends no transfer past register 0xFF. -/
theorem exec_appends {i : Instr} {s t : State} (h : exec i s = .next t) : Appends (BoundedTransfers i s.cfg) s t := by
  cases exec_answer h
  case opens b _ _ => exact ⟨[.acquire (portOf b)], rfl, by simp [eventInRegisters]⟩
  case closes b _ => exact ⟨[.release (portOf b)], rfl, by simp [eventInRegisters]⟩
  case closesAll =>
    refine ⟨_, closeBuses_trace _ (by omega) s, fun _ ev hev => ?_⟩
    obtain ⟨b, _, rfl⟩ := List.mem_map.mp hev
    rfl
  case writesByte b r v a _ =>
    exact .writes (endWrites_trace _ _ [[r, v]] _ s) fun _ => by
      simpa using shortWrite_inRegisters (m := [r, v]) (Nat.le_refl 2) a
  case writesBlock => exact .writes (endWrites_trace _ _ _ _ s) fun hb => absurd rfl (hb.2.1 _ _ _)
  case readsByte b r a _ _ _ | failsByte b r a _ _ =>
    exact .events (ts := [.writeRead a r 1]) rfl fun _ => by simpa using byteRead_inRegisters a r
  case readsBlock b r n a _ _ _ _ _ _ | failsBlock b r n a _ _ _ _ =>
    exact .events (ts := [.writeRead a r n.toNat]) rfl fun hb => absurd rfl (hb.2.2 _ _ _)
  case scans => exact .events rfl fun _ => by simp [txInRegisters]
  case pwmDetects | dispDetects => exact detectUnit_appends _ _ _ _
  case pwmInits => exact initUnit_appends .pwm fun _ => pwmInitMsgs_inRegisters _ _
  case dispInits => exact initUnit_appends .disp fun _ => dispInitMsgs_inRegisters _ _
  case setsChannel =>
    exact .writes (unitWrites_trace .pwm _ _ s) fun hb => pwmSetMsgs_inRegisters hb.1 _ _ _ _
  case setsAll =>
    exact .writes (unitWrites_trace .pwm _ _ s) fun hb m hm => allMsgs_inRegisters hb.1 _ _ hm _
  case setsFan => exact .writes (unitWrites_trace .pwm _ _ s) fun _ => chanMsgs_inRegisters _ _ _ _ _
  case setsLed => exact .writes (unitWrites_trace .pwm _ _ s) fun _ => ledMsgs_inRegisters _ _ _ _ _
  case clears | showsText =>
    exact .writes (showDigits_trace _ _ _ s) fun hb => digitMsgs_inRegisters hb.1 _ _
  case showsLeft | showsRight =>
    exact .writes (showDigits_trace _ _ _ s) fun hb => by simpa using digitMsg_inRegisters hb.1 _ _ _
  case readsKey | failsKey =>
    exact .events (ts := [.writeRead s.recDisp.addr s.cfg.keyBase (2 * s.cfg.keyRows)]) rfl fun hb => by
      simpa using keyRead_inRegisters hb.1 s.recDisp.addr
  all_goals exact .nothing rfl

theorem storeReg_trace (s : State) (r : HostReg) (v : Word) : (storeReg s r v).trace = s.trace := by
  cases r <;> rfl

/-- Settles O47: a command appends what `exec_appends` says, and no other input touches the trace. -/
theorem traceIsAppendOnly : Obligations.TraceIsAppendOnly := by
  refine ⟨fun s t hs => ?_, fun i s t hwf hw hr h => ?_⟩
  · have same : t.trace = s.trace → ∃ evs, t.trace = s.trace ++ evs := fun h => ⟨[], by rw [h, List.append_nil]⟩
    rcases step_cases hs with ⟨_, rfl⟩ | ⟨x, rest, _, ⟨w, i, _, he⟩ | ⟨w, rfl⟩ | ⟨r, v, _, rfl⟩ | ⟨r, rfl⟩ | rfl⟩
    · exact same rfl
    · obtain ⟨evs, htr, _⟩ := exec_appends he
      exact ⟨evs, htr⟩
    · exact same rfl
    · exact same (storeReg_trace _ r v)
    · exact same rfl
    · exact same rfl
  · obtain ⟨evs, htr, hin⟩ := exec_appends h
    exact ⟨evs, htr, hin ⟨hwf, hw, hr⟩⟩

end Sys2Proof.Machine

/-! ## The outcome over a step (10_state R30, R31; 60_exceptions R220, R221) -/

namespace Sys2Proof.Machine

theorem outcomeOk_finish (r : Word) (s : State) : OutcomeOk (finish r s) := ⟨Nat.zero_le 6, fun hne => absurd rfl hne⟩

theorem outcomeOk_raise (e : Error) (s : State) : OutcomeOk (raise e s) :=
  ⟨by rw [raise_status]; cases e <;> decide, fun _ => rfl⟩

theorem endWrites_outcomeOk (r : Word) (w : Bool × State) : OutcomeOk (endWrites r w) := by
  unfold endWrites
  split
  · exact outcomeOk_finish r _
  · exact outcomeOk_raise _ _

theorem initUnit_outcomeOk (u : Chip) (msgs : List (List Byte)) (s : State) : OutcomeOk (initUnit u msgs s) := by
  unfold initUnit
  split
  · simp only
    split
    · exact outcomeOk_finish _ _
    · exact outcomeOk_raise _ _
  · exact outcomeOk_raise _ _

theorem detectUnit_outcomeOk (u : Chip) (cands : List Addr) (reg b : Byte) (s : State) :
    OutcomeOk (detectUnit u cands reg b s) := by
  rcases detectUnit_cases u cands reg b s with ⟨_, h⟩ | ⟨_, tried, _, ⟨a, _, h⟩ | h⟩
  · rw [h]; exact outcomeOk_raise _ _
  · rw [h]; exact outcomeOk_finish _ _
  · rw [h]; exact outcomeOk_raise _ _

/-- Every command, whatever the outcome before it, ends in `finish` or `raise`. -/
theorem exec_outcomeOk {i : Instr} {s t : State} (h : exec i s = .next t) : OutcomeOk t := by
  cases exec_answer h
  case raised | held | failsByte | failsBlock | failsKey => exact outcomeOk_raise _ _
  case opens | closesNothing | closes | selects | readsByte | readsBlock | scans | closesAll | readsKey =>
    exact outcomeOk_finish _ _
  case pwmDetects | dispDetects => exact detectUnit_outcomeOk _ _ _ _ s
  case pwmInits | dispInits => exact initUnit_outcomeOk _ _ s
  all_goals exact endWrites_outcomeOk _ _

/-- Settles O50: a command sets both registers anew, reset zeroes them, and no other input touches them. -/
theorem stepKeepsTheOutcome : Obligations.StepKeepsTheOutcome := by
  intro s t h hs
  rcases step_cases hs with ⟨_, rfl⟩ | ⟨x, rest, _, ⟨w, i, _, he⟩ | ⟨w, rfl⟩ | ⟨r, v, _, rfl⟩ | ⟨r, rfl⟩ | rfl⟩
  · exact h
  · exact exec_outcomeOk he
  · exact outcomeOk_raise _ _
  · cases r <;> exact h
  · exact h
  · exact ⟨Nat.zero_le 6, fun _ => rfl⟩

end Sys2Proof.Machine

/-! ## Host accesses (20_memory R51 to R55, R62) -/

namespace Sys2Proof.Machine

/-! ### The register map (R51) -/

theorem regOffset_sel (b : BusIx) : regOffset (.sel b) = 0x040#12 + 4#12 * b.setWidth 12 := by
  simp only [regOffset]; bv_omega

theorem regOffset_data (k : BitVec 5) : regOffset (.data k) = 0x100#12 + 4#12 * k.setWidth 12 := by
  simp only [regOffset]; bv_omega

/-- Settles O8: each offset of the statement is `regOffset` of its register, where `hostAccess` finds it. -/
theorem registerMapOffsets : Obligations.RegisterMapOffsets := by
  refine ⟨hostAccess_regOffset .cmd, hostAccess_regOffset .arg0, hostAccess_regOffset .arg1, hostAccess_regOffset .arg2,
    hostAccess_regOffset .status, hostAccess_regOffset .result, hostAccess_regOffset .dlen,
    hostAccess_regOffset .busOpen, hostAccess_regOffset .pwmRec, hostAccess_regOffset .dispRec,
    hostAccess_regOffset .dbuf01, hostAccess_regOffset .dbuf23, fun b => ?_, fun k => ?_⟩
  · rw [← regOffset_sel, hostAccess_regOffset]
  · rw [← regOffset_data, hostAccess_regOffset]

/-! ### Which accesses are refused (R52) -/

/-- R52 with R51's reserved ranges: the width, the alignment or the offset is not that of a register. -/
def RefusedAccess (o : Offset) (width : Width) : Prop :=
  width ≠ .w4 ∨ o.toNat % 4 ≠ 0 ∨ (0x030 ≤ o.toNat ∧ o.toNat < 0x040) ∨ (0x080 ≤ o.toNat ∧ o.toNat < 0x100) ∨
    0x180 ≤ o.toNat

/-- A refused access fails one of `hostAccess`'s three checks, of which the last is that a register has the word's index. -/
theorem hostAccess_error {o : Offset} {width : Width} (h : RefusedAccess o width) :
    ∃ e, hostAccess o width = .error e := by
  by_cases hw : width = .w4
  · by_cases ha : o.toNat % 4 = 0
    · have hnone : regAtIndex (o.toNat / 4) = none := by
        rcases h with h | h | h
        · exact absurd hw h
        · exact absurd ha h
        · exact regAtIndex_none (by omega)
      exact ⟨.accessReserved, by simp [hostAccess, hw, ha, hnone]⟩
    · exact ⟨.accessMisaligned, by simp [hostAccess, hw, ha]⟩
  · exact ⟨.accessWidth, by simp [hostAccess, hw]⟩

theorem hostAccess_ok {o : Offset} {width : Width} (h : ¬ RefusedAccess o width) : ∃ r, hostAccess o width = .ok r := by
  simp only [RefusedAccess, not_or, not_not] at h
  obtain ⟨hw, ha, hlow, hmid, hhigh⟩ := h
  obtain ⟨r, hr⟩ := regAtIndex_some (i := o.toNat / 4) (by omega)
  exact ⟨r, by simp [hostAccess, hw, ha, hr]⟩

/-- A host write to a register other than CMD only stores (R55). -/
theorem hostWrite_of_ne_cmd {r : HostReg} (hr : r ≠ .cmd) (v : Word) (s : State) :
    hostWrite r v s = .next (storeReg s r v) := by
  cases r
  case cmd => exact absurd rfl hr
  all_goals rfl

theorem hostWrite_next (r : HostReg) (v : Word) (s : State) : ∃ t, hostWrite r v s = .next t := by
  by_cases hr : r = .cmd
  · subst hr; exact execute_next v s
  · exact ⟨_, hostWrite_of_ne_cmd hr v s⟩

/-- Settles O7: an access that `hostAccess` refuses is refused, and one to a register answers a next state. -/
theorem onlyAlignedWordAccessesAreTaken : Obligations.OnlyAlignedWordAccessesAreTaken := by
  intro o width v s
  refine ⟨fun h => ?_, fun h => ?_⟩
  · obtain ⟨e, he⟩ := hostAccess_error h
    exact ⟨⟨e, by simp only [takeInput, he]⟩, ⟨e, by simp only [takeInput, he]⟩⟩
  · obtain ⟨r, hr⟩ := hostAccess_ok h
    obtain ⟨t, ht⟩ := hostWrite_next r v s
    exact ⟨⟨t, by simp only [takeInput, hr, ht]⟩, ⟨_, by simp only [takeInput, hr]; rfl⟩⟩

/-! ### A write to CMD (R62) -/

theorem step_commandWrite {s : State} {w : Word} {rest : List Input} (hin : s.inputs = commandWrite w :: rest) :
    step s = execute w { s with inputs := rest } := by
  simp only [step, hin]
  exact takeInput_regWrite .cmd w _

/-- Whatever a word executes as, CMD holds it and the coming host accesses stand (R32, R86). -/
theorem execute_cmd_inputs {w : Word} {s t : State} (h : execute w s = .next t) : t.cmd = w ∧ t.inputs = s.inputs := by
  unfold execute at h
  split at h
  · obtain ⟨_, _, _, hcmd, _, hinputs, _⟩ := commandsLeaveTheOperandRegisters _ _ _ h
    exact ⟨hcmd, hinputs⟩
  · cases h; exact ⟨rfl, rfl⟩

/-- Settles O6: every word executes to a next state, and keeps CMD and the coming accesses. -/
theorem commandWritesAlwaysComplete : Obligations.CommandWritesAlwaysComplete := by
  intro s w rest hin
  obtain ⟨t, ht⟩ := execute_next w { s with inputs := rest }
  exact ⟨t, (step_commandWrite hin).trans ht, execute_cmd_inputs ht⟩

/-! ### DATA words (R53, R54) -/

/-- Byte j of a DATA word is the byte at its address (R53). -/
theorem dataWord_byte (m : List Host.Cell) (k : Nat) {j : Nat} (hj : j < 4) :
    (dataWord m k).extractLsb' (8 * j) 8 = Memory.read m (4 * k + j) := by
  obtain rfl | rfl | rfl | rfl : j = 0 ∨ j = 1 ∨ j = 2 ∨ j = 3 := by omega
  all_goals
    simp (disch := decide) only [dataWord, BitVec.extractLsb'_append_eq_of_add_le, BitVec.extractLsb'_append_eq_of_le]
    exact BitVec.extractLsb'_eq_self

theorem word_eq_of_bytes {v w : Word} (h : ∀ j, j < 4 → v.extractLsb' (8 * j) 8 = w.extractLsb' (8 * j) 8) : v = w := by
  refine BitVec.eq_of_getLsbD_eq fun i hi => ?_
  have hbit := congrArg (fun b => b.getLsbD (i % 8)) (h (i / 8) (by omega))
  simpa [BitVec.getLsbD_extractLsb', Nat.div_add_mod, Nat.mod_lt] using hbit

/-- A DATA word reads as what was last written to it: byte by byte. -/
theorem dataWord_writeDataWord {m : List Host.Cell} {k : Nat} {v : Word} (h : Memory.wf Config.dataSize m = true)
    (hk : k < 32) : dataWord (writeDataWord m k v) k = v :=
  word_eq_of_bytes fun j hj => by rw [dataWord_byte _ _ hj, read_writeDataWord_in h hk j hj]

/-- Settles O10: a DATA word is read and written byte by byte, and no other byte is written. -/
theorem dataWordsAreLittleEndian : Obligations.DataWordsAreLittleEndian := by
  intro s k v
  refine ⟨fun _ => dataWord_byte s.data k.toNat, fun hdata => ?_⟩
  exact ⟨storeReg s (.data k) v, takeInput_regWrite _ v s, dataWord_writeDataWord hdata k.isLt,
    read_writeDataWord_in hdata k.isLt, fun _ => read_writeDataWord_out s.data v⟩

/-! ### Reads and writes of the registers (R55) -/

theorem hostWrite_readOnly {r : HostReg} {b : BusIx}
    (hr : r ∈ [HostReg.status, .result, .busOpen, .pwmRec, .dispRec, .dbuf01, .dbuf23, .sel b]) (v : Word) (s : State) :
    hostWrite r v s = .next s := by
  simp only [List.mem_cons, List.not_mem_nil, or_false] at hr
  rcases hr with rfl | rfl | hr
  · rfl
  · rfl
  · exact hostWrite_view (by rcases hr with rfl | rfl | rfl | rfl | rfl | rfl <;> simp) v s

/-- A second write of the same word to DATA finds it there: the two memories are canonical and read alike. -/
theorem writeDataWord_idem {m : List Host.Cell} {k : Nat} {v : Word} (h : Memory.wf Config.dataSize m = true)
    (hk : k < 32) : writeDataWord (writeDataWord m k v) k v = writeDataWord m k v := by
  have h1 := wf_writeDataWord (v := v) h hk
  refine eq_of_read_eq (wf_writeDataWord h1 hk) h1 fun a => ?_
  by_cases ha : a < 4 * k ∨ 4 * k + 4 ≤ a
  · exact read_writeDataWord_out _ v ha
  · obtain ⟨j, rfl⟩ : ∃ j, a = 4 * k + j := ⟨a - 4 * k, by omega⟩
    rw [read_writeDataWord_in h1 hk j (by omega), read_writeDataWord_in h hk j (by omega)]

theorem storeReg_idem {s : State} (h : DataOk s) (r : HostReg) (v : Word) :
    storeReg (storeReg s r v) r v = storeReg s r v := by
  cases r
  case data k => simp only [storeReg, writeDataWord_idem h k.isLt]
  all_goals rfl

/-- DLEN keeps the low byte of what is written to it (R34). -/
theorem storeReg_dlen (s : State) (v : Word) :
    storeReg s .dlen v = { s with dlen := BitVec.ofNat 8 (v.toNat % 256) } := by
  have hlow : v.setWidth 8 = BitVec.ofNat 8 (v.toNat % 256) := by bv_omega
  rw [storeReg, hlow]

/-- Settles O9: an access reaches its register, where a read shows, and a write other than to CMD only stores. -/
theorem hostReadsAndWritesHaveNoSideEffect : Obligations.HostReadsAndWritesHaveNoSideEffect := by
  refine ⟨fun s r => takeInput_regRead r s, fun s v b r hr => ?_, fun s v => ?_, fun s t r v hdata hr h => ?_⟩
  · rw [takeInput_regWrite, hostWrite_readOnly hr]
  · refine ⟨takeInput_regWrite _ v s, takeInput_regWrite _ v s, takeInput_regWrite _ v s, ?_,
      fun k => ⟨takeInput_regWrite _ v s, fun a => read_writeDataWord_out s.data v⟩⟩
    rw [takeInput_regWrite, hostWrite_of_ne_cmd (by decide), storeReg_dlen]
  · rw [takeInput_regWrite, hostWrite_of_ne_cmd hr] at h ⊢
    cases h
    rw [storeReg_idem hdata]

end Sys2Proof.Machine

/-! ## Command words (30_encoding R80 to R86)

A word decodes to a command exactly when its opcode is a row of the table and its reserved bits are 0; such a word is the
encoding of that command, and the word of every command is such a word. -/

namespace Sys2Proof

/-! ### Decoding what was encoded (R82) -/

/-- When a word is a command: its opcode has a row, and the word matches the row (R85, R86). -/
theorem decode_eq_ok_iff {w : Word} {i : Instr} :
    decode w = .ok i ↔ ∃ f, opcodeFormat (fieldOpc w) = some f ∧
      opcodeInstr (fieldOpc w) (fieldA w) (fieldB w) (fieldC w) = some i ∧ rowMatches (fieldOpc w) f w = true := by
  unfold decode
  split
  · next f j hf hj => cases hm : rowMatches (fieldOpc w) f w <;> simp [hf, hj, hm]
  · next hnone =>
    simp only [reduceCtorEq, false_iff]
    rintro ⟨f, hf, hi, -⟩
    exact hnone f i hf hi

/-- The word of every command matches the row of its opcode (R82). -/
theorem encode_matchesRow (i : Instr) : Laws.MatchMask.Statement i := by
  open Laws.MatchMask in
  cases i with
  | busOpen b => exact busOpen b
  | busClose b => exact busClose b
  | setAddr b a => exact setAddr b a
  | writeByte b r v => exact writeByte b r v
  | readByte b r => exact readByte b r
  | writeBlock b r n => exact writeBlock b r n
  | readBlock b r n => exact readBlock b r n
  | scan b f l => exact scan b f l
  | mgrClose => exact mgrClose
  | pwmDetect b => exact pwmDetect b
  | pwmInit => exact pwmInit
  | pwmSet c => exact pwmSet c
  | pwmSetAll => exact pwmSetAll
  | fanSpeed => exact fanSpeed
  | ledColor => exact ledColor
  | dispDetect b => exact dispDetect b
  | dispInit => exact dispInit
  | dispClear => exact dispClear
  | dispCharL x c => exact dispCharL x c
  | dispCharR x c => exact dispCharR x c
  | dispString r => exact dispString r
  | readKey => exact readKey

theorem alignField_bit (align : Bool) : (alignField align)[0] = align := by
  cases align <;> rfl

/-- The row of a command's opcode names the command, with the fields its word holds (R82). -/
theorem opcodeInstr_encode (i : Instr) :
    opcodeInstr (fieldOpc (encode i)) (fieldA (encode i)) (fieldB (encode i)) (fieldC (encode i)) = some i := by
  cases i
  case dispString align => simp [encode, opcodeInstr, alignField_bit]
  all_goals simp [encode, opcodeInstr]

/-- Decoding the word of a command gives the command back; every term is well-formed (R82, R90). -/
theorem decode_encode {i : Instr} (hwf : i.wf = true) : decode (encode i) = .ok i := by
  obtain ⟨f, hformat, hmatch⟩ := encode_matchesRow i hwf
  exact decode_eq_ok_iff.mpr ⟨f, hformat, opcodeInstr_encode i, hmatch⟩

theorem Instr.wf_eq_true (i : Instr) : i.wf = true := by
  cases i <;> rfl

/-- Settles O2: the word of a command matches its row, and the row names the command. -/
theorem decodeOfEncodeIsTheCommand : Obligations.DecodeOfEncodeIsTheCommand :=
  fun _ => decode_encode

/-- Settles O1: each of the twelve words is literal, and `decode` is evaluated on it. -/
theorem sampleCommandWordsDecode : Obligations.SampleCommandWordsDecode := by
  unfold Obligations.SampleCommandWordsDecode
  decide

/-! ### Encoding what was decoded (R81, R85) -/

/-- A byte none of whose bits under the mask are set is not changed by clearing them. -/
theorem and_not_of_and_eq_zero {x m : Byte} (h : x &&& m = 0#8) : x &&& ~~~m = x := by
  ext k hk
  simpa using congrArg (·[k]) h

/-- DISP_STRING's A field holds the alignment bit and no other (R81, format FA1). -/
theorem alignField_bitOf (a : Byte) : alignField a[0] = a &&& 1#8 := by
  revert a; decide

theorem eq_ofNat_of_toNat_eq {x : Byte} {n : Nat} (h : x.toNat = n) : x = BitVec.ofNat 8 n := by
  rw [← h, BitVec.ofNat_toNat, BitVec.setWidth_eq]

/-- The command of a row, encoded again, is the word it was read from with the reserved bits cleared (R81, R82). -/
theorem encode_opcodeInstr {o a b c : Byte} {f : Format} {i : Instr} (hf : opcodeFormat o = some f)
    (hi : opcodeInstr o a b c = some i) :
    encode i =
      wordOf o (a &&& ~~~(reservedBytes f).1) (b &&& ~~~(reservedBytes f).2.1) (c &&& ~~~(reservedBytes f).2.2) := by
  unfold opcodeInstr at hi
  split at hi
  case h_23 => cases hi
  all_goals
    next ho =>
    obtain rfl := eq_ofNat_of_toNat_eq ho
    cases hi
    cases hf
    simp [encode, reservedBytes, and_fullMask, alignField_bitOf]

/-- A word that decodes to a command is that command's word: its reserved bits are 0 (R85). -/
theorem encode_of_decode {w : Word} {i : Instr} (h : decode w = .ok i) : encode i = w := by
  obtain ⟨f, hformat, hinstr, hmatch⟩ := decode_eq_ok_iff.mp h
  have hreserved := rowMatches_wordOf (fieldOpc w) (fieldA w) (fieldB w) (fieldC w) f
  rw [wordOf_fields, hmatch, eq_comm, decide_eq_true_iff] at hreserved
  obtain ⟨ha, hb, hc⟩ := hreserved
  rw [encode_opcodeInstr hformat hinstr, and_not_of_and_eq_zero ha, and_not_of_and_eq_zero hb,
    and_not_of_and_eq_zero hc, wordOf_fields]

/-- Decoding and encoding are inverse to each other on the words that are commands (R85). -/
theorem decode_eq_ok_iff_encode_eq {w : Word} {i : Instr} : decode w = .ok i ↔ encode i = w :=
  ⟨encode_of_decode, fun h => h ▸ decode_encode i.wf_eq_true⟩

/-- Settles O3: decoding to a command is being its word, so no word is two commands' and no illegal word is one's. -/
theorem everyWordIsOneCommandOrIllegal : Obligations.EveryWordIsOneCommandOrIllegal := by
  intro w
  simp only [ne_eq, ← decode_eq_ok_iff_encode_eq]
  cases decode w with
  | ok i => exact .inl ⟨i, rfl, rfl, fun j hj => (Except.ok.inj hj).symm⟩
  | error e => exact .inr ⟨⟨e, rfl⟩, fun i hi => by cases hi⟩

/-! ### Illegal words (R83, R84, R86) -/

/-- R83 and R84 by opcode number: the opcode is none of the table's, or a reserved field of its format is not 0. -/
def UnassignedOrReserved (w : Word) : Prop :=
  let opc := w.toNat / 2 ^ 24
  opc ∉ [0x01, 0x02, 0x03, 0x04, 0x05, 0x06, 0x07, 0x08, 0x09, 0x10, 0x11, 0x12, 0x13, 0x14, 0x15, 0x20, 0x21, 0x22,
      0x23, 0x24, 0x25, 0x26] ∨
    (opc ∈ [0x09, 0x11, 0x13, 0x14, 0x15, 0x21, 0x22, 0x26] ∧ w.toNat % 2 ^ 24 ≠ 0) ∨
    (opc ∈ [0x01, 0x02, 0x10, 0x12, 0x20] ∧ w.toNat % 2 ^ 16 ≠ 0) ∨
    (opc ∈ [0x03, 0x05, 0x23, 0x24] ∧ w.toNat % 2 ^ 8 ≠ 0) ∨
    (opc = 0x25 ∧ w &&& 0x00FEFFFF#32 ≠ 0#32)

theorem wordOf_toNat_div (o a b c : Byte) : (wordOf o a b c).toNat / 2 ^ 24 = o.toNat := by
  rw [← fieldOpc_toNat, fieldOpc_wordOf]

/-- The word of a command has an opcode of the table and zeros in the reserved fields (R82). -/
theorem encode_not_unassignedOrReserved (i : Instr) : ¬ UnassignedOrReserved (encode i) := by
  cases i
  case dispString align => cases align <;> simp [UnassignedOrReserved, encode, wordOf, alignField]
  all_goals
    simp only [UnassignedOrReserved, encode, wordOf_toNat_div]
    simp [wordOf_toNat]
  case setAddr | readByte | dispCharL | dispCharR => omega

/-- A word that is no command's word decodes to an error (R85). -/
theorem decode_error_of_unassignedOrReserved {w : Word} (h : UnassignedOrReserved w) : ∃ e, decode w = .error e := by
  cases hd : decode w with
  | ok i => exact absurd (encode_of_decode hd ▸ h) (encode_not_unassignedOrReserved i)
  | error e => exact ⟨e, rfl⟩

end Sys2Proof

namespace Sys2Proof.Machine

/-! ### Executing a word written to CMD (R86) -/

theorem execute_of_decode_ok {w : Word} {i : Instr} (h : decode w = .ok i) (s : State) :
    execute w s = exec i { s with cmd := w } := by
  simp only [execute, h, storeReg]

/-- An illegal word changes CMD, STATUS and RESULT, and nothing else (R86). -/
theorem execute_of_decode_error {w : Word} {e : DecodeError} (h : decode w = .error e) (s : State) :
    execute w s = .next { s with cmd := w, status := 6#32, result := 0#32 } := by
  simp only [execute, h]
  rfl

/-- Settles O4: such a word is no command's word, so it decodes to an error. -/
theorem unassignedAndReservedWordsAreIllegal : Obligations.UnassignedAndReservedWordsAreIllegal := by
  intro w s _ h
  obtain ⟨e, he⟩ := decode_error_of_unassignedOrReserved h
  exact execute_of_decode_error he s

/-- Settles O5: the step executes the word, as the command it decodes to or as an illegal word. -/
theorem commandWriteExecutesTheDecodedCommand : Obligations.CommandWriteExecutesTheDecodedCommand := by
  intro s w rest hin
  rw [step_commandWrite hin]
  exact ⟨fun i _ hi => execute_of_decode_ok hi _, fun e he => execute_of_decode_error he _⟩

end Sys2Proof.Machine

/-! ## The I2C master's commands (40_transport R102 to R109) -/

namespace Sys2Proof.Machine

/-! ### Opening, closing and selecting (R102 to R104) -/

/-- A valid bus that is not opened is a closed port (R101). -/
theorem opened_eq_false_of_not_opened {s : State} {b : Byte} (hv : b.toNat < s.cfg.nbus.val) (h : ¬ Opened s b) :
    (s.port (portOf b)).opened = false := by
  simpa using fun ho => h ⟨hv, ho⟩

/-- Settles O13, check by check of R102: the bus exists, is present, is not open, and is not held elsewhere. -/
theorem busOpenAcquiresThePort : Obligations.BusOpenAcquiresThePort := by
  intro s b
  refine ⟨decode_encode (i := .busOpen b) rfl, fun hv => ?missing, fun hv hp => ?absent, fun hv ho => ?alreadyOpen,
    fun hv hp hc => ⟨fun hh => ?held, fun hh => ?free⟩⟩
  case missing =>
    simp only [exec, execBusOpen, validPort_none hv]
    rfl
  case absent =>
    simp only [exec, execBusOpen, validPort_some hv, hp]
    rfl
  case alreadyOpen =>
    simp only [exec, execBusOpen, validPort_some hv, ho, if_true, ite_self]
    rfl
  case held | free =>
    simp only [exec, execBusOpen, validPort_some hv, hp, hc, hh]
    rfl

/-- Settles O14: `closeBus` of an open port is `closeBus_opened`, and of any other the identity. -/
theorem busCloseReleasesThePort : Obligations.BusCloseReleasesThePort := by
  intro s b
  refine ⟨decode_encode (i := .busClose b) rfl, fun hn => ?_, fun ho => ?_⟩
  · by_cases hv : b.toNat < s.cfg.nbus.val
    · simp only [exec, execBusClose, validPort_some hv, closeBus_closed (opened_eq_false_of_not_opened hv hn)]
      rfl
    · simp only [exec, execBusClose, validPort_none hv]
      rfl
  · simp only [exec, execBusClose, validPort_some ho.1, closeBus_opened ho.2]
    rfl

/-- Settles O15: the bus is checked, then the address. -/
theorem setAddrSelectsTheTarget : Obligations.SetAddrSelectsTheTarget := by
  intro s b a
  refine ⟨decode_encode (i := .setAddr b a) rfl, fun hn => ?_, fun ho ha => ?_, fun ho hlo hhi => ?_⟩
  · simp only [exec, execSetAddr, openPort_none hn]
    rfl
  · simp only [exec, execSetAddr, openPort_some ho, if_pos ha]
    rfl
  · have hin : ¬ (a.toNat < 0x03 ∨ 0x77 < a.toNat) := by omega
    simp only [exec, execSetAddr, openPort_some ho, if_neg hin]
    rfl

/-! ### Single bytes (R105, R106) -/

/-- Settles O16: on a ready bus the command is `sendWrites` of its one message. -/
theorem writeByteSendsOneWrite : Obligations.WriteByteSendsOneWrite := by
  intro s b r v
  refine ⟨decode_encode (i := .writeByte b r v) rfl, fun hn => ?_, fun a hr => ?_⟩
  · simp only [exec, execWriteByte, readyTarget_none hn]
    rfl
  · simp only [exec, execWriteByte, readyTarget_some hr]
    exact writesThen_endWrites s _ a _ _

/-- Settles O17, by the response to the one read. -/
theorem readByteReturnsTheByte : Obligations.ReadByteReturnsTheByte := by
  intro s b r
  refine ⟨decode_encode (i := .readByte b r) rfl, fun hn => ?_, fun a hr => ⟨fun d hd => ?_, fun hf => ?_⟩⟩
  · simp only [exec, execReadByte, readyTarget_none hn]
    rfl
  · simp only [exec, execReadByte, readyTarget_some hr, i2cResponse, i2cState, hd]
    rfl
  · simp only [exec, execReadByte, readyTarget_some hr, i2cResponse, i2cState, hf]
    rfl

/-! ### Blocks (R107, R108) -/

/-- The bytes of DATA from 0 on (R54). -/
theorem readBytes_zero (m : List Host.Cell) (n : Nat) :
    Memory.readBytes m 0 n = (List.range n).map (fun k => Memory.read m k) := by
  simp only [Memory.readBytes, Nat.zero_add]

/-- Settles O18: the length is checked, then the bus; on a ready bus the command is `sendWrites` of its one message. -/
theorem writeBlockSendsTheDataBytes : Obligations.WriteBlockSendsTheDataBytes := by
  intro s b r n
  refine ⟨decode_encode (i := .writeBlock b r n) rfl, fun hlen => ?_, fun hlen hn => ?_, fun hlen a hr => ?_⟩
  · simp only [exec, execWriteBlock, if_pos hlen]
    rfl
  · simp only [exec, execWriteBlock, if_neg hlen.not_gt, readyTarget_none hn]
    rfl
  · simp only [exec, execWriteBlock, if_neg hlen.not_gt, readyTarget_some hr, readBytes_zero]
    exact writesThen_endWrites s _ a _ _

/-- A byte list stored at the start of DATA is read back from there, and every byte after it is unchanged (R54). -/
theorem read_writeBytes_zero {m : List Host.Cell} (hm : Memory.wf Config.dataSize m = true) (vs : List Byte)
    (hlen : vs.length ≤ Config.dataSize) :
    (∀ k (h : k < vs.length), Memory.read (Memory.writeBytes m 0 vs) k = vs[k]) ∧
    (∀ k, vs.length ≤ k → Memory.read (Memory.writeBytes m 0 vs) k = Memory.read m k) := by
  refine ⟨fun k hk => ?_, fun k hk => read_writeBytes_out vs m (.inr (by omega))⟩
  have h := read_writeBytes_in (a := 0) vs hm (by omega) k hk
  rwa [Nat.zero_add] at h

/-- Settles O19: the length is checked, then the bus; the reply has as many bytes as asked for, and they fit in DATA. -/
theorem readBlockStoresTheReply : Obligations.ReadBlockStoresTheReply := by
  intro s b r n
  refine ⟨decode_encode (i := .readBlock b r n) rfl, fun hlen => ?_, fun h0 hlen hn => ?_, fun h0 hlen a hr => ?_⟩
  · simp only [exec, execReadBlock, if_pos hlen]
    rfl
  all_goals have hin : ¬ (n.toNat = 0 ∨ 32 < n.toNat) := by omega
  · simp only [exec, execReadBlock, if_neg hin, readyTarget_none hn]
    rfl
  · refine ⟨fun d hd hdata => ⟨Memory.writeBytes s.data 0 d, ?_, ?_⟩, fun hf => ?_⟩
    · simp only [exec, execReadBlock, if_neg hin, readyTarget_some hr, i2cResponse, i2cState, hd, BitVec.ofNat_toNat]
      rfl
    · have hl : d.length = n.toNat := response_ok_length hd
      obtain ⟨hread, hkeep⟩ := read_writeBytes_zero hdata d (by simp only [Config.dataSize]; omega)
      exact ⟨hl, hread, fun k hk => hkeep k (by omega)⟩
    · simp only [exec, execReadBlock, if_neg hin, readyTarget_some hr, i2cResponse, i2cState, hf]
      rfl

/-! ### Scanning (R109) -/

/-- Settles O20: the probes are `probeAll` of the cut range, and what they find is stored at the start of DATA. -/
theorem scanListsTheAcknowledgedAddresses : Obligations.ScanListsTheAcknowledgedAddresses := by
  intro s b first last
  refine ⟨decode_encode (i := .scan b first last) rfl, fun hn => ?_, fun ho hdata => ?_⟩
  · simp only [exec, execScan, openPort_none hn]
    rfl
  · rw [← scanAddrs_eq]
    intro addrs found
    have hfound : found.length ≤ 117 := (found_length _ _ _).trans (scanAddrs_length first last)
    obtain ⟨hread, hkeep⟩ := read_writeBytes_zero hdata (found.map (fun a => a.setWidth 8))
      (by simp only [List.length_map, Config.dataSize]; omega)
    simp only [List.length_map, List.getElem_map] at hread hkeep
    refine ⟨_, ?_, hfound, hread, hkeep⟩
    simp only [exec, execScan, openPort_some ho, probeAll_eq, Nat.zero_add]
    rfl

end Sys2Proof.Machine

/-! ## What a unit's commands answer (41_pwm, 42_display_keypad)

The shared operations of the two units, in the words of the statements: the three endings of a detection and the two checks
a command makes of its record. -/

namespace Sys2Proof.Machine

/-- DETECT has the three endings `Detects` names (R145, R173): no open bus, a first candidate that answers, none that does. -/
theorem detects_detectUnit (u : Chip) (cands : List Addr) (reg b : Byte) (s : State) :
    Detects u cands reg b s (.next (detectUnit u cands reg b s)) := by
  have hopen : Opened (clearRec u s) b ↔ Opened s b := by
    simp only [Opened, clearRec_cfg, port_clearRec]
  refine ⟨fun hn => ?closed, fun ho pre a post d hc hpre ha => ?found, fun ho pre a hc hall => ?exhausted⟩
  case closed =>
    rw [detectUnit, openPort_none (mt hopen.mp hn)]
    rfl
  case found =>
    have ht := tryCandidates_found (p := portOf b) (reg := reg) (post := post) (s := clearRec u s)
      (by rw [clearRec_env]; exact hpre) (by rw [clearRec_env]; exact ha)
    simp only [detectUnit, openPort_some (hopen.mpr ho), hc, ht]
    cases u <;> rfl
  case exhausted =>
    subst hc
    have ht := tryCandidates_none (p := portOf b) (reg := reg) (s := clearRec u s) (by rw [clearRec_env]; exact hall)
    simp only [detectUnit, openPort_some (hopen.mpr ho), ht]
    cases u <;> rfl

/-- INIT before detection is DeviceNotFound and changes nothing else (R146, R174). -/
theorem initUnit_of_not_det {u : Chip} {s : State} (h : (s.unitRec u).det = false) (msgs : List (List Byte)) :
    initUnit u msgs s = withError 2 s := by
  rw [initUnit, h]
  rfl

end Sys2Proof.Machine

/-! ## The PWM unit's commands (41_pwm R142 to R150) -/

namespace Sys2Proof.Machine

/-! ### Detection and initialisation (R145, R146) -/

/-- Settles O22: the command is `detectUnit` of the PWM unit. -/
theorem pwmDetectFindsTheFirstCandidate : Obligations.PwmDetectFindsTheFirstCandidate :=
  fun s b => ⟨decode_encode (i := .pwmDetect b) rfl, detects_detectUnit .pwm _ _ b s⟩

/-- Settles O23: the command is `initUnit` of the PWM unit with the MODE1 sequence as its messages. -/
theorem pwmInitWritesTheModeSequence : Obligations.PwmInitWritesTheModeSequence :=
  fun s => ⟨decode_encode (i := .pwmInit) rfl, fun hd => congrArg _ (initUnit_of_not_det (u := .pwm) hd _),
    fun hd => writesThen_initUnit .pwm _ s hd⟩

/-! ### Channels (R147 to R150) -/

/-- Settles O24: the channel is checked, then `init`; channel 16 sends `allMsgs`, any other `chanMsgs`. -/
theorem pwmSetWritesOneChannel : Obligations.PwmSetWritesOneChannel := by
  intro s ch
  refine ⟨decode_encode (i := .pwmSet ch) rfl, fun hch => ?_, fun hch hi => ?_, fun hi hch => ?_, fun hi hch => ?_⟩
  · simp only [exec, execPwmSet, if_pos hch]
    rfl
  · simp only [exec, execPwmSet, if_neg hch.not_gt, hi]
    rfl
  · have hmsgs := allMsgs_eq s.cfg (ticks s.arg0) (ticks s.arg1)
    simp only [exec, execPwmSet, if_neg hch.le.not_gt, hi, pwmSetMsgs, if_pos hch, hmsgs]
    exact writesThen_unitWrites .pwm _ _ s
  · simp only [exec, execPwmSet, if_neg hch.not_gt, hi, pwmSetMsgs, if_neg hch.ne, chanMsgs_eq]
    exact writesThen_unitWrites .pwm _ _ s

/-- Settles O25: with `init` set the command is `unitWrites` of the one burst. -/
theorem pwmSetAllSendsOneBurst : Obligations.PwmSetAllSendsOneBurst := by
  refine fun s => ⟨decode_encode (i := .pwmSetAll) rfl, fun hi => ?_, fun hi => ?_⟩
  · simp only [exec, execPwmSetAll, hi]
    rfl
  · simp only [exec, execPwmSetAll, hi, allMsgs_eq]
    exact writesThen_unitWrites .pwm _ _ s

/-- Settles O26: with `init` set the command is `unitWrites` of the fan channel's writes, its RESULT the level. -/
theorem fanSpeedWritesTheFanChannel : Obligations.FanSpeedWritesTheFanChannel := by
  refine fun s => ⟨decode_encode (i := .fanSpeed) rfl, fun hi => ?_, fun hi => ?_⟩
  · simp only [exec, execFanSpeed, hi]
    rfl
  · simp only [exec, execFanSpeed, hi, chanMsgs_eq, BitVec.ofNat_toNat]
    exact writesThen_unitWrites .pwm _ _ s

/-- Settles O27: with `init` set the command is `unitWrites` of the three channels' writes, one after the other. -/
theorem ledColorWritesThreeChannels : Obligations.LedColorWritesThreeChannels := by
  refine fun s => ⟨decode_encode (i := .ledColor) rfl, fun hi => ?_, fun hi => ?_⟩
  · simp only [exec, execLedColor, hi]
    rfl
  · simp only [exec, execLedColor, hi, ledMsgs, chanMsgs_eq]
    exact writesThen_unitWrites .pwm _ _ s

/-! ### Ticks and levels (R142 to R144) -/

/-- The clamped operand fits in 12 bits, so `ticks` holds all of it (R142). -/
theorem ticks_toNat (x : Word) : ((ticks x).toNat : Int) = min (max x.toInt 0) 4095 := by
  simp only [ticks, clamp, BitVec.toNat_ofNat]
  omega

/-- A percentage's ticks fit in 12 bits, so `level` holds all of them (R143). -/
theorem level_toNat {x : Word} {l : Nat} (hl : (l : Int) = min (max x.toInt 0) 100) :
    (level x).toNat = (4095 * l + 50) / 100 := by
  simp only [level, clamp, ← hl, Int.toNat_natCast, BitVec.toNat_ofNat]
  omega

/-- Operands with the same clamped percentage have the same level. -/
theorem level_congr {x y : Word} (h : clamp x.toInt 0 100 = clamp y.toInt 0 100) : level x = level y := by
  rw [level, h, level]

/-- Settles O28, range by range of the clamp. -/
theorem ticksClampTheOperand : Obligations.TicksClampTheOperand := by
  intro x
  have := ticks_toNat x
  refine ⟨fun h => ?_, fun hlo hhi => ?_, fun h => ?_⟩ <;> omega

/-- Settles O29: the bounds are those of a division by 100 of a dividend of at most 4095 * 100 + 50. -/
theorem levelRoundsHalfUp : Obligations.LevelRoundsHalfUp := by
  intro x l hl
  have hlevel := level_toNat hl
  refine ⟨hlevel, ?_, ?_, ?_⟩ <;> omega

/-- Settles O30: between the ends the clamp is the identity, and outside it is the nearer end. -/
theorem levelProperties : Obligations.LevelProperties := by
  refine ⟨by decide, by decide, fun x y hx hxy hy => ?_, fun x hx => level_congr ?_, fun x hx => level_congr ?_⟩
  · have hlx := level_toNat (x := x) (l := x.toInt.toNat) (by omega)
    have hly := level_toNat (x := y) (l := y.toInt.toNat) (by omega)
    rw [hlx, hly]
    omega
  · simp only [clamp, BitVec.toInt_zero]
    omega
  · have h100 : (100#32).toInt = 100 := by decide
    simp only [clamp, h100]
    omega

end Sys2Proof.Machine

/-! ## The display and keypad unit's commands (42_display_keypad R170 to R182) -/

namespace Sys2Proof.Machine

/-! ### Detection and initialisation (R173, R174) -/

/-- Settles O31: the command is `detectUnit` of the display unit. -/
theorem dispDetectFindsTheFirstCandidate : Obligations.DispDetectFindsTheFirstCandidate :=
  fun s b => ⟨decode_encode (i := .dispDetect b) rfl, detects_detectUnit .disp _ _ b s⟩

/-- Settles O32: the command is `initUnit` of the display unit with the two start-up bytes as its messages. -/
theorem dispInitSendsTheStartUpBytes : Obligations.DispInitSendsTheStartUpBytes :=
  fun s => ⟨decode_encode (i := .dispInit) rfl, fun hd => congrArg _ (initUnit_of_not_det (u := .disp) hd _),
    fun hd => writesThen_initUnit .disp _ s hd⟩

/-! ### Digits and characters (R172, R175 to R177) -/

/-- The four digits in slot order, each as R172 lists it. -/
theorem digitMsgs_eq (cfg : Params) (dbuf : Vector Bitmap 4) :
    digitMsgs cfg dbuf =
      [digitWrite cfg 0 dbuf[0], digitWrite cfg 1 dbuf[1], digitWrite cfg 2 dbuf[2], digitWrite cfg 3 dbuf[3]] := by
  simp only [digitMsgs, digitMsg_eq]
  rfl

/-- Settles O33: with `init` set the command is `showDigits` of the blank buffer. -/
theorem dispClearBlanksTheDigits : Obligations.DispClearBlanksTheDigits := by
  refine fun s => ⟨decode_encode (i := .dispClear) rfl, fun hi => ?_, fun hi => ?_⟩
  · simp only [exec, execDispClear, hi]
    rfl
  · simp only [exec, execDispClear, hi, digitMsgs_eq]
    exact writesThen_showDigits blankDigits _ _ s

/-- Showing a character: its slot takes the bitmap, that digit is sent, and RESULT is the bitmap (R176, R177). -/
theorem writesThen_showChar (slot : Fin 4) (c : Byte) (s : State) :
    WritesThen { s.setSel s.recDisp.bus (some s.recDisp.addr) with dbuf := s.dbuf.set slot (charBitmap s.cfg c) }
      s.recDisp.bus s.recDisp.addr [digitWrite s.cfg slot (charBitmap s.cfg c)]
      (withResult (BitVec.ofNat 32 (charBitmap s.cfg c).toNat)) (.next (showChar slot c s)) := by
  have hslot : (s.dbuf.set slot (charBitmap s.cfg c))[slot] = charBitmap s.cfg c := Vector.getElem_set_self slot.isLt
  simp only [showChar, digitMsg_eq, hslot, BitVec.ofNat_toNat]
  exact writesThen_showDigits _ _ _ s

theorem leftSlot_none {idx : Byte} (h : 3 < idx.toNat) : leftSlot idx = none := dif_neg (by omega)

/-- Counted from the left, the index is the slot (R176). -/
theorem leftSlot_some {idx : Byte} {slot : Fin 4} (h : slot.val = idx.toNat) : leftSlot idx = some slot := by
  rw [leftSlot, dif_pos (by omega), Option.some_inj]
  exact Fin.ext h.symm

theorem rightSlot_none {idx : Byte} (h : 3 < idx.toNat) : rightSlot idx = none := if_neg (by omega)

/-- Counted from the right, index and slot add up to 3 (R177). -/
theorem rightSlot_some {idx : Byte} {slot : Fin 4} (h : slot.val + idx.toNat = 3) : rightSlot idx = some slot := by
  rw [rightSlot, if_pos (by omega), Option.some_inj]
  exact Fin.ext (by simp only; omega)

/-- Settles O34: the index is checked, then `init`; then the command is `showChar` at the slot of the index. -/
theorem dispCharLeftWritesTheSlot : Obligations.DispCharLeftWritesTheSlot := by
  intro s idx c
  refine ⟨decode_encode (i := .dispCharL idx c) rfl, fun hidx => ?_, fun hidx hi => ?_, fun hi slot hslot => ?_⟩
  · simp only [exec, execDispCharL, leftSlot_none hidx]
    rfl
  · simp only [exec, execDispCharL, leftSlot_some (slot := ⟨idx.toNat, by omega⟩) rfl, hi]
    rfl
  · simp only [exec, execDispCharL, leftSlot_some hslot, hi]
    exact writesThen_showChar slot c s

/-- Settles O35: as DISP_CHAR_L, with the slot counted from the right. -/
theorem dispCharRightWritesTheSlot : Obligations.DispCharRightWritesTheSlot := by
  intro s idx c
  refine ⟨decode_encode (i := .dispCharR idx c) rfl, fun hidx => ?_, fun hidx hi => ?_, fun hi slot hslot => ?_⟩
  · simp only [exec, execDispCharR, rightSlot_none hidx]
    rfl
  · simp only [exec, execDispCharR, rightSlot_some (slot := ⟨3 - idx.toNat, by omega⟩) (Nat.sub_add_cancel hidx), hi]
    rfl
  · simp only [exec, execDispCharR, rightSlot_some hslot, hi]
    exact writesThen_showChar slot c s

/-! ### Texts (R178, R179) -/

/-- A slot of the layout is the bitmap at its place in the list. -/
theorem layout_getElem (cfg : Params) (t : List Byte) (right : Bool) (i : Fin 4) :
    (layout cfg t right)[i] = (layoutList cfg t right).getD i 0x0000#16 := by
  match i with
  | 0 | 1 | 2 | 3 => rfl

section
variable {cfg : Params} {t : List Byte}

/-- A long text aligned right is cut at its front. -/
theorem layoutList_right_cut (h : 4 ≤ t.length) :
    layoutList cfg t true = (t.map (charBitmap cfg)).drop (t.length - 4) := by
  simp only [layoutList, if_pos h, if_true]

/-- A long text aligned left is cut at its end. -/
theorem layoutList_left_cut (h : 4 ≤ t.length) : layoutList cfg t false = (t.map (charBitmap cfg)).take 4 := by
  simp only [layoutList, if_pos h, Bool.false_eq_true, if_false]

/-- A short text aligned right has its blanks in front. -/
theorem layoutList_right_pad (h : t.length < 4) :
    layoutList cfg t true = List.replicate (4 - t.length) 0x0000#16 ++ t.map (charBitmap cfg) := by
  simp only [layoutList, if_neg h.not_ge, if_true]

/-- A short text aligned left has its blanks behind. -/
theorem layoutList_left_pad (h : t.length < 4) :
    layoutList cfg t false = t.map (charBitmap cfg) ++ List.replicate (4 - t.length) 0x0000#16 := by
  simp only [layoutList, if_neg h.not_ge, Bool.false_eq_true, if_false]

end

/-- Settles O36, by the side each alignment cuts or pads. -/
theorem layoutAlignsAndCuts : Obligations.LayoutAlignsAndCuts := by
  intro cfg t i
  simp only [layout_getElem]
  refine ⟨fun h => ⟨?_, ?_⟩, fun h => ⟨fun hi => ?_, fun hi hlt => ?_, fun hi => ?_, fun hi => ?_⟩⟩
  · rw [layoutList_right_cut h]
    have hlt : t.length - 4 + i.val < t.length := by omega
    simp [hlt]
  · rw [layoutList_left_cut h]
    have hlt : i.val < t.length := by omega
    simp [hlt]
  · rw [layoutList_right_pad h, List.getD_append _ _ _ _ (by simpa using hi)]
    simp
  · rw [layoutList_right_pad h, List.getD_append_right _ _ _ _ (by simpa using hi)]
    simp [hlt]
  · rw [layoutList_left_pad h, List.getD_append _ _ _ _ (by simpa using hi)]
    simp [hi]
  · rw [layoutList_left_pad h, List.getD_append_right _ _ _ _ (by simpa using hi)]
    simp

/-- Settles O37: the length is checked, then `init`; then the command is `showDigits` of the layout of the DATA bytes. -/
theorem dispStringShowsTheLayout : Obligations.DispStringShowsTheLayout := by
  intro s right
  refine ⟨decode_encode (i := .dispString right) rfl, fun hlen => ?_, fun hlen hi => ?_, fun hlen hi => ?_⟩
  · simp only [exec, execDispString, if_pos hlen]
    rfl
  · simp only [exec, execDispString, if_neg hlen.not_gt, hi]
    rfl
  · simp only [exec, execDispString, if_neg hlen.not_gt, hi, readBytes_zero, digitMsgs_eq]
    exact writesThen_showDigits _ _ _ s

/-! ### The keypad (R180 to R182) -/

/-- Key (r, c) is on the keypad and down: bit c of the little-endian word of row r is 1 (R180, R181). -/
abbrev KeyPressed (cfg : Params) (d : List Byte) (r c : Nat) : Prop :=
  r < cfg.keyRows ∧ c < cfg.keyCols ∧
    ((d.getD (2 * r) 0#8).toNat + 256 * (d.getD (2 * r + 1) 0#8).toNat).testBit c = true

theorem keyRow_toNat (d : List Byte) (r : Nat) :
    (keyRow d r).toNat = (d.getD (2 * r) 0#8).toNat + 256 * (d.getD (2 * r + 1) 0#8).toNat := by
  rw [keyRow, BitVec.toNat_append, ← Nat.shiftLeft_add_eq_or_of_lt (d.getD (2 * r) 0#8).isLt, Nat.shiftLeft_eq]
  omega

theorem mem_keyOrder {cfg : Params} {r c : Nat} : (r, c) ∈ keyOrder cfg ↔ r < cfg.keyRows ∧ c < cfg.keyCols := by
  simp [keyOrder]

/-- A pressed key is one the decode looks at and finds down. -/
theorem keyPressed_iff {cfg : Params} {d : List Byte} {r c : Nat} :
    KeyPressed cfg d r c ↔ (r, c) ∈ keyOrder cfg ∧ (keyRow d r).getLsbD c = true := by
  rw [mem_keyOrder, BitVec.getLsbD, keyRow_toNat, and_assoc]

/-- The decode looks at the keys by rising identifier: column by column in a row, and a row's last before the next one's
first key. -/
theorem keyOrder_pairwise (cfg : Params) :
    (keyOrder cfg).Pairwise (fun k l => k.1 * cfg.keyCols + k.2 < l.1 * cfg.keyCols + l.2) := by
  refine List.pairwise_flatMap.mpr ⟨fun r _ => ?_, List.pairwise_lt_range.imp fun {r r'} hr => ?_⟩
  · rw [List.pairwise_map]
    exact List.pairwise_lt_range.imp fun hc => Nat.add_lt_add_left hc _
  · simp only [List.mem_map, List.mem_range]
    rintro _ ⟨c, hc, rfl⟩ _ ⟨c', _, rfl⟩
    calc r * cfg.keyCols + c < (r + 1) * cfg.keyCols := by rw [Nat.succ_mul]; omega
      _ ≤ r' * cfg.keyCols := Nat.mul_le_mul_right _ hr
      _ ≤ r' * cfg.keyCols + c' := Nat.le_add_right _ _

theorem decodeKey_none {cfg : Params} {d : List Byte} (h : ∀ r c, ¬ KeyPressed cfg d r c) : decodeKey cfg d = 0 := by
  have hnone : (keyOrder cfg).find? (fun k => (keyRow d k.1).getLsbD k.2) = none :=
    List.find?_eq_none.mpr fun k hk hdown => h k.1 k.2 (keyPressed_iff.mpr ⟨hk, hdown⟩)
  rw [decodeKey, hnone]

/-- The key found first is pressed, and no pressed key has a smaller identifier. -/
theorem decodeKey_some {cfg : Params} {d : List Byte} {r c : Nat} (h : KeyPressed cfg d r c) :
    ∃ r' c', KeyPressed cfg d r' c' ∧ r' * cfg.keyCols + c' ≤ r * cfg.keyCols + c ∧
      decodeKey cfg d = 1 + r' * cfg.keyCols + c' := by
  obtain ⟨hmem, hdown⟩ := keyPressed_iff.mp h
  cases hfind : (keyOrder cfg).find? (fun k => (keyRow d k.1).getLsbD k.2) with
  | none =>
    have hup := List.find?_eq_none.mp hfind (r, c) hmem
    exact absurd hdown hup
  | some k =>
    obtain ⟨hkdown, before, after, horder, hbefore⟩ := List.find?_eq_some_iff_append.mp hfind
    refine ⟨k.1, k.2, keyPressed_iff.mpr ⟨List.mem_of_find?_eq_some hfind, hkdown⟩, ?_, by rw [decodeKey, hfind]⟩
    have hrise := keyOrder_pairwise cfg
    rw [horder] at hmem hrise
    obtain ⟨-, hrise, -⟩ := List.pairwise_append.mp hrise
    rcases List.mem_append.mp hmem with hin | hin
    · exact absurd hdown (by simpa using hbefore _ hin)
    · rcases List.mem_cons.mp hin with rfl | hin
      · exact le_rfl
      · exact (List.rel_of_pairwise_cons hrise hin).le

/-- Settles O38: the first key found has the smallest identifier pressed. -/
theorem keyDecodeTakesTheLowestKey : Obligations.KeyDecodeTakesTheLowestKey := by
  intro cfg d
  refine ⟨decodeKey_none, fun r c h hleast => ?_⟩
  obtain ⟨r', c', hpressed, hle, heq⟩ := decodeKey_some h
  have := hleast r' c' hpressed
  omega

/-- Settles O39, by the response to the one read. -/
theorem readKeyDecodesTheKeypad : Obligations.ReadKeyDecodesTheKeypad := by
  refine fun s => ⟨decode_encode (i := .readKey) rfl, fun hi => ?_, fun hi => ⟨fun d hd => ⟨?_, ?_⟩, fun hf => ?_⟩⟩
  · simp only [exec, execReadKey, hi]
    rfl
  · simp only [exec, execReadKey, hi, i2cResponse, i2cState, select_env, hd]
    rfl
  · exact response_ok_length hd
  · simp only [exec, execReadKey, hi, i2cResponse, i2cState, select_env, hf]
    rfl

/-! ### The default character map (R170, R171) -/

/-- A byte is blank or has the bitmap of a row of its own. -/
theorem bitmapIn_blank_or_mem (table : List (Byte × Bitmap)) (c : Byte) :
    bitmapIn table c = 0x0000#16 ∨ (c, bitmapIn table c) ∈ table := by
  induction table with
  | nil => exact .inl rfl
  | cons e table ih =>
    unfold bitmapIn
    split
    · next he => subst he; exact .inr List.mem_cons_self
    · exact ih.imp_right (List.mem_cons_of_mem e)

/-- Where no character has two rows, each row gives its character's bitmap. -/
theorem bitmapIn_of_mem {table : List (Byte × Bitmap)} (hd : (table.map Prod.fst).Nodup) {e : Byte × Bitmap}
    (he : e ∈ table) : bitmapIn table e.1 = e.2 := by
  induction table with
  | nil => exact absurd he List.not_mem_nil
  | cons f table ih =>
    obtain ⟨hf, hd⟩ := List.nodup_cons.mp hd
    rcases List.mem_cons.mp he with rfl | he
    · exact if_pos rfl
    · have hne : f.1 ≠ e.1 := fun h => hf (h ▸ List.mem_map_of_mem he)
      exact (if_neg hne).trans (ih hd he)

/-- Only '-', the digits and the upper-case letters have a bitmap that is not blank. -/
theorem defaultCharmap_chars : ∀ e ∈ defaultCharmap,
    e.2 = 0x0000#16 ∨ e.1.toNat = 0x2D ∨ (0x30 ≤ e.1.toNat ∧ e.1.toNat ≤ 0x39) ∨
      (0x41 ≤ e.1.toNat ∧ e.1.toNat ≤ 0x5A) := by
  simp [defaultCharmap]

theorem defaultCharmap_bit15 : ∀ e ∈ defaultCharmap, e.2.getLsbD 15 = false := by
  simp [defaultCharmap]

theorem defaultCharmap_nodup : (defaultCharmap.map Prod.fst).Nodup := by decide

theorem defaultCharBitmap_blank_or_mem (c : Byte) :
    charBitmap State.reset.cfg c = 0x0000#16 ∨ (c, charBitmap State.reset.cfg c) ∈ defaultCharmap :=
  bitmapIn_blank_or_mem defaultCharmap c

theorem defaultCharBitmap_blank {c : Byte} (hdash : c.toNat ≠ 0x2D)
    (h : c.toNat < 0x30 ∨ (0x3A ≤ c.toNat ∧ c.toNat ≤ 0x40) ∨ 0x5A < c.toNat) :
    charBitmap State.reset.cfg c = 0x0000#16 := by
  rcases defaultCharBitmap_blank_or_mem c with hblank | hmem
  · exact hblank
  · have hchars := defaultCharmap_chars _ hmem
    simp only at hchars
    exact hchars.resolve_right (by omega)

theorem defaultCharBitmap_bit15 (c : Byte) : (charBitmap State.reset.cfg c).getLsbD 15 = false := by
  rcases defaultCharBitmap_blank_or_mem c with hblank | hmem
  · rw [hblank]; rfl
  · exact defaultCharmap_bit15 (c, charBitmap State.reset.cfg c) hmem

/-- Settles O40: the table has one row per character, and its rows say which characters are not blank. -/
theorem defaultCharacterMapBlanksTheRest : Obligations.DefaultCharacterMapBlanksTheRest :=
  ⟨fun _ he => bitmapIn_of_mem defaultCharmap_nodup he, fun _ => defaultCharBitmap_blank, defaultCharBitmap_bit15,
    fun _ hlo hhi => defaultCharBitmap_blank (by omega) (by omega)⟩

end Sys2Proof.Machine

/-! ## The manager (43_manager R210 to R212)

MGR_CLOSE closes every bus and leaves nothing for a second one. The two discovery procedures are followed command by command:
`scan_buses` by what one BUS_OPEN does to the open ports, `scan_devices` by what one unit's DETECT and INIT do on one bus. -/

namespace Sys2Proof.Machine

/-! ### MGR_CLOSE (R210) -/

/-- Closing buses that are not open does nothing. -/
theorem closeBuses_closed {n : Nat} {s : State} (h : ∀ b < n, (s.port (BitVec.ofNat 4 b)).opened = false) :
    closeBuses n s = s := by
  induction n with
  | zero => rfl
  | succ n ih => rw [closeBuses, ih fun b hb => h b (by omega), closeBus_closed (h n (by omega))]

/-- No port below the number of buses closed is open. -/
theorem closeBuses_not_opened {n : Nat} (hn : n ≤ 16) (s : State) {b : Nat} (hb : b < n) :
    ((closeBuses n s).port (BitVec.ofNat 4 b)).opened = false := by
  have hlt : (BitVec.ofNat 4 b).toNat < n := by rw [BitVec.toNat_ofNat]; omega
  rw [closeBuses_port n hn]
  split
  · rfl
  · next hc => exact Bool.eq_false_of_not_eq_true fun ho => hc ⟨hlt, ho⟩

/-- What MGR_CLOSE leaves: every bus closed, both records cleared, the buffer blank, success. -/
def mgrClosed (s : State) : State :=
  { s with
    ports := (closeBuses s.cfg.nbus.val s).ports, trace := (closeBuses s.cfg.nbus.val s).trace,
    recPwm := DevRec.cleared, recDisp := DevRec.cleared, dbuf := blankDigits, status := 0#32, result := 0#32 }

theorem exec_mgrClose (s : State) : exec .mgrClose s = .next (mgrClosed s) := by
  simp only [exec, execMgrClose]
  rw [closeBuses_frame]
  rfl

/-- A second MGR_CLOSE finds no open bus. -/
theorem mgrClosed_mgrClosed (s : State) : mgrClosed (mgrClosed s) = mgrClosed s := by
  have hn : s.cfg.nbus.val ≤ 16 := by omega
  have h : closeBuses s.cfg.nbus.val (mgrClosed s) = mgrClosed s :=
    closeBuses_closed fun b hb => closeBuses_not_opened hn s hb
  conv_lhs => rw [mgrClosed]
  rw [show (mgrClosed s).cfg = s.cfg from rfl, h]
  rfl

/-- Settles O21: the ports and the trace are those `closeBuses_port` and `closeBuses_trace` give, and a second close is the
identity. -/
theorem mgrCloseReleasesEverything : Obligations.MgrCloseReleasesEverything := by
  intro s
  have hn : s.cfg.nbus.val ≤ 16 := by omega
  refine ⟨decode_encode (i := .mgrClose) rfl, mgrClosed s, exec_mgrClose s, fun p => closeBuses_port _ hn s p,
    closeBuses_trace _ hn s, rfl, ?_⟩
  rw [exec_mgrClose, mgrClosed_mgrClosed]

/-! ### Commands the host issues (R62, R87) -/

/-- Issuing a command runs it after CMD took its word. -/
theorem runCommand_eq_exec (i : Instr) (s : State) : runCommand i s = exec i { s with cmd := encode i } :=
  runCommand_eq (decode_encode (Instr.wf_eq_true i)) s

theorem runCommand_next (i : Instr) (s : State) : ∃ t, runCommand i s = .next t := by
  rw [runCommand_eq_exec]
  exact exec_next i _

/-- Two procedures after one another answer a next state by way of the state between them. -/
theorem andThen_eq_next {o : Host.Outcome State Fault Refusal} {f : State → Host.Outcome State Fault Refusal} {t : State} :
    andThen o f = .next t ↔ ∃ m, o = .next m ∧ f m = .next t := by
  cases o <;> simp [andThen]

/-- Procedures that never stop do not stop one after the other. -/
theorem andThen_next {o : Host.Outcome State Fault Refusal} {f : State → Host.Outcome State Fault Refusal}
    (ho : ∃ t, o = .next t) (hf : ∀ s, ∃ t, f s = .next t) : ∃ t, andThen o f = .next t := by
  obtain ⟨m, rfl⟩ := ho
  exact hf m

/-! ### `scan_buses` (R211) -/

/-- No bus is held by another owner: no answer to `ExtHeld` is laid down, and reference devices answer (R236). -/
def NoneHeld (e : Env) : Prop := e.held = [] ∧ ∃ ds, e.devs = some ds

theorem NoneHeld.isHeld {e : Env} (h : NoneHeld e) : e.isHeld = false := by
  obtain ⟨hh, ds, hd⟩ := h
  simp only [Env.isHeld, hh, hd, List.head?_nil]

theorem NoneHeld.heldAnswered {e : Env} (h : NoneHeld e) : NoneHeld e.heldAnswered := by
  obtain ⟨hh, ds, hd⟩ := h
  exact ⟨by simp only [Env.heldAnswered, hh, List.tail_nil], ds, hd⟩

/-- Bus field `b` names port `p`, one of the NBUS ports, and the platform has the bus (R23, R102). -/
def canOpen (cfg : Params) (p : BusIx) (b : Byte) : Bool :=
  decide (b.toNat = p.toNat ∧ p.toNat < cfg.nbus.val) && cfg.busPresent[p.toFin]

theorem canOpen_iff {cfg : Params} {p : BusIx} {b : Byte} :
    canOpen cfg p b = true ↔ b.toNat < cfg.nbus.val ∧ portOf b = p ∧ cfg.busPresent[p.toFin] = true := by
  have hport : b.toNat < cfg.nbus.val → (portOf b = p ↔ b.toNat = p.toNat) := fun hv => by
    have hn : cfg.nbus.val ≤ 16 := by omega
    rw [← BitVec.toNat_inj, portOf, BitVec.toNat_setWidth, Nat.mod_eq_of_lt (by omega)]
  simp only [canOpen, Bool.and_eq_true, decide_eq_true_eq]
  constructor
  · rintro ⟨⟨hbp, hp⟩, hpres⟩
    have hv : b.toNat < cfg.nbus.val := by omega
    exact ⟨hv, (hport hv).mpr hbp, hpres⟩
  · rintro ⟨hv, hbp, hpres⟩
    have hnum := (hport hv).mp hbp
    exact ⟨⟨hnum, by omega⟩, hpres⟩

/-- BUS_OPEN where no bus is held elsewhere opens its port, if it can be opened, and leaves every other port as it was. -/
theorem exec_busOpen_opened (b : Byte) {s : State} (h : NoneHeld s.env) :
    ∃ t, exec (.busOpen b) s = .next t ∧ NoneHeld t.env ∧
      ∀ p, (t.port p).opened = ((s.port p).opened || canOpen s.cfg p b) := by
  obtain ⟨_, hmissing, habsent, halready, hfree⟩ := busOpenAcquiresThePort s b
  by_cases hv : b.toNat < s.cfg.nbus.val
  · cases hp : s.cfg.busPresent[(portOf b).toFin]
    · refine ⟨_, habsent hv hp, h, fun p => (Bool.or_eq_left_iff_imp.mpr fun hc => ?_).symm⟩
      obtain ⟨_, rfl, hpres⟩ := canOpen_iff.mp hc
      exact absurd (hp.symm.trans hpres) (by decide)
    · cases ho : (s.port (portOf b)).opened
      · refine ⟨_, (hfree hv hp ho).2 h.isHeld, h.heldAnswered, fun p => ?_⟩
        refine (congrArg Port.opened (port_setPort s (portOf b) p _)).trans ?_
        split
        · next hbp => rw [canOpen_iff.mpr ⟨hv, hbp, hbp ▸ hp⟩, Bool.or_true]
        · next hbp => rw [Bool.eq_false_of_not_eq_true fun hc => hbp (canOpen_iff.mp hc).2.1, Bool.or_false]
      · refine ⟨_, halready hv ho, h, fun p => (Bool.or_eq_left_iff_imp.mpr fun hc => ?_).symm⟩
        obtain ⟨_, rfl, _⟩ := canOpen_iff.mp hc
        exact ho
  · exact ⟨_, hmissing hv, h, fun p => (Bool.or_eq_left_iff_imp.mpr fun hc => absurd (canOpen_iff.mp hc).1 hv).symm⟩

/-- BUS_OPEN of each bus of a list opens those that can be opened. -/
theorem openEach_opened (bs : List Byte) {s : State} (h : NoneHeld s.env) :
    ∃ t, openEach bs s = .next t ∧ ∀ p, (t.port p).opened = ((s.port p).opened || bs.any (canOpen s.cfg p)) := by
  induction bs generalizing s with
  | nil => exact ⟨s, rfl, fun p => (Bool.or_false _).symm⟩
  | cons b bs ih =>
    obtain ⟨m, hm, hheld, hports⟩ := exec_busOpen_opened b (s := { s with cmd := encode (.busOpen b) }) h
    have hcfg : m.cfg = s.cfg := (exec_cfg hm).trans rfl
    obtain ⟨t, ht, hrest⟩ := ih hheld
    refine ⟨t, andThen_eq_next.mpr ⟨m, (runCommand_eq_exec _ s).trans hm, ht⟩, fun p => ?_⟩
    rw [hrest, hports, hcfg, List.any_cons, Bool.or_assoc]
    rfl

theorem mem_busRange {lo hi b : Byte} : b ∈ busRange lo hi ↔ lo.toNat ≤ b.toNat ∧ b.toNat ≤ hi.toNat := by
  have := hi.isLt
  simp only [busRange, List.mem_map, List.mem_range']
  constructor
  · rintro ⟨_, ⟨i, hi, rfl⟩, rfl⟩
    rw [BitVec.toNat_ofNat]
    omega
  · rintro ⟨hlo, hhi⟩
    exact ⟨b.toNat, ⟨b.toNat - lo.toNat, by omega, by omega⟩, by rw [BitVec.ofNat_toNat, BitVec.setWidth_eq]⟩

/-- Some bus field of the range can open port `p` exactly when `p` lies in the range. -/
theorem any_busRange_canOpen (cfg : Params) (lo hi : Byte) (p : BusIx) :
    (busRange lo hi).any (canOpen cfg p) =
      (decide (lo.toNat ≤ p.toNat ∧ p.toNat ≤ hi.toNat ∧ p.toNat < cfg.nbus.val) && cfg.busPresent[p.toFin]) := by
  rw [Bool.eq_iff_iff, List.any_eq_true]
  simp only [canOpen, mem_busRange, Bool.and_eq_true, decide_eq_true_eq]
  constructor
  · rintro ⟨b, ⟨hlo, hhi⟩, ⟨hbp, hn⟩, hpres⟩
    exact ⟨by omega, hpres⟩
  · rintro ⟨⟨hlo, hhi, hn⟩, hpres⟩
    have hw : (p.setWidth 8).toNat = p.toNat := by rw [BitVec.toNat_setWidth]; omega
    exact ⟨p.setWidth 8, by omega, ⟨hw, hn⟩, hpres⟩

/-- Settles O59, by induction on the buses of the range: each BUS_OPEN answers a next state and opens its port if it can. -/
theorem scanBusesOpensEveryFreeBus : Obligations.ScanBusesOpensEveryFreeBus := by
  intro s ds lo hi hdevs hheld
  obtain ⟨t, ht, hports⟩ := openEach_opened (busRange lo hi) (s := s) ⟨hheld, ds, hdevs⟩
  exact ⟨t, ht, fun p => by rw [hports, any_busRange_canOpen]⟩

/-! ### `scan_devices` on one bus and one unit (R212) -/

/-- What `scan_devices` does about unit `u` on one bus: nothing where it is registered, else its DETECT and INIT. -/
def scanUnit (u : Chip) (b : Byte) (s : State) : Host.Outcome State Fault Refusal :=
  if (s.unitRec u).init then .next s else detectThenInit (detectInstr u b) (initInstr u) s

theorem scanDevicesOn_eq_scanUnit (b : Byte) (s : State) :
    scanDevicesOn b s = andThen (scanUnit .pwm b s) (scanUnit .disp b) := scanDevicesOn_eq b s

theorem scanUnit_registered {u : Chip} {s : State} (h : (s.unitRec u).init = true) (b : Byte) : scanUnit u b s = .next s :=
  if_pos h

theorem scanUnit_unregistered {u : Chip} {s : State} (h : (s.unitRec u).init = false) (b : Byte) :
    scanUnit u b s = detectThenInit (detectInstr u b) (initInstr u) s :=
  if_neg (by rw [h]; decide)

/-- A unit's DETECT and INIT never stop. -/
theorem detectThenInit_next (detect init : Instr) (s : State) : ∃ t, detectThenInit detect init s = .next t := by
  refine andThen_next (runCommand_next detect s) fun t => ?_
  split
  · exact runCommand_next init t
  · exact ⟨t, rfl⟩

theorem scanUnit_next (u : Chip) (b : Byte) (s : State) : ∃ t, scanUnit u b s = .next t := by
  unfold scanUnit
  split
  · exact ⟨s, rfl⟩
  · exact detectThenInit_next _ _ s

theorem scanDevicesOn_next (b : Byte) (s : State) : ∃ t, scanDevicesOn b s = .next t := by
  rw [scanDevicesOn_eq_scanUnit]
  exact andThen_next (scanUnit_next .pwm b s) (scanUnit_next .disp b)

theorem scanDevicesOnEach_next (bs : List Byte) (s : State) : ∃ t, scanDevicesOnEach bs s = .next t := by
  induction bs generalizing s with
  | nil => exact ⟨s, rfl⟩
  | cons b bs ih => exact andThen_next (scanDevicesOn_next b s) ih

/-! ### What the scan leaves alone -/

/-- From `s` to `t` the parameters, which ports are open, where reference devices stand, and the records of the units of `K`
are kept. -/
structure Keeps (K : Chip → Prop) (s t : State) : Prop where
  cfg : t.cfg = s.cfg
  opened : ∀ p, (t.port p).opened = (s.port p).opened
  devices : ∀ P, DevicesAt s.env P → DevicesAt t.env P
  records : ∀ u, K u → t.unitRec u = s.unitRec u

section
variable {K L : Chip → Prop} {s m t : State}

theorem Keeps.refl (K : Chip → Prop) (s : State) : Keeps K s s := ⟨rfl, fun _ => rfl, fun _ h => h, fun _ _ => rfl⟩

theorem Keeps.trans (h : Keeps K s m) (h' : Keeps K m t) : Keeps K s t where
  cfg := h'.cfg.trans h.cfg
  opened p := (h'.opened p).trans (h.opened p)
  devices P hP := h'.devices P (h.devices P hP)
  records u hu := (h'.records u hu).trans (h.records u hu)

theorem Keeps.mono (h : Keeps K s t) (hKL : ∀ u, L u → K u) : Keeps L s t :=
  { h with records := fun u hu => h.records u (hKL u hu) }

theorem Keeps.openedField (h : Keeps K s t) {b : Byte} (ho : Opened s b) : Opened t b :=
  ⟨by rw [h.cfg]; exact ho.1, by rw [h.opened]; exact ho.2⟩

end

/-- A command that changes no port's openness (R23). -/
theorem exec_opened {i : Instr} {s t : State} (h : exec i s = .next t) (hm : i ≠ .mgrClose) (ho : ∀ b, i ≠ .busOpen b)
    (hc : ∀ b, i ≠ .busClose b) (p : BusIx) : (t.port p).opened = (s.port p).opened := by
  have hport := exec_port h p
  generalize t.port p = v at hport ⊢
  cases hport with
  | untouched | named | driven => rfl
  | mgrClosed => exact absurd rfl hm
  | opened => exact absurd rfl (ho _)
  | closed => exact absurd rfl (hc _)

theorem detectUnit_devices (u : Chip) (cands : List Addr) (reg b : Byte) {s : State} {P : BusIx → Addr → Prop}
    (h : DevicesAt s.env P) : DevicesAt (detectUnit u cands reg b s).env P := by
  rcases detectUnit_cases u cands reg b s with ⟨_, he⟩ | ⟨_, tried, _, ⟨a, _, he⟩ | he⟩
  · rw [he, raise_env, clearRec_env]; exact h
  · rw [he]; exact h.after _ _
  · rw [he]; exact h.after _ _

theorem initUnit_devices (u : Chip) (msgs : List (List Byte)) {s : State} {P : BusIx → Addr → Prop}
    (h : DevicesAt s.env P) : DevicesAt (initUnit u msgs s).env P := by
  unfold initUnit
  split
  · obtain ⟨sent, _, hst, _⟩ := sendWrites_spec (s.unitRec u).bus (s.unitRec u).addr msgs
      (select u (s.setRec u { s.unitRec u with init := false }))
    have hafter := h.after (s.unitRec u).bus (sent.map (.write (s.unitRec u).addr))
    simp only [apply_ite State.env, finish_env, raise_env, setRec_env, ite_self, hst, select_env]
    exact hafter
  · exact h

/-- The command is the unit's DETECT or INIT. -/
def IsDiscovery (u : Chip) (i : Instr) : Prop := i = initInstr u ∨ ∃ b, i = detectInstr u b

theorem IsDiscovery.ne_busCommand {u : Chip} {i : Instr} (h : IsDiscovery u i) :
    i ≠ .mgrClose ∧ (∀ b, i ≠ .busOpen b) ∧ ∀ b, i ≠ .busClose b := by
  rcases h with rfl | ⟨b, rfl⟩
  · cases u <;> simp [initInstr]
  · cases u <;> simp [detectInstr]

theorem IsDiscovery.ne_other {u v : Chip} {i : Instr} (h : IsDiscovery u i) (hv : v ≠ u) :
    (∀ b, i ≠ v.detectCmd b) ∧ i ≠ v.initCmd := by
  cases u <;> cases v
  case pwm.pwm | disp.disp => exact absurd rfl hv
  all_goals rcases h with rfl | ⟨b, rfl⟩ <;> simp [initInstr, detectInstr, Chip.initCmd, Chip.detectCmd]

/-- The host's DETECT or INIT of a unit keeps the other unit's record. -/
theorem IsDiscovery.runCommand_keeps {u : Chip} {i : Instr} {s t : State} (hi : IsDiscovery u i)
    (h : runCommand i s = .next t) : Keeps (· ≠ u) s t := by
  have he : exec i { s with cmd := encode i } = .next t := (runCommand_eq_exec i s).symm.trans h
  obtain ⟨hm, ho, hc⟩ := hi.ne_busCommand
  refine ⟨(exec_cfg he).trans rfl, fun p => (exec_opened he hm ho hc p).trans rfl, fun P hP => ?devices,
    fun v hv => ?record⟩
  case devices =>
    rcases hi with rfl | ⟨b, rfl⟩
    · rw [runCommand_init] at h
      cases h
      exact initUnit_devices u _ hP
    · rw [runCommand_detect] at h
      cases h
      exact detectUnit_devices u _ _ b hP
  case record =>
    obtain ⟨hd, hinit⟩ := hi.ne_other hv
    exact ((exec_unitRec he v).eq_of_ne hm hc hd hinit).trans (unitRec_congr rfl rfl v)

/-- A unit's DETECT and INIT keep the other unit's record. -/
theorem detectThenInit_keeps {u : Chip} {b : Byte} {s t : State}
    (h : detectThenInit (detectInstr u b) (initInstr u) s = .next t) : Keeps (· ≠ u) s t := by
  obtain ⟨m, hm, ht⟩ := andThen_eq_next.mp h
  have hdetect := IsDiscovery.runCommand_keeps (.inr ⟨b, rfl⟩) hm
  split at ht
  · exact hdetect.trans (IsDiscovery.runCommand_keeps (.inl rfl) ht)
  · cases ht; exact hdetect

theorem scanUnit_keeps {u : Chip} {b : Byte} {s t : State} (h : scanUnit u b s = .next t) : Keeps (· ≠ u) s t := by
  unfold scanUnit at h
  split at h
  · cases h; exact .refl _ s
  · exact detectThenInit_keeps h

/-! ### One bus and both units -/

/-- The scan of one bus is, for either unit, that unit's own scan between two changes that keep its record. -/
theorem scanDevicesOn_around (u : Chip) {b : Byte} {s t : State} (h : scanDevicesOn b s = .next t) :
    ∃ s' t', Keeps (· = u) s s' ∧ scanUnit u b s' = .next t' ∧ Keeps (· = u) t' t := by
  rw [scanDevicesOn_eq_scanUnit] at h
  obtain ⟨m, hm, ht⟩ := andThen_eq_next.mp h
  cases u with
  | pwm => exact ⟨s, m, .refl _ s, hm, (scanUnit_keeps ht).mono (by rintro _ rfl; decide)⟩
  | disp => exact ⟨m, t, (scanUnit_keeps hm).mono (by rintro _ rfl; decide), ht, .refl _ t⟩

theorem scanDevicesOn_keepsSetup {b : Byte} {s t : State} (h : scanDevicesOn b s = .next t) : Keeps (fun _ => False) s t := by
  obtain ⟨m, t', hm, hu, ht⟩ := scanDevicesOn_around .pwm h
  exact ((hm.mono nofun).trans ((scanUnit_keeps hu).mono nofun)).trans (ht.mono nofun)

/-- A registered unit keeps its record. -/
theorem scanDevicesOn_keeps_registered {u : Chip} {b : Byte} {s t : State} (hi : (s.unitRec u).init = true)
    (h : scanDevicesOn b s = .next t) : Keeps (· = u) s t := by
  obtain ⟨s', t', hs, hu, ht⟩ := scanDevicesOn_around u h
  rw [scanUnit_registered (by rw [hs.records u rfl]; exact hi)] at hu
  cases hu
  exact hs.trans ht

/-! ### One unit over a list of buses -/

/-- The first of the candidates that stands on bus `p` is `a`, after the candidates `pre`. -/
def FirstThere (P : BusIx → Addr → Prop) (p : BusIx) (cands pre : List Addr) (a : Addr) : Prop :=
  ∃ post, cands = pre ++ a :: post ∧ P p a ∧ ∀ c ∈ pre, ¬ P p c

theorem exists_split_at_first {α : Type} {Q : α → Prop} {l : List α} (h : ∃ x ∈ l, Q x) :
    ∃ pre x post, l = pre ++ x :: post ∧ Q x ∧ ∀ y ∈ pre, ¬ Q y := by
  classical
  obtain ⟨x, hx⟩ := Option.isSome_iff_exists.mp
    (List.find?_isSome (p := fun x => decide (Q x)) |>.mpr (by simpa using h))
  obtain ⟨hQ, pre, post, hl, hpre⟩ := List.find?_eq_some_iff_append.mp hx
  exact ⟨pre, x, post, hl, by simpa using hQ, by simpa using hpre⟩

theorem FirstThere.exists_of_mem {P : BusIx → Addr → Prop} {p : BusIx} {cands : List Addr} (h : ∃ c ∈ cands, P p c) :
    ∃ pre a, FirstThere P p cands pre a := by
  obtain ⟨pre, a, post, hc, ha, hpre⟩ := exists_split_at_first h
  exact ⟨pre, a, post, hc, ha, hpre⟩

section
variable {P : BusIx → Addr → Prop} {u : Chip} {b : Byte} {s t : State}

/-- The record of a unit registered at address `a` of bus `p`. -/
def registeredAt (p : BusIx) (a : Addr) : DevRec := { det := true, init := true, bus := p, addr := a }

/-- A unit with a candidate on the bus is registered at the first one, by the failed reads, the read that is answered and the
writes of its INIT. -/
theorem scanUnit_found (hdev : DevicesAt s.env P) (ho : Opened s b) (hi : (s.unitRec u).init = false)
    {pre : List Addr} {a : Addr} (hfirst : FirstThere P (portOf b) (candidates s.cfg u) pre a)
    (h : scanUnit u b s = .next t) :
    t.unitRec u = registeredAt (portOf b) a ∧
    ∃ v, t.trace = s.trace ++ (pre.map (fun c => .tx (portOf b) (.writeRead c (detectReg s.cfg u) 1) .fail) ++
      [.tx (portOf b) (.writeRead a (detectReg s.cfg u) 1) (.ok [v])] ++ okWrites (portOf b) a (initMsgs s.cfg u)) := by
  obtain ⟨post, hc, ha, hpre⟩ := hfirst
  obtain ⟨t', ht', _, _, hrec, v, htrace⟩ := detectThenInit_found u hdev ho hc ha hpre
  rw [scanUnit_unregistered hi, ht'] at h
  cases h
  exact ⟨hrec, v, by rw [htrace]; simp only [List.append_assoc]⟩

theorem scanUnit_absent (hdev : DevicesAt s.env P) (ho : Opened s b) (hi : (s.unitRec u).init = false)
    (hn : ∀ c ∈ candidates s.cfg u, ¬ P (portOf b) c) (h : scanUnit u b s = .next t) : (t.unitRec u).init = false := by
  obtain ⟨t', ht', _, _, hinit⟩ := detectThenInit_absent u hdev ho hn
  rw [scanUnit_unregistered hi, ht'] at h
  cases h
  exact hinit

theorem scanDevicesOn_found (hdev : DevicesAt s.env P) (ho : Opened s b) (hi : (s.unitRec u).init = false)
    {pre : List Addr} {a : Addr} (hfirst : FirstThere P (portOf b) (candidates s.cfg u) pre a)
    (h : scanDevicesOn b s = .next t) : t.unitRec u = registeredAt (portOf b) a := by
  obtain ⟨s', t', hs, hu, ht⟩ := scanDevicesOn_around u h
  rw [ht.records u rfl]
  exact (scanUnit_found (hs.devices P hdev) (hs.openedField ho) (by rw [hs.records u rfl]; exact hi)
    (by rw [hs.cfg]; exact hfirst) hu).1

theorem scanDevicesOn_absent (hdev : DevicesAt s.env P) (ho : Opened s b) (hi : (s.unitRec u).init = false)
    (hn : ∀ c ∈ candidates s.cfg u, ¬ P (portOf b) c) (h : scanDevicesOn b s = .next t) : (t.unitRec u).init = false := by
  obtain ⟨s', t', hs, hu, ht⟩ := scanDevicesOn_around u h
  rw [ht.records u rfl]
  exact scanUnit_absent (hs.devices P hdev) (hs.openedField ho) (by rw [hs.records u rfl]; exact hi)
    (by rw [hs.cfg]; exact hn) hu

theorem scanDevicesOnEach_keepsSetup {bs : List Byte} (h : scanDevicesOnEach bs s = .next t) :
    Keeps (fun _ => False) s t := by
  induction bs generalizing s with
  | nil => cases h; exact .refl _ _
  | cons b bs ih =>
    obtain ⟨m, hm, ht⟩ := andThen_eq_next.mp h
    exact (scanDevicesOn_keepsSetup hm).trans (ih ht)

theorem scanDevicesOnEach_keeps_registered {bs : List Byte} (hi : (s.unitRec u).init = true)
    (h : scanDevicesOnEach bs s = .next t) : Keeps (· = u) s t := by
  induction bs generalizing s with
  | nil => cases h; exact .refl _ _
  | cons b bs ih =>
    obtain ⟨m, hm, ht⟩ := andThen_eq_next.mp h
    have hkeep := scanDevicesOn_keeps_registered hi hm
    exact hkeep.trans (ih (by rw [hkeep.records u rfl]; exact hi) ht)

/-- Where both units are registered the scan does nothing. -/
theorem scanDevicesOnEach_registered (hp : s.recPwm.init = true) (hd : s.recDisp.init = true) (bs : List Byte) :
    scanDevicesOnEach bs s = .next s := by
  induction bs with
  | nil => rfl
  | cons b bs ih =>
    have hb : scanDevicesOn b s = .next s := by
      rw [scanDevicesOn_eq_scanUnit, scanUnit_registered (u := .pwm) hp]
      exact scanUnit_registered (u := .disp) hd b
    exact andThen_eq_next.mpr ⟨s, hb, ih⟩

/-- A unit with no candidate on any of the buses stays unregistered. -/
theorem scanDevicesOnEach_absent {bs : List Byte} (hdev : DevicesAt s.env P) (ho : ∀ b ∈ bs, Opened s b)
    (hi : (s.unitRec u).init = false) (hn : ∀ b ∈ bs, ∀ c ∈ candidates s.cfg u, ¬ P (portOf b) c)
    (h : scanDevicesOnEach bs s = .next t) : (t.unitRec u).init = false := by
  induction bs generalizing s with
  | nil => cases h; exact hi
  | cons b bs ih =>
    obtain ⟨m, hm, ht⟩ := andThen_eq_next.mp h
    have hkeep := scanDevicesOn_keepsSetup hm
    rw [List.forall_mem_cons] at ho hn
    refine ih (hkeep.devices P hdev) (fun c hc => hkeep.openedField (ho.2 c hc))
      (scanDevicesOn_absent hdev ho.1 hi hn.1 hm) ?_ ht
    rw [hkeep.cfg]
    exact hn.2

/-- A unit is registered at the first candidate of the first bus that carries one. -/
theorem scanDevicesOnEach_found {before after : List Byte} (hdev : DevicesAt s.env P)
    (ho : ∀ c ∈ before ++ b :: after, Opened s c) (hi : (s.unitRec u).init = false)
    (hn : ∀ c ∈ before, ∀ x ∈ candidates s.cfg u, ¬ P (portOf c) x)
    {pre : List Addr} {a : Addr} (hfirst : FirstThere P (portOf b) (candidates s.cfg u) pre a)
    (h : scanDevicesOnEach (before ++ b :: after) s = .next t) : t.unitRec u = registeredAt (portOf b) a := by
  induction before generalizing s with
  | nil =>
    obtain ⟨m, hm, ht⟩ := andThen_eq_next.mp h
    have hrec := scanDevicesOn_found hdev (ho b List.mem_cons_self) hi hfirst hm
    rw [(scanDevicesOnEach_keeps_registered (by rw [hrec]; rfl) ht).records u rfl, hrec]
  | cons c before ih =>
    obtain ⟨m, hm, ht⟩ := andThen_eq_next.mp h
    have hkeep := scanDevicesOn_keepsSetup hm
    rw [List.cons_append, List.forall_mem_cons] at ho
    rw [List.forall_mem_cons] at hn
    refine ih (hkeep.devices P hdev) (fun c hc => hkeep.openedField (ho.2 c hc))
      (scanDevicesOn_absent hdev ho.1 hi hn.1 hm) ?_ ?_ ht
    all_goals rw [hkeep.cfg]
    · exact hn.2
    · exact hfirst

end

/-! ### The open buses -/

/-- The bus field that names a port. -/
def busField (p : BusIx) : Byte := p.setWidth 8

theorem busField_toNat (p : BusIx) : (busField p).toNat = p.toNat := by
  rw [busField, BitVec.toNat_setWidth]; omega

theorem portOf_busField (p : BusIx) : portOf (busField p) = p := by
  apply BitVec.eq_of_toNat_eq
  rw [portOf, BitVec.toNat_setWidth, busField_toNat]; omega

theorem opened_busField {s : State} {p : BusIx} : Opened s (busField p) ↔ OpenBus s p := by
  rw [Opened, busField_toNat, portOf_busField]

theorem openBus_portOf {s : State} {b : Byte} (h : Opened s b) : OpenBus s (portOf b) :=
  ⟨by rw [portOf_toNat h.1]; exact h.1, h.2⟩

theorem mem_openBuses {s : State} {b : Byte} : b ∈ openBuses s ↔ Opened s b := by
  have hn : s.cfg.nbus.val ≤ 16 := by omega
  simp only [openBuses, readReg, List.mem_map, List.mem_filter, List.mem_range]
  constructor
  · rintro ⟨n, ⟨hlt, hbit⟩, rfl⟩
    rw [busOpenView_getLsbD hlt, Bool.and_eq_true, decide_eq_true_eq] at hbit
    have hport : portOf (BitVec.ofNat 8 n) = BitVec.ofNat 4 n := by
      apply BitVec.eq_of_toNat_eq
      rw [portOf, BitVec.toNat_setWidth, BitVec.toNat_ofNat, BitVec.toNat_ofNat]; omega
    exact ⟨by rw [BitVec.toNat_ofNat]; omega, by rw [hport]; exact hbit.2⟩
  · rintro ⟨hlt, hopen⟩
    refine ⟨b.toNat, ⟨by omega, ?_⟩, by rw [BitVec.ofNat_toNat, BitVec.setWidth_eq]⟩
    rw [busOpenView_getLsbD (by omega), BitVec.ofNat_toNat, Bool.and_eq_true]
    exact ⟨decide_eq_true hlt, hopen⟩

theorem openBuses_pairwise (s : State) : (openBuses s).Pairwise (· < ·) := by
  refine List.pairwise_map.mpr (List.Pairwise.imp_of_mem ?_ (List.pairwise_lt_range.filter _))
  intro a b ha hb hab
  have ha := List.mem_range.mp (List.mem_of_mem_filter ha)
  have hb := List.mem_range.mp (List.mem_of_mem_filter hb)
  rw [BitVec.lt_def, BitVec.toNat_ofNat, BitVec.toNat_ofNat]; omega

/-- The open buses below an open bus stand before it in the list. -/
theorem openBuses_split {s : State} {p : BusIx} (h : OpenBus s p) :
    ∃ before after, openBuses s = before ++ busField p :: after ∧ ∀ b ∈ before, b.toNat < p.toNat := by
  obtain ⟨before, after, hl⟩ := List.append_of_mem (mem_openBuses.mpr (opened_busField.mpr h))
  have hsorted := openBuses_pairwise s
  rw [hl, List.pairwise_append] at hsorted
  refine ⟨before, after, hl, fun b hb => ?_⟩
  rw [← busField_toNat p]
  exact hsorted.2.2 b hb _ List.mem_cons_self

/-- The one open bus is the whole list. -/
theorem openBuses_singleton {s : State} {p : BusIx} (h : ∀ q, OpenBus s q ↔ q = p) : openBuses s = [busField p] := by
  refine (openBuses_pairwise s).eq_of_mem_iff (List.pairwise_singleton _ _) fun b => ?_
  rw [mem_openBuses, List.mem_singleton]
  constructor
  · intro hb
    rw [← (h _).mp (openBus_portOf hb)]
    exact BitVec.eq_of_toNat_eq ((portOf_toNat hb.1).symm.trans (busField_toNat _).symm)
  · rintro rfl
    exact opened_busField.mpr ((h p).mpr rfl)

/-! ### `scan_devices` as a whole -/

section
variable {ds : List Device} {u : Chip} {s t : State} (hscript : s.env.script = []) (hdevs : s.env.devs = some ds)
include hscript hdevs

theorem devicesAt_reference : DevicesAt s.env (DeviceAt ds) := ⟨hscript, ds, hdevs, fun _ _ => Iff.rfl⟩

/-- A unit is registered exactly when an open bus carries one of its candidates. -/
theorem scanDevices_registered_iff (h : scanDevices s = .next t) (hi : (s.unitRec u).init = false) :
    (t.unitRec u).init = true ↔ ∃ p, OpenBus s p ∧ ∃ a ∈ candidates s.cfg u, DeviceAt ds p a := by
  have hdev := devicesAt_reference hscript hdevs
  have hopen : ∀ b ∈ openBuses s, Opened s b := fun b hb => mem_openBuses.mp hb
  constructor
  · intro ht
    by_contra hnone
    have habsent := scanDevicesOnEach_absent hdev hopen hi
      (fun b hb c hc hd => hnone ⟨portOf b, openBus_portOf (hopen b hb), c, hc, hd⟩) h
    exact absurd (habsent.symm.trans ht) (by decide)
  · rintro ⟨p, hp, a, ha, hd⟩
    have hmem : busField p ∈ openBuses s := mem_openBuses.mpr (opened_busField.mpr hp)
    obtain ⟨before, b, after, hl, hb, hbefore⟩ := exists_split_at_first (l := openBuses s)
      (Q := fun b => ∃ c ∈ candidates s.cfg u, DeviceAt ds (portOf b) c)
      ⟨busField p, hmem, a, ha, by rw [portOf_busField]; exact hd⟩
    obtain ⟨pre, x, hfirst⟩ := FirstThere.exists_of_mem hb
    rw [scanDevices, hl] at h
    rw [hl] at hopen
    rw [scanDevicesOnEach_found hdev hopen hi (fun c hc x hx hd => hbefore c hc ⟨x, hx, hd⟩) hfirst h]
    rfl

/-- The record names the lowest open bus that carries a candidate, and the first candidate there. -/
theorem scanDevices_record (h : scanDevices s = .next t) (hi : (s.unitRec u).init = false) {p : BusIx} (hp : OpenBus s p)
    {pre : List Addr} {a : Addr} (hfirst : FirstThere (DeviceAt ds) p (candidates s.cfg u) pre a)
    (hlow : ∀ q : BusIx, q.toNat < p.toNat → OpenBus s q → ∀ c ∈ candidates s.cfg u, ¬ DeviceAt ds q c) :
    t.unitRec u = registeredAt p a := by
  obtain ⟨before, after, hl, hbefore⟩ := openBuses_split hp
  have hopen : ∀ b ∈ before ++ busField p :: after, Opened s b := fun b hb => mem_openBuses.mp (hl ▸ hb)
  rw [scanDevices, hl] at h
  rw [← portOf_busField p] at hfirst ⊢
  refine scanDevicesOnEach_found (devicesAt_reference hscript hdevs) hopen hi (fun b hb => ?_) hfirst h
  have hb' := hopen b (List.mem_append_left _ hb)
  exact hlow _ (by rw [portOf_toNat hb'.1]; exact hbefore b hb) (openBus_portOf hb')

/-- On one open bus that carries both chips, the PWM unit's events come first and then the display's. -/
theorem scanDevices_trace (h : scanDevices s = .next t) (hip : s.recPwm.init = false) (hid : s.recDisp.init = false)
    {p : BusIx} (hp : ∀ q, OpenBus s q ↔ q = p) {pre pre' : List Addr} {a a' : Addr}
    (hpwm : FirstThere (DeviceAt ds) p s.cfg.pwmCandidates pre a)
    (hdisp : FirstThere (DeviceAt ds) p s.cfg.dispCandidates pre' a') :
    ∃ v v', t.trace = s.trace ++
      (pre.map (fun c => .tx p (.writeRead c s.cfg.pwmMode1 1) .fail) ++
        [.tx p (.writeRead a s.cfg.pwmMode1 1) (.ok [v])] ++ okWrites p a (pwmInitMsgs s.cfg)) ++
      (pre'.map (fun c => .tx p (.writeRead c s.cfg.dispProbeReg 1) .fail) ++
        [.tx p (.writeRead a' s.cfg.dispProbeReg 1) (.ok [v'])] ++ okWrites p a' (dispInitMsgs s.cfg)) := by
  have hdev := devicesAt_reference hscript hdevs
  have ho : Opened s (busField p) := opened_busField.mpr ((hp p).mpr rfl)
  rw [scanDevices, openBuses_singleton hp] at h
  obtain ⟨t', hon, ht⟩ := andThen_eq_next.mp h
  cases ht
  rw [scanDevicesOn_eq_scanUnit] at hon
  obtain ⟨m, hm, ht⟩ := andThen_eq_next.mp hon
  have hkeep := scanUnit_keeps hm
  rw [← portOf_busField p] at hpwm hdisp
  obtain ⟨_, v, htrace⟩ := scanUnit_found (u := .pwm) hdev ho hip hpwm hm
  obtain ⟨_, v', htrace'⟩ := scanUnit_found (u := .disp) (hkeep.devices _ hdev) (hkeep.openedField ho)
    ((congrArg DevRec.init (hkeep.records .disp (by decide))).trans hid) (by rw [hkeep.cfg]; exact hdisp) ht
  rw [htrace, hkeep.cfg, portOf_busField] at htrace'
  exact ⟨v, v', htrace'⟩

end

/-- Settles O60, clause by clause: the scan never stops, does nothing where both units are registered, keeps what is
registered and what is open, and on reference devices registers as `scanDevices_registered_iff` and `scanDevices_record` say,
with the events of `scanDevices_trace`. -/
theorem scanDevicesKeepsRegisteredUnits : Obligations.ScanDevicesKeepsRegisteredUnits := by
  refine ⟨fun s => scanDevicesOnEach_next _ s, fun s hp hd => scanDevicesOnEach_registered hp hd _,
    fun s t h => ⟨fun u hi => (scanDevicesOnEach_keeps_registered hi h).records u rfl,
      (scanDevicesOnEach_keepsSetup h).opened⟩,
    fun s t ds u hscript hdevs h hi => ⟨scanDevices_registered_iff hscript hdevs h hi, ?record⟩, ?events⟩
  case record =>
    intro p pre a post hp hc ha hpre hlow
    exact scanDevices_record hscript hdevs h hi hp ⟨post, hc, ha, hpre⟩ hlow
  case events =>
    intro s t ds p pre post pre' post' a a' hscript hdevs h hip hid hp hc ha hpre hc' ha' hpre'
    exact scanDevices_trace hscript hdevs h hip hid hp ⟨post, hc, ha, hpre⟩ ⟨post', hc', ha', hpre'⟩

end Sys2Proof.Machine

/-! ## Which codes a command ends with (60_exceptions R222) -/

namespace Sys2Proof.Machine

@[simp] theorem statusWord_toNat (code : BitVec 4) : (statusWord code).toNat = code.toNat :=
  (BitVec.toNat_append 0#28 code).trans (by simp)

/-- STATUS is success or one of the codes. -/
def EndsWithCode (codes : List Nat) (t : State) : Prop := t.status.toNat = 0 ∨ t.status.toNat ∈ codes

section
variable {codes : List Nat}

theorem finish_endsWithCode (r : Word) (s : State) : EndsWithCode codes (finish r s) := .inl rfl

theorem raise_endsWithCode {e : Error} (h : (errorCode e).toNat ∈ codes) (s : State) : EndsWithCode codes (raise e s) :=
  .inr (by rw [raise_status, statusWord_toNat]; exact h)

/-- Writes end in success or TransportError. -/
theorem endWrites_endsWithCode (h5 : 5 ∈ codes) (r : Word) (w : Bool × State) : EndsWithCode codes (endWrites r w) := by
  unfold endWrites
  split
  · exact finish_endsWithCode _ _
  · exact raise_endsWithCode h5 _

/-- INIT ends in success, in DeviceNotFound for want of a chip, or in TransportError. -/
theorem initUnit_endsWithCode (h2 : 2 ∈ codes) (h5 : 5 ∈ codes) (u : Chip) (msgs : List (List Byte)) (s : State) :
    EndsWithCode codes (initUnit u msgs s) := by
  unfold initUnit
  split
  · dsimp only
    split
    · exact finish_endsWithCode _ _
    · exact raise_endsWithCode h5 _
  · exact raise_endsWithCode h2 _

/-- DETECT ends in success, in BusUnavailable, or in DeviceNotFound. -/
theorem detectUnit_endsWithCode (h1 : 1 ∈ codes) (h2 : 2 ∈ codes) (u : Chip) (cands : List Addr) (reg b : Byte)
    (s : State) : EndsWithCode codes (detectUnit u cands reg b s) := by
  rcases detectUnit_cases u cands reg b s with ⟨_, h⟩ | ⟨_, _, _, ⟨_, _, h⟩ | h⟩
  · rw [h]; exact raise_endsWithCode h1 _
  · rw [h]; exact finish_endsWithCode _ _
  · rw [h]; exact raise_endsWithCode h2 _

end

/-- Every way a command ends leaves a code of its row. -/
theorem exec_endsWithCode {i : Instr} {s t : State} (h : exec i s = .next t) : EndsWithCode (errorCodes i) t := by
  cases exec_answer h
  case raised hc _ _ => exact raise_endsWithCode hc _
  case held | failsByte | failsBlock | failsKey => exact raise_endsWithCode (by simp [errorCode, errorCodes]) _
  case opens | closesNothing | closes | selects | readsByte | readsBlock | scans | closesAll | readsKey =>
    exact finish_endsWithCode _ _
  case pwmDetects | dispDetects => exact detectUnit_endsWithCode (by simp [errorCodes]) (by simp [errorCodes]) _ _ _ _ s
  case pwmInits | dispInits => exact initUnit_endsWithCode (by simp [errorCodes]) (by simp [errorCodes]) _ _ s
  all_goals exact endWrites_endsWithCode (by simp [errorCodes]) _ _

/-- Settles O54, by cases on `exec_answer`: checks raise codes of the row, and so do the shared operations. -/
theorem commandsEndWithTheirListedCodes : Obligations.CommandsEndWithTheirListedCodes :=
  fun _ _ _ h => exec_endsWithCode h

end Sys2Proof.Machine

/-! ## The environment's answers (20_memory R57; 60_exceptions R232) -/

namespace Sys2Proof.Machine

/-- A scripted reply of the right length is taken as it is. -/
theorem okReply_eq {t : Tx} {d : List Byte} (h : d.length = replyLength t) (n : Nat) : okReply n t d = .ok d := by
  refine congrArg Response.ok (List.ext_getElem (by simp [h]) fun k hk hd => ?_)
  rw [List.getElem_map, List.getElem_range, List.getD_eq_getElem _ _ hd]

/-- A response has R57's shape for a transaction. -/
def HasShape (t : Tx) (r : Response) : Prop := r = .fail ∨ ∃ d, r = .ok d ∧ d.length = replyLength t

/-- A scripted answer can be any response of the transaction's shape. -/
theorem HasShape.exists_env {t : Tx} {r : Response} (h : HasShape t r) (p : BusIx) : ∃ e : Env, e.response p t = r := by
  obtain rfl | ⟨d, rfl, hd⟩ := h
  · exact ⟨{ Env.free with script := [.fail] }, rfl⟩
  · exact ⟨{ Env.free with script := [.ok d] }, okReply_eq hd _⟩

/-- Settles O56: `response_shape` says what an answer is, and a script lays down any answer of that shape. -/
theorem everyAnswerOfItsShapeIsDrawn : Obligations.EveryAnswerOfItsShapeIsDrawn := by
  refine ⟨fun e p t => ?shape, fun p t r h => HasShape.exists_env (t := t) ?drawn p,
    fun h => ⟨{ Env.free with held := [h] }, rfl⟩⟩
  case shape => cases t <;> exact response_shape e p _
  case drawn => cases t <;> exact h

end Sys2Proof.Machine

/-! ## The reference environment's answers (60_exceptions R236) -/

namespace Sys2Proof.Machine

/-! ### A device's registers after a Write -/

/-- A Write leaves every register it does not reach. -/
theorem read_writeRegs_out {r : Byte} (data : List Byte) {i x : Nat} (regs : List Host.Cell)
    (h : ∀ j < data.length, deviceReg r (i + j) ≠ x) :
    Memory.read (writeRegs r i regs data) x = Memory.read regs x := by
  induction data generalizing i regs with
  | nil => rfl
  | cons v data ih =>
    have hhead : deviceReg r i ≠ x := h 0 (by simp)
    have htail : ∀ j < data.length, deviceReg r (i + 1 + j) ≠ x := fun j hj => by
      rw [Nat.add_right_comm]; exact h (j + 1) (Nat.succ_lt_succ hj)
    rw [writeRegs, ih _ htail, read_write_ne _ hhead]

/-- A register holds the last byte a Write puts there. -/
theorem read_writeRegs_in {r : Byte} (data : List Byte) {i k : Nat} {regs : List Host.Cell}
    (hwf : Memory.wf 256 regs = true) (hk : k < data.length)
    (hlast : ∀ j, k < j → j < data.length → deviceReg r (i + j) ≠ deviceReg r (i + k)) :
    Memory.read (writeRegs r i regs data) (deviceReg r (i + k)) = data[k] := by
  induction data generalizing i k regs with
  | nil => exact absurd hk (by simp)
  | cons v data ih =>
    have hreg : deviceReg r i < 256 := Nat.mod_lt _ (by decide)
    rw [writeRegs]
    cases k with
    | zero =>
      have hout : ∀ j < data.length, deviceReg r (i + 1 + j) ≠ deviceReg r i := fun j hj => by
        rw [Nat.add_right_comm]; exact hlast (j + 1) (Nat.succ_pos j) (Nat.succ_lt_succ hj)
      exact (read_writeRegs_out data _ hout).trans ((read_write hwf _).trans (if_pos rfl))
    | succ k =>
      have hshift : ∀ j, i + (j + 1) = i + 1 + j := fun j => (Nat.add_right_comm i 1 j).symm
      have hlast' : ∀ j, k < j → j < data.length → deviceReg r (i + 1 + j) ≠ deviceReg r (i + 1 + k) := fun j hkj hj => by
        rw [← hshift, ← hshift]; exact hlast (j + 1) (Nat.succ_lt_succ hkj) (Nat.succ_lt_succ hj)
      rw [hshift k, ih (wf_write hwf hreg) (Nat.lt_of_succ_lt_succ hk) hlast', List.getElem_cons_succ]

/-! ### The devices after a transaction -/

/-- A device after a transaction to it. -/
def Device.after (t : Tx) (d : Device) : Device := { d with regs := regsAfter t d.regs }

/-- A transaction that writes no register of the device it reaches, or reaches none, changes no device. -/
theorem refDevices_eq_self {b : BusIx} {t : Tx} {ds : List Device}
    (h : ∀ d ∈ ds, isDeviceAt b (txAddr t) d = true → regsAfter t d.regs = d.regs) : refDevices b t ds = ds := by
  induction ds with
  | nil => rfl
  | cons d ds ih =>
    rw [refDevices]
    split
    · next hd => rw [h d List.mem_cons_self hd]
    · rw [ih fun x hx => h x (List.mem_cons_of_mem _ hx)]

/-- The device a transaction reaches stands where it was, its registers written. -/
theorem find_refDevices_same (b : BusIx) (t : Tx) (ds : List Device) :
    (refDevices b t ds).find? (isDeviceAt b (txAddr t)) = (ds.find? (isDeviceAt b (txAddr t))).map (Device.after t) := by
  induction ds with
  | nil => rfl
  | cons d ds ih =>
    rw [refDevices]
    split
    · next hd =>
      have hd' : isDeviceAt b (txAddr t) { d with regs := regsAfter t d.regs } = true := hd
      rw [List.find?_cons_of_pos hd', List.find?_cons_of_pos hd]; rfl
    · next hd => rw [List.find?_cons_of_neg hd, List.find?_cons_of_neg hd, ih]

/-- Every other device stands as it was. -/
theorem find_refDevices_other {b b' : BusIx} {t : Tx} {a : Addr} (h : b' ≠ b ∨ a ≠ txAddr t) (ds : List Device) :
    (refDevices b t ds).find? (isDeviceAt b' a) = ds.find? (isDeviceAt b' a) := by
  induction ds with
  | nil => rfl
  | cons d ds ih =>
    rw [refDevices]
    split
    · next hd =>
      have hd' : ¬ isDeviceAt b' a d = true := by
        simp only [isDeviceAt, Bool.and_eq_true, decide_eq_true_eq] at hd ⊢
        rintro ⟨rfl, rfl⟩
        exact h.elim (· hd.1) (· hd.2)
      have hd'' : ¬ isDeviceAt b' a { d with regs := regsAfter t d.regs } = true := hd'
      rw [List.find?_cons_of_neg hd', List.find?_cons_of_neg hd'']
    · rw [List.find?_cons, List.find?_cons, ih]

/-! ### What the reference environment answers -/

/-- Nothing is scripted and the reference devices are `ds`. -/
structure References (e : Env) (ds : List Device) : Prop where
  script : e.script = []
  devs : e.devs = some ds

section
variable {e : Env} {ds : List Device}

theorem References.answered (h : References e ds) (b : BusIx) (t : Tx) :
    References (e.answered b t) (refDevices b t ds) where
  script := by simp [Env.answered, h.script]
  devs := by simp [Env.answered, Env.devsAfter, h.script, h.devs]

theorem References.response (h : References e ds) (b : BusIx) (t : Tx) : e.response b t = refResponse ds b t := by
  simp [Env.response, h.script, h.devs]

theorem References.response_absent (h : References e ds) {b : BusIx} {t : Tx}
    (hf : ds.find? (isDeviceAt b (txAddr t)) = none) : e.response b t = .fail := by
  rw [h.response, refResponse, hf]

theorem References.response_found (h : References e ds) {b : BusIx} {t : Tx} {d : Device}
    (hf : ds.find? (isDeviceAt b (txAddr t)) = some d) : e.response b t = .ok (regsReply t d.regs) := by
  rw [h.response, refResponse, hf]

/-- A read of one register after a transaction to the same device. -/
theorem References.response_read_after (h : References e ds) {b : BusIx} {t : Tx} {d : Device}
    (hf : ds.find? (isDeviceAt b (txAddr t)) = some d) (x : Byte) :
    (e.answered b t).response b (.writeRead (txAddr t) x 1) = .ok [Memory.read (regsAfter t d.regs) x.toNat] := by
  have hf' : (refDevices b t ds).find? (isDeviceAt b (txAddr t)) = some (d.after t) := by
    rw [find_refDevices_same, hf]; rfl
  rw [(h.answered b t).response_found (t := .writeRead (txAddr t) x 1) hf']
  have hx : deviceReg x 0 = x.toNat := Nat.mod_eq_of_lt x.isLt
  simp [regsReply, hx, Device.after]

theorem References.response_other (h : References e ds) {b b' : BusIx} {t t' : Tx} (hne : b' ≠ b ∨ txAddr t' ≠ txAddr t) :
    (e.answered b t).response b' t' = e.response b' t' := by
  rw [h.response, (h.answered b t).response, refResponse, refResponse, find_refDevices_other hne]

/-- A transaction that leaves the registers of the device it reaches, or reaches none, leaves the devices. -/
theorem References.devs_answered (h : References e ds) {b : BusIx} {t : Tx}
    (hd : ∀ d ∈ ds, isDeviceAt b (txAddr t) d = true → regsAfter t d.regs = d.regs) : (e.answered b t).devs = some ds := by
  rw [(h.answered b t).devs, refDevices_eq_self hd]

end

/-- The statement's search for a device is the model's. -/
theorem decide_bus_addr_eq_isDeviceAt (b : BusIx) (a : Addr) :
    (fun d : Device => decide (d.bus = b ∧ d.addr = a)) = isDeviceAt b a :=
  funext fun _ => Bool.decide_and _ _

/-- Settles O57, clause by clause: what the device found replies, what a Write leaves in its registers, and that no
transaction touches another device. -/
theorem referenceEnvironmentAnswers : Obligations.ReferenceEnvironmentAnswers := by
  intro e ds b t hscript hdevs
  have hr : References e ds := ⟨hscript, hdevs⟩
  rw [decide_bus_addr_eq_isDeviceAt]
  refine ⟨fun hf => ⟨hr.response_absent hf, hr.devs_answered fun d hd hat => ?_⟩, fun d hf => ?found,
    fun b' t' hne => hr.response_other hne, fun hheld => NoneHeld.isHeld ⟨hheld, ds, hdevs⟩⟩
  · exact absurd hat (List.find?_eq_none.mp hf d hd)
  case found =>
    cases t with
    | writeRead a r n => exact ⟨hr.response_found hf, hr.devs_answered fun _ _ _ => rfl⟩
    | probe a => exact ⟨hr.response_found hf, hr.devs_answered fun _ _ _ => rfl⟩
    | write a m =>
      refine ⟨hr.response_found hf, ?_⟩
      rintro r data rfl hwf
      refine ⟨fun k hk hlast => ?_, fun x hout => ?_⟩
      · have hreg : (BitVec.ofNat 8 ((r.toNat + k) % 256)).toNat = deviceReg r (0 + k) := by
          simp [deviceReg]
        have hread := hr.response_read_after hf (BitVec.ofNat 8 ((r.toNat + k) % 256))
        rw [hreg] at hread
        rw [← read_writeRegs_in data hwf hk (i := 0) (by simpa [deviceReg] using hlast)]
        exact hread
      · rw [← read_writeRegs_out data (i := 0) d.regs (by simpa [deviceReg] using hout)]
        exact hr.response_read_after hf x

end Sys2Proof.Machine

/-! ## How many transactions a command issues (70_reset_and_hazards R272) -/

namespace Sys2Proof.Machine

/-! ### Counting transactions -/

/-- Each transaction leaves one event. -/
theorem txCount_events (e : Env) (p : BusIx) (ts : List Tx) : txCount (e.events p ts) = ts.length := by
  induction ts generalizing e with
  | nil => rfl
  | cons t ts ih => exact congrArg Nat.succ (ih (e.answered p t))

/-- The events of closing buses are no transactions. -/
theorem txCount_releases (bs : List Nat) : txCount (bs.map fun b => .release (BitVec.ofNat 4 b)) = 0 := by
  simp [txCount]

/-- From `s` to `t` the trace has gained events with `n` transactions among them. -/
def Issues (n : Nat) (s t : State) : Prop := ∃ evs, t.trace = s.trace ++ evs ∧ txCount evs = n

section
variable {s t : State} {p : BusIx}

theorem Issues.nothing (h : t.trace = s.trace) : Issues 0 s t := ⟨[], by rw [h, List.append_nil], rfl⟩

theorem Issues.events {ts : List Tx} (h : t.trace = s.trace ++ s.env.events p ts) : Issues ts.length s t :=
  ⟨_, h, txCount_events _ p ts⟩

/-- Of the messages a command is to send it has sent all when it ends in success. -/
theorem Issues.writes {a : Addr} {msgs : List (List Byte)} {n : Nat}
    (h : ∃ sent, sent <+: msgs ∧ t.trace = s.trace ++ s.env.events p (sent.map (.write a)) ∧
      (t.status = 0#32 → sent = msgs)) (hn : msgs.length = n) (hs : t.status = 0#32) : Issues n s t := by
  obtain ⟨sent, _, htrace, hall⟩ := h
  obtain rfl := hall hs
  rw [← hn, ← List.length_map (Tx.write a)]
  exact .events htrace

end

/-! ### What success says -/

theorem raise_status_ne_zero (e : Error) (s : State) : (raise e s).status ≠ 0#32 := by
  rw [raise_status]
  cases e <;> decide

/-- INIT in success has sent every message. -/
theorem initUnit_issues {u : Chip} {msgs : List (List Byte)} {n : Nat} {s : State} (hn : msgs.length = n)
    (hs : (initUnit u msgs s).status = 0#32) : Issues n s (initUnit u msgs s) := by
  rcases initUnit_trace u msgs s with ⟨_, h2⟩ | ⟨_, hsent⟩
  · exact absurd (h2.symm.trans hs) (by decide)
  · exact .writes hsent hn hs

/-- DETECT in success has read the candidates up to the one it records, and no other. -/
theorem detectUnit_issues {u : Chip} {cands : List Addr} {reg b : Byte} {s : State}
    (hs : (detectUnit u cands reg b s).status = 0#32) :
    ∃ pre a post, cands = pre ++ a :: post ∧ Issues (1 + pre.length) s (detectUnit u cands reg b s) ∧
      ((detectUnit u cands reg b s).unitRec u).addr = a := by
  rcases detectUnit_cases u cands reg b s with ⟨_, h⟩ | ⟨_, tried, hpre, ⟨a, hlast, h⟩ | h⟩
  · exact absurd (h ▸ hs) (raise_status_ne_zero _ _)
  · obtain ⟨pre, rfl⟩ := List.getLast?_eq_some_iff.mp hlast
    obtain ⟨post, rfl⟩ := hpre
    refine ⟨pre, a, post, by simp, ?_, by rw [h]; cases u <;> rfl⟩
    have hlen : (probeReads reg (pre ++ [a])).length = 1 + pre.length := by simp [probeReads, Nat.add_comm]
    rw [h, ← hlen]
    exact .events rfl
  · exact absurd (h ▸ hs) (raise_status_ne_zero _ _)

/-- A scan probes every address between its two bounds. -/
theorem scanAddrs_length_eq (first last : Byte) :
    (scanAddrs first last).length = min last.toNat 0x77 + 1 - max first.toNat 0x03 := by
  simp [scanAddrs, Config.scanLo, Config.scanHi]

/-- A burst to all channels is one write, a channel is four (R147, R148). -/
theorem pwmSetMsgs_length (cfg : Params) (ch : Byte) (on off : Ticks) :
    (pwmSetMsgs cfg ch on off).length = if ch.toNat = 16 then 1 else 4 := by
  unfold pwmSetMsgs
  split <;> rfl

theorem pwmInitMsgs_length (cfg : Params) : (pwmInitMsgs cfg).length = cfg.pwmInitSeq.length := List.length_map _

/-- Settles O55, by cases on `exec_answer`: a command in success has sent every message of its list, or asked its one
question, or every one of its probes. -/
theorem successfulCommandsIssueTheListedTransactions : Obligations.SuccessfulCommandsIssueTheListedTransactions := by
  intro i s t h hs
  cases exec_answer h
  case raised | held | failsByte | failsBlock | failsKey => exact absurd hs (raise_status_ne_zero _ _)
  case closesNothing | selects => exact Issues.nothing rfl
  case opens b _ _ => exact ⟨[.acquire (portOf b)], rfl, rfl⟩
  case closes b _ => exact ⟨[.release (portOf b)], rfl, rfl⟩
  case closesAll => exact ⟨_, closeBuses_trace _ (by omega) s, txCount_releases _⟩
  case writesByte | writesBlock => exact Issues.writes (endWrites_trace _ _ [_] _ s) rfl hs
  case readsByte b r a _ _ _ => exact Issues.events (ts := [.writeRead a r 1]) rfl
  case readsBlock b r n a _ _ _ _ _ _ => exact Issues.events (ts := [.writeRead a r n.toNat]) rfl
  case readsKey => exact Issues.events (ts := [.writeRead s.recDisp.addr s.cfg.keyBase (2 * s.cfg.keyRows)]) rfl
  case scans b first last _ =>
    refine ⟨_, rfl, ?_⟩
    rw [txCount_events, List.length_map, scanAddrs_length_eq]
  case pwmDetects | dispDetects =>
    obtain ⟨pre, a, post, hc, ⟨evs, htrace, hcount⟩, haddr⟩ := detectUnit_issues hs
    exact ⟨evs, htrace, pre, a, post, hc, hcount, haddr⟩
  case pwmInits => exact initUnit_issues (pwmInitMsgs_length s.cfg) hs
  case dispInits => exact initUnit_issues rfl hs
  case setsChannel => exact Issues.writes (unitWrites_trace .pwm _ _ s) (pwmSetMsgs_length _ _ _ _) hs
  case setsAll | setsFan | setsLed => exact Issues.writes (unitWrites_trace .pwm _ _ s) rfl hs
  case clears | showsText | showsLeft | showsRight => exact Issues.writes (showDigits_trace _ _ _ s) rfl hs

end Sys2Proof.Machine

/-! ## Units after DETECT and around their commands (60_exceptions R223; 70_reset_and_hazards R267, R268) -/

namespace Sys2Proof.Machine

/-- The unit's commands that ask for an initialised device, with their operands in range (R147 to R150, R175 to R182). -/
def Chip.Operates (s : State) : Chip → Instr → Prop
  | .pwm, i => (∃ ch : Byte, ch.toNat ≤ 16 ∧ i = .pwmSet ch) ∨ i = .pwmSetAll ∨ i = .fanSpeed ∨ i = .ledColor
  | .disp, i => i = .dispClear ∨ (∃ idx c : Byte, idx.toNat ≤ 3 ∧ (i = .dispCharL idx c ∨ i = .dispCharR idx c)) ∨
      (∃ right, s.dlen.toNat ≤ 128 ∧ i = .dispString right) ∨ i = .readKey

/-- From `s` command `i` asks for the unit's `init` and with it set answers a state whose ports are those after `select`. -/
def ChecksThenSelects (u : Chip) (s : State) (i : Instr) : Prop :=
  ∃ t, exec i s = .next (if !(s.unitRec u).init then raise .notInitialized s else t) ∧ t.ports = (select u s).ports

theorem checksThenSelects_pwm {s : State} {i : Instr} (hi : Chip.Operates s .pwm i) : ChecksThenSelects .pwm s i := by
  rcases hi with ⟨ch, hch, rfl⟩ | rfl | rfl | rfl
  · exact ⟨_, congrArg Host.Outcome.next (if_neg hch.not_gt), unitWrites_ports .pwm _ _ s⟩
  all_goals exact ⟨_, rfl, unitWrites_ports .pwm _ _ s⟩

/-- A character at a slot counted from the left (R176). -/
theorem exec_dispCharL {idx : Byte} {slot : Fin 4} (h : slot.val = idx.toNat) (c : Byte) (s : State) :
    exec (.dispCharL idx c) s = .next (if !s.recDisp.init then raise .notInitialized s else showChar slot c s) := by
  simp only [exec, execDispCharL, leftSlot_some h]

/-- A character at a slot counted from the right (R177). -/
theorem exec_dispCharR {idx : Byte} {slot : Fin 4} (h : slot.val + idx.toNat = 3) (c : Byte) (s : State) :
    exec (.dispCharR idx c) s = .next (if !s.recDisp.init then raise .notInitialized s else showChar slot c s) := by
  simp only [exec, execDispCharR, rightSlot_some h]

theorem checksThenSelects_readKey (s : State) : ChecksThenSelects .disp s .readKey := by
  refine ⟨_, rfl, ?_⟩
  dsimp only
  split <;> rfl

theorem checksThenSelects_disp {s : State} {i : Instr} (hi : Chip.Operates s .disp i) : ChecksThenSelects .disp s i := by
  rcases hi with rfl | ⟨idx, c, hidx, rfl | rfl⟩ | ⟨right, hlen, rfl⟩ | rfl
  · exact ⟨_, rfl, showDigits_ports _ _ _ s⟩
  · exact ⟨_, exec_dispCharL (slot := ⟨idx.toNat, by omega⟩) rfl c s, showDigits_ports _ _ _ s⟩
  · exact ⟨_, exec_dispCharR (slot := ⟨3 - idx.toNat, by omega⟩) (Nat.sub_add_cancel hidx) c s,
      showDigits_ports _ _ _ s⟩
  · exact ⟨_, congrArg Host.Outcome.next (if_neg hlen.not_gt), showDigits_ports _ _ _ s⟩
  · exact checksThenSelects_readKey s

theorem Chip.Operates.checksThenSelects {s : State} {u : Chip} {i : Instr} (hi : Chip.Operates s u i) :
    ChecksThenSelects u s i := by
  cases u
  · exact checksThenSelects_pwm hi
  · exact checksThenSelects_disp hi

/-- With `init` clear the command raises NotInitialized and changes nothing else (R223). -/
theorem Chip.Operates.exec_of_not_init {s : State} {u : Chip} {i : Instr} (hi : Chip.Operates s u i)
    (h : (s.unitRec u).init = false) : exec i s = .next (withError 3 s) := by
  obtain ⟨t, he, _⟩ := hi.checksThenSelects
  rw [he, h]
  rfl

/-- With `init` set the command leaves the unit's device selected on the bus of its record, however it ends (R267). -/
theorem Chip.Operates.exec_selects {s t : State} {u : Chip} {i : Instr} (hi : Chip.Operates s u i)
    (he : exec i s = .next t) (h : (s.unitRec u).init = true) :
    (t.port (s.unitRec u).bus).sel = some (s.unitRec u).addr := by
  obtain ⟨t', he', hports⟩ := hi.checksThenSelects
  rw [he', h] at he
  cases he
  exact (congrArg Port.sel (port_congr hports _)).trans (by rw [select, port_setSel_self])

/-- DETECT leaves its unit uninitialised, whatever its outcome (R268). -/
theorem detectUnit_not_init (u : Chip) (cands : List Addr) (reg b : Byte) (s : State) :
    ((detectUnit u cands reg b s).unitRec u).init = false := by
  rcases detectUnit_cases u cands reg b s with ⟨_, h⟩ | ⟨_, tried, _, ⟨a, _, h⟩ | h⟩
  · rw [h]; cases u <;> rfl
  · rw [h]; cases u <;> rfl
  · rw [h]
    cases tried.getLast? <;> cases u <;> rfl

/-- Settles O58: each unit's commands check `init` and then select, and DETECT records a device without `init` or none. -/
theorem detectDropsTheUnitAndCommandsReselect : Obligations.DetectDropsTheUnitAndCommandsReselect := by
  refine ⟨fun s t b => ⟨fun h => ?pwm, fun h => ?disp⟩,
    fun s i h hi => Chip.Operates.exec_of_not_init (u := .pwm) hi h,
    fun s i h hi => Chip.Operates.exec_of_not_init (u := .disp) hi h,
    fun s t i he h hi => Chip.Operates.exec_selects (u := .pwm) hi he h,
    fun s t i he h hi => Chip.Operates.exec_selects (u := .disp) hi he h⟩
  case pwm => cases h; exact detectUnit_not_init .pwm _ _ b s
  case disp => cases h; exact detectUnit_not_init .disp _ _ b s

end Sys2Proof.Machine
